-- ==== Sys2Proof/Word.lean ====
section
/-! DEFINITION. The two word types of the block: a pixel or input byte, and the 32-bit two's-complement integer of
00_scope.md rule R8 (`INT_BITS` = 32), whose `+`, `-`, `*` wrap. -/

namespace Sys2Proof

/-- An unsigned 8-bit byte: a pixel or one byte of `IN` (R8, R60, R61). -/
abbrev Byte := BitVec 8

/-- A signed integer of `INT_BITS` = 32 bits in two's complement (R8). -/
abbrev Word := BitVec 32

/-- `a >> n`: the arithmetic right shift of R8, floor of `a / 2^n`. -/
def sar (a : Word) (n : Nat) : Word := a.sshiftRight n

end Sys2Proof
end

