-- ==== Sys2Proof/Config.lean ====
section
/-! DEFINITION. The configuration of one instance (00_scope.md rules R6, R7; 10_state.md rule R30): the scalar
parameters and the constant ROMs, all plain data, so that a claim quantifies over every configuration; and the one
configuration `State.reset` carries, whose ROM contents are opaque constants (nothing can be proved of them but the
constraints R7 states). -/

namespace Sys2Proof

/-! ## Enumerated parameters -/

/-- `BLOCK_BITS`, the width of the refill unit (R6). -/
inductive BlockBits where
  | b8 | b16 | b32
  deriving DecidableEq, Repr

/-- `UNIT_ENDIAN`, the byte order in which a refill unit is assembled (R6, R68). -/
inductive Endian where
  | little | big
  deriving DecidableEq, Repr

/-- `MVC_INTRA_POLICY`, what an intra escape does to its motion-vector cache slot (R6, R281). -/
inductive MvcPolicy where
  | keep | zero
  deriving DecidableEq, Repr

/-- `RING_INIT`, the content of the frame buffers after reset (R6, R342). -/
inductive RingInit where
  | zero | any
  deriving DecidableEq, Repr

/-- The nine reconstruction modes of R200. -/
inductive IntraMode where
  | vertical | horizontal | deltaPlane | dc | horizontalUp | horizontalDown | verticalRight | diagonalDownRight
  | verticalLeft
  deriving DecidableEq, Repr

/-- The block sizes `N` of `PredictBlock` (R204): 4, 8 or 16. -/
inductive PSize where
  | four | eight | sixteen
  deriving DecidableEq, Repr

/-- The number of pixels on a side. -/
abbrev PSize.n : PSize → Nat
  | .four => 4
  | .eight => 8
  | .sixteen => 16

/-- The block sizes `N` of the residual path (R160, R180, R181): 4 or 8. -/
inductive TSize where
  | four | eight
  deriving DecidableEq, Repr

/-- The number of coefficients on a side. -/
abbrev TSize.n : TSize → Nat
  | .four => 4
  | .eight => 8

/-- The number of coefficients `L = N*N` (R160). -/
abbrev TSize.len : TSize → Nat
  | .four => 16
  | .eight => 64

/-! ## Huffman trees -/

/-- A HuffmanTree (R140): a finite binary trie whose child positions are absent, a leaf holding a value, or an internal
node. The leaf set of a trie is prefix-free by construction. -/
inductive HuffTree where
  | absent
  | leaf (value : Nat)
  | node (zero one : HuffTree)
  deriving DecidableEq, Repr, Inhabited

/-- The tree with every value `v` replaced by `v % m`. -/
def HuffTree.boundValues (m : Nat) : HuffTree → HuffTree
  | .absent => .absent
  | .leaf v => .leaf (v % m)
  | .node l r => .node (l.boundValues m) (r.boundValues m)

/-- The tree without internal nodes that lead to no leaf: the shape every tree built by `insert` has (R141). -/
def HuffTree.prune : HuffTree → HuffTree
  | .absent => .absent
  | .leaf v => .leaf v
  | .node l r =>
    match l.prune, r.prune with
    | .absent, .absent => .absent
    | l', r' => .node l' r'

/-- One tree as a ROM: the trie, and `HUFF_MAX_DEPTH` (R145). `none` is R145's default, the longest codeword: in a trie
without dead ends that limit is never met before an absent child is, so no check is needed. -/
structure HuffRom where
  tree : HuffTree
  limit : Option Nat
  deriving DecidableEq, Repr

/-! ## ROMs -/

/-- The ROMs one residual table index selects (R7, R25): `HUFF_RES[t]`, `ESC_AMP[t]` at flat index `r + 64*e` and
`ESC_RUN[t]` at flat index `a + 32*e`. -/
structure ResTable where
  huff : HuffRom
  escAmp : Vector Word 128
  escRun : Vector Word 64
  deriving DecidableEq, Repr

/-- One member `(w,h)` of `MVSIZES` with its plain and its stereo motion-mode tree (R144, R257). -/
structure MvTree where
  w : Nat
  h : Nat
  plain : HuffRom
  stereo : HuffRom
  deriving DecidableEq, Repr

/-- One point of `DELTA_PLANE_FN` (R208) that a configuration fixes: the arguments and the `N*N` bytes, row by row. -/
structure PlanePoint where
  size : PSize
  top : List Byte
  left : List Byte
  delta : Word
  out : List Byte
  deriving DecidableEq, Repr

/-- The configuration of an instance: R6's parameters and R7's ROMs. `modeCode` is `MODE_CODE` read backwards: the mode
at position `c` is the one whose code is `c`. -/
structure Config where
  w : Nat
  h : Nat
  stereo : Bool
  blockBits : BlockBits
  unitEndian : Endian
  iframeBit : Bool
  qpMin : Int
  qpMax : Int
  qpAccumulates : Bool
  mvcIntra : MvcPolicy
  ringInit : RingInit
  res0 : ResTable
  res1 : ResTable
  zz4 : Vector (Fin 16) 16
  zz8 : Vector (Fin 64) 64
  qt4 : Vector (Vector Nat 16) 6
  qt8 : Vector (Vector Nat 64) 6
  cbp : Vector (BitVec 6) 64
  cbp4 : Vector (BitVec 4) 16
  mvTrees : List MvTree
  modeCode : List IntraMode
  planePoints : List PlanePoint
  deriving DecidableEq, Repr

/-- `MBW`, macroblocks per row (R6). -/
def Config.mbw (c : Config) : Nat := c.w / 16

/-- `MBH`, macroblock rows (R6). -/
def Config.mbh (c : Config) : Nat := c.h / 16

/-- `BLOCK_BITS` as a number. -/
abbrev BlockBits.bits : BlockBits → Nat
  | .b8 => 8
  | .b16 => 16
  | .b32 => 32

/-- `BLOCK_BITS/8`, the bytes of a refill unit. -/
abbrev BlockBits.bytes : BlockBits → Nat
  | .b8 => 1
  | .b16 => 2
  | .b32 => 4

/-- The ROMs the residual table index `t` selects (R25). -/
def Config.res (c : Config) (t : Bool) : ResTable := if t then c.res1 else c.res0

/-- The entry of `MVSIZES` for the size `(w,h)`, if it is a member (R144, R257). -/
def Config.mvTree? (c : Config) (w h : Nat) : Option MvTree := c.mvTrees.find? fun t => t.w == w && t.h == h

/-! ## Free values

Each is an opaque constant: no proof can see its value, so a claim holds whatever it is. -/

/-- `DELTA_PLANE_FN` (R208): size, top row, left column, delta, column, row. Only total, deterministic and byte-valued
(log 6). -/
opaque Config.deltaPlane : PSize → List Byte → List Byte → Word → Nat → Nat → Byte

/-- With `RING_INIT` = `any`, byte `a` of the buffer `k` before its first clear (R342; log 8). -/
opaque Config.ringByte : Nat → Nat → Byte

/-- Which coefficient, if any, a write with a NEGATIVE zig-zag cursor reaches: 42_residual.md states no result there
(log 15). -/
opaque Config.zigzagBelow : TSize → Word → Option (Fin 64)

/-- Contents of the two residual trees off the path of R147's two leaves (log 5). -/
opaque Config.openResTree : Bool → Nat → HuffTree

/-- Entries of `ESC_AMP` (log 5). -/
opaque Config.openEscAmp : Bool → Nat → Word

/-- Entries of `ESC_RUN` (log 5). -/
opaque Config.openEscRun : Bool → Nat → Word

/-- `ZZ4`, some permutation (log 5). -/
opaque Config.openZz4 : Equiv.Perm (Fin 16)

/-- `ZZ8`, some permutation (log 5). -/
opaque Config.openZz8 : Equiv.Perm (Fin 64)

/-- Entries of `QT4`, less one (log 5). -/
opaque Config.openQt4 : Nat → Nat → Nat

/-- Entries of `QT8`, less one (log 5). -/
opaque Config.openQt8 : Nat → Nat → Nat

/-- Entries of `CBP_ROM` (log 5). -/
opaque Config.openCbp : Nat → BitVec 6

/-- Entries of `CBP4_ROM` (log 5). -/
opaque Config.openCbp4 : Nat → BitVec 4

/-- Whether a size other than (16,16) is in `MVSIZES` (log 5). -/
opaque Config.openMvSize : Nat → Nat → Bool

/-- The two halves of a motion-mode tree: stereo, width, height, first bit (log 5). -/
opaque Config.openMvTree : Bool → Nat → Nat → Bool → HuffTree

/-! ## The configuration at reset -/

/-- An open subtree of a residual tree, with 12-bit values and no dead ends. -/
def Config.openRes (t : Bool) (k : Nat) : HuffTree := ((Config.openResTree t k).boundValues 4096).prune

/-- `HUFF_RES[0]` as far as R147 fixes it: codeword `00000011` for `0x000` and `0000011001` for `0x802`; everything off
those two paths is open. -/
def Config.resTree0 : HuffTree :=
  let o := Config.openRes false
  let mark : HuffTree := .node (o 0) (.node (o 1) (.leaf 0x000))
  let d0 : HuffTree := .node (.node (.node (o 2) (.leaf 0x802)) (o 3)) (o 4)
  let pair : HuffTree := .node mark (.node (o 5) d0)
  .node (.node (.node (.node (.node pair (o 6)) (o 7)) (o 8)) (o 9)) (o 10)

/-- `HUFF_RES[1]`: a root and two open subtrees. -/
def Config.resTree1 : HuffTree := .node (Config.openRes true 0) (Config.openRes true 1)

/-- The ROMs of one residual table, open. -/
def Config.openResTable (t : Bool) (tree : HuffTree) : ResTable where
  huff := { tree := tree, limit := none }
  escAmp := Vector.ofFn fun i => Config.openEscAmp t i
  escRun := Vector.ofFn fun i => Config.openEscRun t i

/-- One motion-mode tree, open, its values within 0..9 (R7). -/
def Config.openMvRom (stereo : Bool) (w h : Nat) : HuffRom where
  tree := .node ((Config.openMvTree stereo w h false).boundValues 10).prune
    ((Config.openMvTree stereo w h true).boundValues 10).prune
  limit := none

/-- The sixteen sizes a member of `MVSIZES` may have (R257), (16,16) first. -/
def Config.mvSizeCandidates : List (Nat × Nat) :=
  [(16, 16), (16, 8), (16, 4), (16, 2), (8, 16), (8, 8), (8, 4), (8, 2), (4, 16), (4, 8), (4, 4), (4, 2), (2, 16),
    (2, 8), (2, 4), (2, 2)]

/-- `MODE_CODE`'s default (R201). -/
def Config.defaultModeCode : List IntraMode :=
  [.vertical, .horizontal, .deltaPlane, .dc, .horizontalUp, .horizontalDown, .verticalRight, .diagonalDownRight,
    .verticalLeft]

/-- The configuration of `State.reset`: R6's defaults, `W`×`H` = 256×192 and `STEREO` = 0 (OPEN in R6: DESIGN CHOICE, log
4), every ROM open (log 5). -/
def Config.constructed : Config where
  w := 256
  h := 192
  stereo := false
  blockBits := .b16
  unitEndian := .little
  iframeBit := true
  qpMin := 12
  qpMax := 161
  qpAccumulates := true
  mvcIntra := .keep
  ringInit := .zero
  res0 := Config.openResTable false Config.resTree0
  res1 := Config.openResTable true Config.resTree1
  zz4 := Vector.ofFn fun i => Config.openZz4 i
  zz8 := Vector.ofFn fun i => Config.openZz8 i
  qt4 := Vector.ofFn fun q => Vector.ofFn fun i => Config.openQt4 q i + 1
  qt8 := Vector.ofFn fun q => Vector.ofFn fun i => Config.openQt8 q i + 1
  cbp := Vector.ofFn fun i => Config.openCbp i
  cbp4 := Vector.ofFn fun i => Config.openCbp4 i
  mvTrees := (Config.mvSizeCandidates.filter fun s => s == (16, 16) || Config.openMvSize s.1 s.2).map fun s =>
    { w := s.1, h := s.2, plain := Config.openMvRom false s.1 s.2, stereo := Config.openMvRom true s.1 s.2 }
  modeCode := Config.defaultModeCode
  planePoints := []

end Sys2Proof
end

