-- ==== Sys2Proof/Syntax.lean ====
section
/-! DEFINITION. The syntax of the machine: one constructor of `Instr` per row of spec/opcode_table.json, the operands
they carry, the positions of the decode procedure (`Task`) at which the sequencer reads them, and the bit reader's
registers (`Cursor`), which decoding works on. -/

namespace Sys2Proof

/-! ## Operands -/

/-- The three planes of a frame (R61): 0 luma, 1 chromaU, 2 chromaV. -/
inductive Plane where
  | luma | chromaU | chromaV
  deriving DecidableEq, Repr

/-- A square block: plane, column and row of its top-left pixel in that plane, and size `N` (R11). -/
structure Block where
  plane : Plane
  x : Nat
  y : Nat
  size : PSize
  deriving DecidableEq, Repr

/-- The mode operand of `PredictBlock` and `DecodeBlock8` (R200): a reconstruction mode or one of the two sentinels. -/
inductive BlockMode where
  | explicit (m : IntraMode)
  | nothing
  | predicted
  deriving DecidableEq, Repr

/-- A luma rectangle of motion compensation: position and size (R252, R256). -/
structure Rect where
  x : Nat
  y : Nat
  w : Nat
  h : Nat
  deriving DecidableEq, Repr

/-- A motion vector in half-pel units (R32): `x` to the right, `y` down. -/
structure MV where
  x : Word
  y : Word
  deriving DecidableEq, Repr

/-- The two kinds of frame (R293). -/
inductive FrameKind where
  | intra | inter
  deriving DecidableEq, Repr

/-- Where `DecodeFrame` stands (R290, R295, R297, R298): its entry with the caller's byte range, the head of the
macroblock loop, the end of one macroblock, the finish, and the hand-over to the caller (log 23). -/
inductive FrameStage where
  | start (bytes : List Byte)
  | macroblocks (k : FrameKind)
  | macroblockDone (k : FrameKind)
  | finish
  | handOver
  deriving DecidableEq, Repr

/-- Where `ResidualDecode` stands (R160): its entry (R161), or the write and advance that ends each symbol (R167) (log
23). -/
inductive ResidualStage where
  | start
  | put
  deriving DecidableEq, Repr

/-- Where an escaped symbol stands (R164, R165): its selector bits, or the ROM entry it adds to the second symbol (log
23). -/
inductive EscapeStage where
  | select
  | lookup
  deriving DecidableEq, Repr

/-- Where `ApplyResidual` stands (R189): its entry, or its last step `AddResidual` (R188) (log 23). -/
inductive ApplyStage where
  | start
  | add
  deriving DecidableEq, Repr

/-- Which Huffman tree an `H(tree)` read walks (R144): a residual table, or a motion-mode tree by stream kind and block
size. -/
inductive TreeId where
  | res (t : Bool)
  | mv (stereo : Bool) (w h : Nat)
  deriving DecidableEq, Repr

/-! ## Instructions -/

/-- One constructor per row of spec/opcode_table.json. An element carries the value its bits encode, and the part of its
position its effect needs; an operation carries its operands. -/
inductive Instr where
  /-- `F(n)` (R122): `n` bits, unsigned value `v`. -/
  | readF (n : Nat) (v : BitVec 32)
  /-- `S(n)` (R123): `n` bits, sign-extended value `v`. -/
  | readS (n : Nat) (v : Word)
  /-- `B` (R124). -/
  | readB (v : Bool)
  /-- `G` (R125). -/
  | readG (g : Nat)
  /-- `UE` (R126). -/
  | readUE (u : Nat)
  /-- `SE` (R127). -/
  | readSE (d : Int)
  /-- `H(tree)` (R146). -/
  | readH (t : TreeId) (v : Nat)
  /-- `FTYPE` = `IFRAME_BIT` (R293). -/
  | ftypeI
  /-- `FTYPE` = the other value (R293). -/
  | ftypeP
  /-- `CSBIT` (R294). -/
  | csbit (c : Bool)
  /-- `VLCBIT` (R294). -/
  | vlcbit (t : Bool)
  /-- `QP6` (R294). -/
  | qp6 (q : BitVec 6)
  /-- `QPDELTA` (R296). -/
  | qpdelta (d : Int)
  /-- `SUBFLAG` (R295). -/
  | subflag (s : Bool)
  /-- `CBPIDX` (R232). -/
  | cbpidx (i : Nat)
  /-- `MODE3` (R233). -/
  | mode3 (m : BitVec 3)
  /-- `CMODE3` (R236). -/
  | cmode3 (m : BitVec 3)
  /-- `PARTFLAG` = 0 (R235) of the 8×8 block at `(x, y)` of plane `p`. -/
  | partflag8x8 (p : Plane) (x y : Nat) (m : BlockMode)
  /-- `PARTFLAG` = `f` > 0 (R235). -/
  | partflag4x4 (p : Plane) (x y : Nat) (m : BlockMode) (f : Nat)
  /-- `MPMBIT` = 1 (R203). -/
  | mpmTaken (b : Block)
  /-- `MPMBIT` = 0 and `REM3` = `r` (R203). -/
  | mpmRem (b : Block) (r : BitVec 3)
  /-- `DPDELTA` (R208). -/
  | dpdelta (d : Int)
  /-- Vertical (R205). -/
  | predV (b : Block)
  /-- Horizontal (R206). -/
  | predH (b : Block)
  /-- DeltaPlane (R208), after its `DPDELTA`. -/
  | predPlane (b : Block)
  /-- DC (R207). -/
  | predDC (b : Block)
  /-- HorizontalUp (R209). -/
  | predHU (b : Block)
  /-- HorizontalDown (R210). -/
  | predHD (b : Block)
  /-- VerticalRight (R211). -/
  | predVR (b : Block)
  /-- DiagonalDownRight (R213). -/
  | predDDR (b : Block)
  /-- VerticalLeft (R212). -/
  | predVL (b : Block)
  /-- The sentinel Nothing (R214). -/
  | predNone (b : Block)
  /-- The sentinel Predicted (R203). -/
  | predPredicted (b : Block)
  /-- `HSYM` with symbol `n` (R94, R162), other than the two codewords of R147. -/
  | hsym (n : BitVec 12)
  /-- `HSYM` in table 0, codeword `00000011`, symbol `0x000` (R147). -/
  | hsymT0x000
  /-- `HSYM` in table 0, codeword `0000011001`, symbol `0x802` (R147). -/
  | hsymT0x802
  /-- The direct form (R163) in a block of size `n`. -/
  | rsymDirect (n : TSize)
  /-- The amplitude escape (R164). -/
  | rsymAmpEsc (st : EscapeStage) (n : TSize)
  /-- The run escape (R165). -/
  | rsymRunEsc (st : EscapeStage) (n : TSize)
  /-- The raw escape (R166). -/
  | rsymRaw (n : TSize)
  /-- `SIGN` (R163). -/
  | sign (s : Bool)
  /-- `RAWEND` (R166). -/
  | rawend (e : Bool)
  /-- `RAWRUN` (R166). -/
  | rawrun (r : BitVec 6)
  /-- `RAWAMP` (R166). -/
  | rawamp (a : BitVec 12)
  /-- `MVMODE(w,h)` = `v` (R280, R256) for the rectangle `r`. -/
  | mvmode (r : Rect) (v : Nat)
  /-- Motion mode 0 (R252). -/
  | mvPred (r : Rect)
  /-- Motion mode 1 (R252), after its `MVDX`, `MVDY`. -/
  | mvDelta1 (r : Rect)
  /-- Motion mode 2 (R252). -/
  | mvDelta2 (r : Rect)
  /-- Motion mode 3 (R252). -/
  | mvDelta3 (r : Rect)
  /-- Motion mode 4 (R252). -/
  | mvDelta4 (r : Rect)
  /-- Motion mode 5 (R252). -/
  | mvDelta5 (r : Rect)
  /-- Motion mode 6 (R281; `UnsupportedMode` below macroblock level, R257). -/
  | mbIntra (r : Rect)
  /-- Motion mode 7 (R281). -/
  | mbIntraSub (r : Rect)
  /-- Motion mode 8 (R256). -/
  | mvSplitH (r : Rect)
  /-- Motion mode 9 (R256). -/
  | mvSplitW (r : Rect)
  /-- `MVDX` (R252). -/
  | mvdx (d : Int)
  /-- `MVDY` (R252). -/
  | mvdy (d : Int)
  /-- `DecodeFrame` (R290). -/
  | decodeFrame (st : FrameStage)
  /-- `RotateAndClear` (R292). -/
  | rotateAndClear
  /-- `SetQuantizer(q)` (R299). -/
  | setQuantizer (q : Word)
  /-- `DecodeIntraMB(s)` (R231). -/
  | decodeIntraMB (s : Bool)
  /-- `DecodeBlock8(p, x, y, m, c)` (R234). -/
  | decodeBlock8 (p : Plane) (x y : Nat) (m : BlockMode) (c : Bool)
  /-- `DecodeResidualMB` (R238). -/
  | decodeResidualMB
  /-- `DecodeInterMB` (R280). -/
  | decodeInterMB
  /-- `PredictMV` (R250). -/
  | predictMV
  /-- `CopyBlock(s, p, x, y, w, h, mv)` (R254). -/
  | copyBlock (k : Fin 6) (p : Plane) (r : Rect) (mv : MV)
  /-- `ResidualDecode(N)` (R160). -/
  | residualDecode (st : ResidualStage) (n : TSize)
  /-- `Dequantize(N)` (R180). -/
  | dequantize (n : TSize)
  /-- `InverseTransform(N)` (R181). -/
  | inverseTransform (n : TSize)
  /-- `ApplyResidual(p, x, y, N)` (R189). -/
  | applyResidual (st : ApplyStage) (p : Plane) (x y : Nat) (n : TSize)
  /-- `PredictBlock(p, x, y, N, m)` (R204). -/
  | predictBlock (b : Block) (m : BlockMode)
  deriving DecidableEq, Repr

/-! ## Positions of the decode procedure -/

/-- The read primitives with their operands (R90). -/
inductive ReadFmt where
  | f (n : Nat)
  | s (n : Nat)
  | b
  | g
  | ue
  | se
  | h (t : TreeId)
  deriving DecidableEq, Repr

/-- One position of the decode procedure (R22, R92): what the sequencer does next. An element position reads bits; a
code position (`predCode`, `mvValue`) dispatches on a value already read; `block8` takes its CBP bit from the mask just
read; `op` is an operation whose operands are known. -/
inductive Task where
  | read (f : ReadFmt)
  | ftype
  | csbit
  | vlcbit
  | qp6
  | qpdelta
  | subflag
  | cbpidx
  | mode3
  | cmode3
  | partflag (p : Plane) (x y : Nat) (m : BlockMode)
  | mpm (b : Block)
  | dpdelta
  | predCode (b : Block) (code : Nat)
  | hsym
  | form (n : TSize)
  | sign
  | rawend
  | rawrun
  | rawamp
  | mvmode (r : Rect)
  | mvValue (r : Rect) (v : Nat)
  | mvdx
  | mvdy
  | block8 (p : Plane) (x y : Nat) (m : BlockMode) (bit : Fin 6)
  | op (i : Instr)
  deriving DecidableEq, Repr

/-! ## The bit reader's registers -/

/-- The four error kinds of R310. -/
inductive ErrorKind where
  | endOfStream | formatError | unsupportedMode | invalidGeometry
  deriving DecidableEq, Repr

/-- The BitCursor (R21) bound to its byte range `IN` (R37): `ACC`, `NBITS`, `BYTEPOS`, `BITPOS`. -/
structure Cursor where
  input : List Byte
  acc : BitVec 64
  nbits : Nat
  bytepos : Nat
  bitpos : Nat
  deriving DecidableEq, Repr

/-- What a read operation ends in: a value and the advanced cursor, or an error and the cursor as the failing step left
it (R318: everything done before the `raise` has taken effect). -/
inductive ReadOut (α : Type) where
  | ok (v : α) (c : Cursor)
  | err (e : ErrorKind) (c : Cursor)
  deriving DecidableEq, Repr

/-- What decoding at a position needs of the machine besides the bits: the configuration, `VLCIDX`, the amplitude of the
symbol just read, and the coded-block-pattern mask just read. -/
structure DecodeCtx where
  cfg : Config
  vlc : Bool
  amp : Word
  cbp : BitVec 6
  deriving DecidableEq, Repr

/-- Why a position has no instruction at all: no tree for the block size (an illegal configuration, R257, 93 I16), or a
read width outside R122's contract. -/
inductive Reject where
  | noTree (w h : Nat)
  | badWidth (n : Nat)
  deriving DecidableEq, Repr

/-- What decoding at a position gives: an instruction; an error the reading or the dispatch raises, with the cursor as
it stands then; or a rejection by name. -/
inductive Decoded where
  | instr (i : Instr)
  | trap (e : ErrorKind) (c : Cursor)
  | rejected (r : Reject)
  deriving DecidableEq, Repr

end Sys2Proof
end

