-- ==== Sys2Proof/WellFormed.lean ====
section
/-! DEFINITION. The checks: which configurations satisfy rules R6 and R7 (`Config.wellFormed`), and which instruction
terms some position of the decode procedure can give (`Instr.wellFormed`): every operand at a value the encoding
admits. Both are Bool functions. -/

namespace Sys2Proof

/-! ## Trees -/

/-- The leaves of a tree as (codeword in stream order, value) (R140). -/
def HuffTree.leaves : HuffTree → List (List Bool × Nat)
  | .absent => []
  | .leaf v => [([], v)]
  | .node l r => (l.leaves.map fun p => (false :: p.1, p.2)) ++ r.leaves.map fun p => (true :: p.1, p.2)

/-- The largest bitCount of any leaf (R145). -/
def HuffTree.depth : HuffTree → Nat
  | .absent => 0
  | .leaf _ => 0
  | .node l r => 1 + max l.depth r.depth

/-- The root is an internal node (R140). -/
def HuffTree.isNode : HuffTree → Bool
  | .node _ _ => true
  | _ => false

/-- Every internal node leads to a leaf: the tree has no dead ends, the shape `insert` builds (R141). -/
def HuffTree.live : HuffTree → Bool
  | .absent => true
  | .leaf _ => true
  | .node .absent .absent => false
  | .node l r => l.live && r.live

/-- The ROM of one tree is one `insert` can build: the root is an internal node, no branch below it is a dead end, every
value is below `bound`, and `HUFF_MAX_DEPTH` is positive and at least the longest codeword (R140, R141, R145, R7). -/
def HuffRom.wellFormed (bound : Nat) (r : HuffRom) : Bool :=
  r.tree.isNode
    && (r.tree.live || r.tree == .node .absent .absent)
    && r.tree.leaves.all (fun p => p.2 < bound)
    && (match r.limit with
        | none => true
        | some d => decide (0 < d) && decide (r.tree.depth ≤ d))

/-! ## Configurations -/

/-- The codeword (`0x03`, 8) of R147 in stream order. -/
def printedCode000 : List Bool := [false, false, false, false, false, false, true, true]

/-- The codeword (`0x19`, 10) of R147 in stream order. -/
def printedCode802 : List Bool := [false, false, false, false, false, true, true, false, false, true]

/-- The dimensions a member of `MVSIZES` may have (R257). -/
def mvDimension (n : Nat) : Bool := n == 2 || n == 4 || n == 8 || n == 16

/-- The nine reconstruction modes (R200). -/
def allModes : List IntraMode :=
  [.vertical, .horizontal, .deltaPlane, .dc, .horizontalUp, .horizontalDown, .verticalRight, .diagonalDownRight,
    .verticalLeft]

/-- A legal configuration: the constraints of R6 and R7, `QP_MIN ≥ 12` and `QP_MAX ≤ 191` so that the shifts of R180 lie
in the range 0..31 of R8 (log 27). That `QP_MIN ≤ QP_MAX`, so that the legal range is not empty, is a DESIGN CHOICE (log
34). -/
def Config.wellFormed (c : Config) : Bool :=
  decide (0 < c.w) && c.w % 16 == 0 && decide (0 < c.h) && c.h % 16 == 0
    && decide (12 ≤ c.qpMin) && decide (c.qpMin ≤ c.qpMax) && decide (c.qpMax ≤ 191)
    && c.res0.huff.wellFormed 4096 && c.res1.huff.wellFormed 4096
    && c.res0.huff.tree.leaves.contains (printedCode000, 0x000)
    && c.res0.huff.tree.leaves.contains (printedCode802, 0x802)
    && c.qt4.toList.all (fun r => r.toList.all fun q => decide (0 < q))
    && c.qt8.toList.all (fun r => r.toList.all fun q => decide (0 < q))
    && (c.mvTree? 16 16).isSome
    && c.mvTrees.all (fun t => mvDimension t.w && mvDimension t.h && t.plain.wellFormed 10 && t.stereo.wellFormed 10)
    && decide (c.mvTrees.map fun t => (t.w, t.h)).Nodup
    && c.modeCode.length == 9 && decide c.modeCode.Nodup && allModes.all c.modeCode.contains
    && c.planePoints.all (fun p => p.top.length == p.size.n && p.left.length == p.size.n
        && p.out.length == p.size.n * p.size.n)
    && decide (c.planePoints.map fun p => (p.size, p.top, p.left, p.delta)).Nodup
    && decide c.zz4.toList.Nodup && decide c.zz8.toList.Nodup

/-! ## Instructions -/

/-- The tree a `TreeId` names, if the configuration has it (R144). -/
def DecodeCtx.rom (x : DecodeCtx) : TreeId → Option HuffRom
  | .res t => some (x.cfg.res t).huff
  | .mv stereo w h => (x.cfg.mvTree? w h).map fun t => if stereo then t.stereo else t.plain

/-- A value `UE` can give (R126): 0 .. 2^31 - 2. -/
def ueValue (u : Nat) : Bool := decide (u + 1 < 2 ^ 31)

/-- A value `SE` can give (R127): -(2^30 - 1) .. 2^30 - 1. -/
def seValue (d : Int) : Bool := decide (-(2 ^ 30 - 1) ≤ d) && decide (d ≤ 2 ^ 30 - 1)

/-- A value some leaf of the tree has. -/
def DecodeCtx.leafValue (x : DecodeCtx) (t : TreeId) (v : Nat) : Bool :=
  match x.rom t with
  | none => false
  | some r => r.tree.leaves.any fun p => p.2 == v

/-- Whether a codeword of the residual table in force is one of the two that R147 prints, with its value: those are rows
of their own. -/
def DecodeCtx.printed (x : DecodeCtx) (p : List Bool × Nat) : Bool :=
  !x.vlc && (p == (printedCode000, 0x000) || p == (printedCode802, 0x802))

/-- A symbol some leaf of the residual table in force has, other than the two printed ones. -/
def DecodeCtx.symbolValue (x : DecodeCtx) (n : BitVec 12) : Bool :=
  (x.cfg.res x.vlc).huff.tree.leaves.any fun p => decide (p.2 % 4096 = n.toNat) && !x.printed p

/-- A leaf the residual table in force has. -/
def DecodeCtx.hasLeaf (x : DecodeCtx) (p : List Bool × Nat) : Bool :=
  !x.vlc && x.cfg.res0.huff.tree.leaves.contains p

/-- Luma block of size 4 or 8: the only blocks whose mode is Predicted (R203, R236). -/
def Block.predictable (b : Block) : Bool := b.plane == .luma && b.size != .sixteen

/-- A block a reconstruction rule other than DeltaPlane is run on (R204). -/
def Block.small (b : Block) : Bool := b.size != .sixteen

/-- A rectangle with both dimensions in {16, 8, 4, 2} (R257). -/
def Rect.wellFormed (r : Rect) : Bool := mvDimension r.w && mvDimension r.h

/-- `MODE_CODE` has a code for the mode (R201). -/
def DecodeCtx.coded (x : DecodeCtx) (m : IntraMode) : Bool := x.cfg.modeCode.contains m

/-- The instruction terms some position can give. -/
def Instr.wellFormed (x : DecodeCtx) : Instr → Bool
  | .readF n v => decide (1 ≤ n) && decide (n ≤ 32) && decide (v.toNat < 2 ^ n)
  | .readS n v => decide (1 ≤ n) && decide (n ≤ 32) && (v.setWidth n).signExtend 32 == v
  | .readB _ => true
  | .readG g => decide (1 ≤ g) && decide (g < 2 ^ 31)
  | .readUE u => ueValue u
  | .readSE d => seValue d
  | .readH t v => x.leafValue t v
  | .ftypeI => true
  | .ftypeP => true
  | .csbit _ => true
  | .vlcbit _ => true
  | .qp6 _ => true
  | .qpdelta d => seValue d
  | .subflag _ => true
  | .cbpidx i => ueValue i
  | .mode3 _ => true
  | .cmode3 _ => true
  | .partflag8x8 p _ _ m => m != .predicted || p == .luma
  | .partflag4x4 p _ _ m f => (m != .predicted || p == .luma) && decide (1 ≤ f) && ueValue f
  | .mpmTaken b => b.predictable
  | .mpmRem b _ => b.predictable
  | .dpdelta d => seValue d
  | .predV b => b.small && x.coded .vertical
  | .predH b => b.small && x.coded .horizontal
  | .predPlane _ => x.coded .deltaPlane
  | .predDC b => b.small && x.coded .dc
  | .predHU b => b.small && x.coded .horizontalUp
  | .predHD b => b.small && x.coded .horizontalDown
  | .predVR b => b.small && x.coded .verticalRight
  | .predDDR b => b.small && x.coded .diagonalDownRight
  | .predVL b => b.small && x.coded .verticalLeft
  | .predNone b => b.small
  | .predPredicted b => b.predictable
  | .hsym n => x.symbolValue n
  | .hsymT0x000 => x.hasLeaf (printedCode000, 0x000)
  | .hsymT0x802 => x.hasLeaf (printedCode802, 0x802)
  | .rsymDirect _ => x.amp != 0
  | .rsymAmpEsc st _ => st == .lookup || x.amp == 0
  | .rsymRunEsc st _ => st == .lookup || x.amp == 0
  | .rsymRaw _ => x.amp == 0
  | .sign _ => true
  | .rawend _ => true
  | .rawrun _ => true
  | .rawamp _ => true
  | .mvmode r v => r.wellFormed && x.leafValue (.mv x.cfg.stereo r.w r.h) v
  | .mvPred r => r.wellFormed
  | .mvDelta1 r => r.wellFormed
  | .mvDelta2 r => r.wellFormed
  | .mvDelta3 r => r.wellFormed
  | .mvDelta4 r => r.wellFormed
  | .mvDelta5 r => r.wellFormed
  | .mbIntra r => r.wellFormed
  | .mbIntraSub r => r.wellFormed
  | .mvSplitH r => r.wellFormed
  | .mvSplitW r => r.wellFormed
  | .mvdx d => seValue d
  | .mvdy d => seValue d
  | .decodeFrame _ => true
  | .rotateAndClear => true
  | .setQuantizer q => decide (x.cfg.qpMin ≤ q.toInt) && decide (q.toInt ≤ x.cfg.qpMax)
  | .decodeIntraMB _ => true
  | .decodeBlock8 p _ _ m _ => m != .predicted || p == .luma
  | .decodeResidualMB => true
  | .decodeInterMB => true
  | .predictMV => true
  | .copyBlock k _ _ _ => k != 0
  | .residualDecode _ _ => true
  | .dequantize _ => true
  | .inverseTransform _ => true
  | .applyResidual _ _ _ _ _ => true
  | .predictBlock b m =>
    match m with
    | .predicted => b.predictable
    | .nothing => b.small
    | .explicit m => b.small || m == .deltaPlane

end Sys2Proof
end

