-- ==== Sys2Proof/Decode.lean ====
section
/-! DEFINITION. The bit reader (40_bitcursor.md), the Huffman trees' builders and decode walk (41_huffman.md), and the
decoder: which instruction the bits at `BITPOS` are, at a given position of the decode procedure (10_state.md rule R22).
After it the encoder: the bits of a well-formed instruction, written from 30_encoding.md rules R90 to R96; and the
host's reading of the opcode table's words. -/

namespace Sys2Proof

/-! ## Bit strings -/

/-- The `n`-bit numeral of `v`, most significant bit first (R9). -/
def bitsOf : Nat → Nat → List Bool
  | 0, _ => []
  | n + 1, v => v.testBit n :: bitsOf n v

/-- The number a bit string is the numeral of (R9). -/
def numeral (bs : List Bool) : Nat := bs.foldl (fun a b => 2 * a + b.toNat) 0

/-! ## The refill unit -/

/-- The value of a refill unit from its bytes in ascending address order (R68). -/
def unitValue (e : Endian) (bs : List Byte) : Nat :=
  match e with
  | .little => bs.foldr (fun b a => b.toNat + 256 * a) 0
  | .big => bs.foldl (fun a b => 256 * a + b.toNat) 0

/-- The cursor at the start of a call, bound to its byte range (R291). -/
def Cursor.start (input : List Byte) : Cursor := { input := input, acc := 0, nbits := 0, bytepos := 0, bitpos := 0 }

/-- `Refill` (R121). -/
def Cursor.refill (cfg : Config) (c : Cursor) : ReadOut Unit :=
  let k := cfg.blockBits.bytes
  if c.bytepos + k > c.input.length then .err .endOfStream c
  else
    let u := unitValue cfg.unitEndian ((c.input.drop c.bytepos).take k)
    .ok () { c with
      acc := (c.acc <<< cfg.blockBits.bits) ||| BitVec.ofNat 64 u
      nbits := c.nbits + cfg.blockBits.bits
      bytepos := c.bytepos + k }

/-- `while NBITS < n: Refill()` (R122). A refill adds at least 8 bits, so `n` rounds suffice for a read of `n` bits. -/
def Cursor.fill (cfg : Config) (n : Nat) : Nat → Cursor → ReadOut Unit
  | 0, c => .ok () c
  | rounds + 1, c =>
    if c.nbits < n then
      match c.refill cfg with
      | .err e c' => .err e c'
      | .ok _ c' => Cursor.fill cfg n rounds c'
    else .ok () c

/-! ## The six read operations -/

/-- `Read(n)` (R122): the `n` oldest buffered bits, unsigned. -/
def Cursor.read (cfg : Config) (n : Nat) (c : Cursor) : ReadOut Nat :=
  match c.fill cfg n n with
  | .err e c' => .err e c'
  | .ok _ c' =>
    .ok ((c'.acc.toNat >>> (c'.nbits - n)) % 2 ^ n)
      { c' with
        acc := BitVec.ofNat 64 (c'.acc.toNat % 2 ^ (c'.nbits - n))
        nbits := c'.nbits - n
        bitpos := c'.bitpos + n }

/-- `sext_n` of an `n`-bit unsigned number (R8). -/
def sext (n v : Nat) : Int := if v.testBit (n - 1) then (v : Int) - 2 ^ n else v

/-- `ReadSigned(n)` (R123). -/
def Cursor.readSigned (cfg : Config) (n : Nat) (c : Cursor) : ReadOut Int :=
  match c.read cfg n with
  | .err e c' => .err e c'
  | .ok v c' => .ok (sext n v) c'

/-- `ReadBool()` (R124). -/
def Cursor.readBool (cfg : Config) (c : Cursor) : ReadOut Bool :=
  match c.read cfg 1 with
  | .err e c' => .err e c'
  | .ok v c' => .ok (v == 1) c'

/-- The zero count of `ReadGamma` (R125): reads bits until a 1, raising `FormatError` once 31 zeros have been read. The
first argument is how many more bits may be read, the second the zeros counted so far. -/
def Cursor.gammaZeros (cfg : Config) : Nat → Nat → Cursor → ReadOut Nat
  | 0, _, c => .err .formatError c
  | more + 1, k, c =>
    match c.readBool cfg with
    | .err e c' => .err e c'
    | .ok true c' => .ok k c'
    | .ok false c' => Cursor.gammaZeros cfg more (k + 1) c'

/-- `ReadGamma()` (R125). -/
def Cursor.readGamma (cfg : Config) (c : Cursor) : ReadOut Nat :=
  match c.gammaZeros cfg 31 0 with
  | .err e c' => .err e c'
  | .ok 0 c' => .ok 1 c'
  | .ok (k + 1) c' =>
    match c'.read cfg (k + 1) with
    | .err e c'' => .err e c''
    | .ok v c'' => .ok (2 ^ (k + 1) + v) c''

/-- `ReadUE()` (R126). -/
def Cursor.readUE (cfg : Config) (c : Cursor) : ReadOut Nat :=
  match c.readGamma cfg with
  | .err e c' => .err e c'
  | .ok g c' => .ok (g - 1) c'

/-- The map of R127 from the code number `u` to the signed value. -/
def seOfUE (u : Nat) : Int := if u % 2 = 0 then -((u / 2 : Nat) : Int) else ((u / 2 : Nat) : Int) + 1

/-- `ReadSE()` (R127). -/
def Cursor.readSE (cfg : Config) (c : Cursor) : ReadOut Int :=
  match c.readUE cfg with
  | .err e c' => .err e c'
  | .ok u c' => .ok (seOfUE u) c'

/-! ## Huffman trees -/

/-- The walk of `HuffDecode` (R146) from a node at depth `d`: an absent child raises `FormatError`, a leaf gives its value,
an internal node at the depth limit raises before the next bit is read. -/
def Cursor.walk (cfg : Config) (limit : Option Nat) : HuffTree → Nat → Cursor → ReadOut Nat
  | .absent, _, c => .err .formatError c
  | .leaf v, _, c => .ok v c
  | .node l r, d, c =>
    if limit = some d then .err .formatError c
    else
      match c.readBool cfg with
      | .err e c' => .err e c'
      | .ok false c' => Cursor.walk cfg limit l (d + 1) c'
      | .ok true c' => Cursor.walk cfg limit r (d + 1) c'

/-- `HuffDecode(T)` (R146). -/
def Cursor.huff (cfg : Config) (r : HuffRom) (c : Cursor) : ReadOut Nat := c.walk cfg r.limit r.tree 0

/-- `n` one-bit reads, the reads of a codeword of `n` bits (R146). -/
def Cursor.skipBits (cfg : Config) : Nat → Cursor → ReadOut Unit
  | 0, c => .ok () c
  | n + 1, c =>
    match c.readBool cfg with
    | .err e c' => .err e c'
    | .ok _ c' => Cursor.skipBits cfg n c'

/-- The empty tree: a root with both children absent (R140). -/
def HuffTree.empty : HuffTree := .node .absent .absent

/-- `insert` (R141) of the codeword `bs`; `none` where it fails. -/
def HuffTree.insert : HuffTree → List Bool → Nat → Option HuffTree
  | .absent, [], v => some (.leaf v)
  | .absent, false :: bs, v => (HuffTree.insert .absent bs v).map fun l => .node l .absent
  | .absent, true :: bs, v => (HuffTree.insert .absent bs v).map fun r => .node .absent r
  | .leaf _, _, _ => none
  | .node _ _, [], _ => none
  | .node l r, false :: bs, v => (l.insert bs v).map fun l' => .node l' r
  | .node l r, true :: bs, v => (r.insert bs v).map fun r' => .node l r'

/-- A tree from its leaf set, each `insert`ed in turn. -/
def HuffTree.ofLeaves (ls : List (List Bool × Nat)) : Option HuffTree :=
  ls.foldl (fun t p => t.bind fun t => t.insert p.1 p.2) (some HuffTree.empty)

/-- Builder (a) (R142), on an unpacked dump table of (bitCount, value) slots, as far as the spec records it. -/
def HuffTree.buildA (dump : List (Nat × Nat)) (maxDepth zeroCode zeroBits : Nat) : Option HuffTree :=
  let rows := dump.zipIdx.filterMap fun p =>
    let (b, v) := p.1
    if b = 1 ∨ p.2 % 2 ^ (maxDepth - b) ≠ 0 then none else some (bitsOf b (p.2 / 2 ^ (maxDepth - b)), v)
  (HuffTree.ofLeaves rows).bind fun t => t.insert (bitsOf zeroBits zeroCode) 0

/-- Builder (b) (R143). -/
def HuffTree.buildB (symbols : List Nat) (bitCounts : Nat → Nat) (maxBits : Nat) : Option HuffTree :=
  HuffTree.ofLeaves <| symbols.zipIdx.filterMap fun p =>
    let n := bitCounts p.1
    if p.2 % 2 ^ (maxBits - n) ≠ 0 then none else some (bitsOf n (p.2 / 2 ^ (maxBits - n)), p.1)

/-! ## The decoder -/

/-- What a read gives the decoder: the instruction its value makes, or the error. -/
def ReadOut.decoded {α : Type} (r : ReadOut α) (f : α → Instr) : Decoded :=
  match r with
  | .ok v _ => .instr (f v)
  | .err e c => .trap e c

/-- A read primitive (R90). -/
def decodePrimitive (x : DecodeCtx) (c : Cursor) : ReadFmt → Decoded
  | .f n =>
    if n = 0 ∨ 32 < n then .rejected (.badWidth n)
    else (c.read x.cfg n).decoded fun v => .readF n (BitVec.ofNat 32 v)
  | .s n =>
    if n = 0 ∨ 32 < n then .rejected (.badWidth n)
    else (c.readSigned x.cfg n).decoded fun v => .readS n (BitVec.ofInt 32 v)
  | .b => (c.readBool x.cfg).decoded .readB
  | .g => (c.readGamma x.cfg).decoded .readG
  | .ue => (c.readUE x.cfg).decoded .readUE
  | .se => (c.readSE x.cfg).decoded .readSE
  | .h t =>
    match x.rom t with
    | some r => (c.huff x.cfg r).decoded (.readH t)
    | none =>
      match t with
      | .res _ => .rejected (.noTree 0 0)
      | .mv _ w h => .rejected (.noTree w h)

/-- `PARTFLAG` (R235): 0 is the row PARTFLAG_8x8, every other value the row PARTFLAG_4x4. -/
def partflagInstr (p : Plane) (x y : Nat) (m : BlockMode) : Nat → Instr
  | 0 => .partflag8x8 p x y m
  | f + 1 => .partflag4x4 p x y m (f + 1)

/-- `MPMBIT` and, when it is 0, `REM3` (R203). -/
def decodeMpm (x : DecodeCtx) (c : Cursor) (b : Block) : Decoded :=
  match c.readBool x.cfg with
  | .err e c' => .trap e c'
  | .ok true _ => .instr (.mpmTaken b)
  | .ok false c' => (c'.read x.cfg 3).decoded fun r => .mpmRem b (BitVec.ofNat 3 r)

/-- The instruction of a reconstruction mode (R201). -/
def predInstr (b : Block) : IntraMode → Instr
  | .vertical => .predV b
  | .horizontal => .predH b
  | .deltaPlane => .predPlane b
  | .dc => .predDC b
  | .horizontalUp => .predHU b
  | .horizontalDown => .predHD b
  | .verticalRight => .predVR b
  | .diagonalDownRight => .predDDR b
  | .verticalLeft => .predVL b

/-- Dispatch on a mode code (R204): a code that `MODE_CODE` maps to no mode raises `UnsupportedMode`. -/
def decodePredCode (x : DecodeCtx) (c : Cursor) (b : Block) (code : Nat) : Decoded :=
  match x.cfg.modeCode[code]? with
  | some m => .instr (predInstr b m)
  | none => .trap .unsupportedMode c

/-- The value of the leaf with codeword `bs`, if the tree has one. -/
def HuffTree.valueAt : HuffTree → List Bool → Option Nat
  | .leaf v, [] => some v
  | .node l _, false :: bs => l.valueAt bs
  | .node _ r, true :: bs => r.valueAt bs
  | _, _ => none

/-- The bits at the cursor begin with the codeword `bs`. -/
def Cursor.startsWith (cfg : Config) (c : Cursor) (bs : List Bool) : Bool :=
  match c.read cfg bs.length with
  | .ok v _ => v == numeral bs
  | .err _ _ => false

/-- The bits at the cursor are a codeword R147 prints, and table 0 is in force and has that leaf. -/
def Cursor.atPrinted (x : DecodeCtx) (c : Cursor) (bs : List Bool) (v : Nat) : Bool :=
  !x.vlc && (x.cfg.res0.huff.tree.valueAt bs == some v) && c.startsWith x.cfg bs

/-- `HSYM` (R162): the two codewords R147 prints are rows of their own. -/
def decodeHsym (x : DecodeCtx) (c : Cursor) : Decoded :=
  if c.atPrinted x printedCode000 0x000 then .instr .hsymT0x000
  else if c.atPrinted x printedCode802 0x802 then .instr .hsymT0x802
  else (c.huff x.cfg (x.cfg.res x.vlc).huff).decoded fun v => .hsym (BitVec.ofNat 12 v)

/-- Which form a residual symbol has (R163 to R166): the direct form when its amplitude is not 0, else the escape its
selector bits name: `1` amplitude, `01` run, `00` raw. -/
def decodeForm (x : DecodeCtx) (c : Cursor) (n : TSize) : Decoded :=
  if x.amp ≠ 0 then .instr (.rsymDirect n)
  else
    match c.readBool x.cfg with
    | .err e c' => .trap e c'
    | .ok true _ => .instr (.rsymAmpEsc .select n)
    | .ok false c' => (c'.readBool x.cfg).decoded fun b => if b then .rsymRunEsc .select n else .rsymRaw n

/-- `MVMODE(w,h)` (R280, R256): read with the tree of the rectangle's own size. -/
def decodeMvmode (x : DecodeCtx) (c : Cursor) (r : Rect) : Decoded :=
  match x.rom (.mv x.cfg.stereo r.w r.h) with
  | some t => (c.huff x.cfg t).decoded (.mvmode r)
  | none => .rejected (.noTree r.w r.h)

/-- The macroblock's own rectangle size; every rectangle below macroblock level is smaller (R256). -/
def Rect.isMacroblock (r : Rect) : Bool := r.w == 16 && r.h == 16

/-- Dispatch on a motion mode value (R96, R256): a value above 9 raises `UnsupportedMode`. -/
def decodeMvValue (c : Cursor) (r : Rect) (v : Nat) : Decoded :=
  match v with
  | 0 => .instr (.mvPred r)
  | 1 => .instr (.mvDelta1 r)
  | 2 => .instr (.mvDelta2 r)
  | 3 => .instr (.mvDelta3 r)
  | 4 => .instr (.mvDelta4 r)
  | 5 => .instr (.mvDelta5 r)
  | 6 => .instr (.mbIntra r)
  | 7 => .instr (.mbIntraSub r)
  | 8 => .instr (.mvSplitH r)
  | 9 => .instr (.mvSplitW r)
  | _ => .trap .unsupportedMode c

/-- The instruction at a position of the decode procedure: what the bits at `BITPOS` are there (R22, R92, R93). -/
def decode (x : DecodeCtx) (c : Cursor) : Task → Decoded
  | .read f => decodePrimitive x c f
  | .ftype => (c.readBool x.cfg).decoded fun b => if b = x.cfg.iframeBit then .ftypeI else .ftypeP
  | .csbit => (c.readBool x.cfg).decoded .csbit
  | .vlcbit => (c.readBool x.cfg).decoded .vlcbit
  | .qp6 => (c.read x.cfg 6).decoded fun q => .qp6 (BitVec.ofNat 6 q)
  | .qpdelta => (c.readSE x.cfg).decoded .qpdelta
  | .subflag => (c.readBool x.cfg).decoded .subflag
  | .cbpidx => (c.readUE x.cfg).decoded .cbpidx
  | .mode3 => (c.read x.cfg 3).decoded fun m => .mode3 (BitVec.ofNat 3 m)
  | .cmode3 => (c.read x.cfg 3).decoded fun m => .cmode3 (BitVec.ofNat 3 m)
  | .partflag p px py m => (c.readUE x.cfg).decoded (partflagInstr p px py m)
  | .mpm b => decodeMpm x c b
  | .dpdelta => (c.readSE x.cfg).decoded .dpdelta
  | .predCode b code => decodePredCode x c b code
  | .hsym => decodeHsym x c
  | .form n => decodeForm x c n
  | .sign => (c.readBool x.cfg).decoded .sign
  | .rawend => (c.readBool x.cfg).decoded .rawend
  | .rawrun => (c.read x.cfg 6).decoded fun r => .rawrun (BitVec.ofNat 6 r)
  | .rawamp => (c.readSigned x.cfg 12).decoded fun a => .rawamp (BitVec.ofInt 12 a)
  | .mvmode r => decodeMvmode x c r
  | .mvValue r v => decodeMvValue c r v
  | .mvdx => (c.readSE x.cfg).decoded .mvdx
  | .mvdy => (c.readSE x.cfg).decoded .mvdy
  | .block8 p px py m bit => .instr (.decodeBlock8 p px py m (x.cbp.getLsbD bit))
  | .op i => .instr i

/-! ## The encoder -/

/-- The code of the value `g ≥ 1` of format `G` (R90): `k` zeros, a 1 and the `k` low bits of `g`, where `2^k ≤ g <
2^(k+1)`; the 1 and those bits are the `k+1`-bit numeral of `g`. -/
def gammaBits (g : Nat) : List Bool := List.replicate g.log2 false ++ bitsOf (g.log2 + 1) g

/-- The code of `u` in format `UE` (R90). -/
def ueBits (u : Nat) : List Bool := gammaBits (u + 1)

/-- The code number of a signed value: the inverse of R127's map `0,1,2,3,4 → 0,1,-1,2,-2`. -/
def ueOfSE (d : Int) : Nat := if d ≤ 0 then 2 * d.natAbs else 2 * d.natAbs - 1

/-- The code of `d` in format `SE` (R90). -/
def seBits (d : Int) : List Bool := ueBits (ueOfSE d)

/-- The codeword of the first leaf of the tree with the value `v` that `keep` admits. -/
def HuffTree.codeOf (t : HuffTree) (keep : List Bool × Nat → Bool) : List Bool :=
  match t.leaves.find? keep with
  | some p => p.1
  | none => []

/-- The codeword of `v` in the tree `t` names. -/
def DecodeCtx.codeword (x : DecodeCtx) (t : TreeId) (v : Nat) : List Bool :=
  match x.rom t with
  | some r => r.tree.codeOf fun p => p.2 == v
  | none => []

/-- The bits of an instruction in stream order (R90, R93, R94); an operation and a code value have none of their own. -/
def encode (x : DecodeCtx) : Instr → List Bool
  | .readF n v => bitsOf n v.toNat
  | .readS n v => bitsOf n v.toNat
  | .readB v => [v]
  | .readG g => gammaBits g
  | .readUE u => ueBits u
  | .readSE d => seBits d
  | .readH t v => x.codeword t v
  | .ftypeI => [x.cfg.iframeBit]
  | .ftypeP => [!x.cfg.iframeBit]
  | .csbit c => [c]
  | .vlcbit t => [t]
  | .qp6 q => bitsOf 6 q.toNat
  | .qpdelta d => seBits d
  | .subflag s => [s]
  | .cbpidx i => ueBits i
  | .mode3 m => bitsOf 3 m.toNat
  | .cmode3 m => bitsOf 3 m.toNat
  | .partflag8x8 _ _ _ _ => ueBits 0
  | .partflag4x4 _ _ _ _ f => ueBits f
  | .mpmTaken _ => [true]
  | .mpmRem _ r => false :: bitsOf 3 r.toNat
  | .dpdelta d => seBits d
  | .predV _ => []
  | .predH _ => []
  | .predPlane _ => []
  | .predDC _ => []
  | .predHU _ => []
  | .predHD _ => []
  | .predVR _ => []
  | .predDDR _ => []
  | .predVL _ => []
  | .predNone _ => []
  | .predPredicted _ => []
  | .hsym n =>
    (x.cfg.res x.vlc).huff.tree.codeOf fun p => decide (p.2 % 4096 = n.toNat) && !x.printed p
  | .hsymT0x000 => printedCode000
  | .hsymT0x802 => printedCode802
  | .rsymDirect _ => []
  | .rsymAmpEsc .select _ => [true]
  | .rsymAmpEsc .lookup _ => []
  | .rsymRunEsc .select _ => [false, true]
  | .rsymRunEsc .lookup _ => []
  | .rsymRaw _ => [false, false]
  | .sign s => [s]
  | .rawend e => [e]
  | .rawrun r => bitsOf 6 r.toNat
  | .rawamp a => bitsOf 12 a.toNat
  | .mvmode r v => x.codeword (.mv x.cfg.stereo r.w r.h) v
  | .mvPred _ => []
  | .mvDelta1 _ => []
  | .mvDelta2 _ => []
  | .mvDelta3 _ => []
  | .mvDelta4 _ => []
  | .mvDelta5 _ => []
  | .mbIntra _ => []
  | .mbIntraSub _ => []
  | .mvSplitH _ => []
  | .mvSplitW _ => []
  | .mvdx d => seBits d
  | .mvdy d => seBits d
  | .decodeFrame _ => []
  | .rotateAndClear => []
  | .setQuantizer _ => []
  | .decodeIntraMB _ => []
  | .decodeBlock8 _ _ _ _ _ => []
  | .decodeResidualMB => []
  | .decodeInterMB => []
  | .predictMV => []
  | .copyBlock _ _ _ _ => []
  | .residualDecode _ _ => []
  | .dequantize _ => []
  | .inverseTransform _ => []
  | .applyResidual _ _ _ _ _ => []
  | .predictBlock _ _ => []

/-- The code `MODE_CODE(m)` (R201): the position of `m` in the table, or its length when the table lacks it. -/
def Config.codeOf (c : Config) (m : IntraMode) : Nat := c.modeCode.idxOf m

/-- The position of the decode procedure at which an instruction is read or dispatched. -/
def Instr.task (x : DecodeCtx) (i : Instr) : Task :=
  match i with
  | .readF n _ => .read (.f n)
  | .readS n _ => .read (.s n)
  | .readB _ => .read .b
  | .readG _ => .read .g
  | .readUE _ => .read .ue
  | .readSE _ => .read .se
  | .readH t _ => .read (.h t)
  | .ftypeI => .ftype
  | .ftypeP => .ftype
  | .csbit _ => .csbit
  | .vlcbit _ => .vlcbit
  | .qp6 _ => .qp6
  | .qpdelta _ => .qpdelta
  | .subflag _ => .subflag
  | .cbpidx _ => .cbpidx
  | .mode3 _ => .mode3
  | .cmode3 _ => .cmode3
  | .partflag8x8 p px py m => .partflag p px py m
  | .partflag4x4 p px py m _ => .partflag p px py m
  | .mpmTaken b => .mpm b
  | .mpmRem b _ => .mpm b
  | .dpdelta _ => .dpdelta
  | .predV b => .predCode b (x.cfg.codeOf .vertical)
  | .predH b => .predCode b (x.cfg.codeOf .horizontal)
  | .predPlane b => .predCode b (x.cfg.codeOf .deltaPlane)
  | .predDC b => .predCode b (x.cfg.codeOf .dc)
  | .predHU b => .predCode b (x.cfg.codeOf .horizontalUp)
  | .predHD b => .predCode b (x.cfg.codeOf .horizontalDown)
  | .predVR b => .predCode b (x.cfg.codeOf .verticalRight)
  | .predDDR b => .predCode b (x.cfg.codeOf .diagonalDownRight)
  | .predVL b => .predCode b (x.cfg.codeOf .verticalLeft)
  | .hsym _ => .hsym
  | .hsymT0x000 => .hsym
  | .hsymT0x802 => .hsym
  | .rsymDirect n => .form n
  | .rsymAmpEsc .select n => .form n
  | .rsymRunEsc .select n => .form n
  | .rsymRaw n => .form n
  | .sign _ => .sign
  | .rawend _ => .rawend
  | .rawrun _ => .rawrun
  | .rawamp _ => .rawamp
  | .mvmode r _ => .mvmode r
  | .mvPred r => .mvValue r 0
  | .mvDelta1 r => .mvValue r 1
  | .mvDelta2 r => .mvValue r 2
  | .mvDelta3 r => .mvValue r 3
  | .mvDelta4 r => .mvValue r 4
  | .mvDelta5 r => .mvValue r 5
  | .mbIntra r => .mvValue r 6
  | .mbIntraSub r => .mvValue r 7
  | .mvSplitH r => .mvValue r 8
  | .mvSplitW r => .mvValue r 9
  | .mvdx _ => .mvdx
  | .mvdy _ => .mvdy
  | .predNone b => .op (.predNone b)
  | .predPredicted b => .op (.predPredicted b)
  | .rsymAmpEsc .lookup n => .op (.rsymAmpEsc .lookup n)
  | .rsymRunEsc .lookup n => .op (.rsymRunEsc .lookup n)
  | .decodeFrame st => .op (.decodeFrame st)
  | .rotateAndClear => .op .rotateAndClear
  | .setQuantizer q => .op (.setQuantizer q)
  | .decodeIntraMB s => .op (.decodeIntraMB s)
  | .decodeBlock8 p px py m c => .op (.decodeBlock8 p px py m c)
  | .decodeResidualMB => .op .decodeResidualMB
  | .decodeInterMB => .op .decodeInterMB
  | .predictMV => .op .predictMV
  | .copyBlock k p r mv => .op (.copyBlock k p r mv)
  | .residualDecode st n => .op (.residualDecode st n)
  | .dequantize n => .op (.dequantize n)
  | .inverseTransform n => .op (.inverseTransform n)
  | .applyResidual st p px py n => .op (.applyResidual st p px py n)
  | .predictBlock b m => .op (.predictBlock b m)

/-! ## Packing bits into `IN` -/

/-- The bytes of one refill unit whose bits, most significant first, are the numeral of `u` (R68). -/
def unitBytes (e : Endian) (k u : Nat) : List Byte :=
  let le := (List.range k).map fun i => BitVec.ofNat 8 (u / 256 ^ i)
  match e with
  | .little => le
  | .big => le.reverse

/-- `IN` for a bit string (R101): padded with 0 bits to whole refill units, each packed by R68. The first argument bounds
the number of units. -/
def packUnits (cfg : Config) : Nat → List Bool → List Byte
  | 0, _ => []
  | more + 1, bs =>
    if bs.isEmpty then []
    else
      let n := cfg.blockBits.bits
      let first := bs.take n
      unitBytes cfg.unitEndian cfg.blockBits.bytes (numeral (first ++ List.replicate (n - first.length) false))
        ++ packUnits cfg more (bs.drop n)

/-- `IN` for a bit string (R101). -/
def pack (cfg : Config) (bs : List Bool) : List Byte := packUnits cfg bs.length bs

/-! ## The host's words

A word of spec/opcode_table.json carries neither its width nor its position in the grammar, and the same word names
several rows (1 is FTYPE_I, PARTFLAG_8x8, MPM_TAKEN and PRED_H). `tablePosition` reads it at the one position where a
word of that value fits first (log 10). -/

/-- The position a table word is read at, and the number of its bits: three bytes are the 21 bits after the first HSYM of a
raw escape; two bytes are a 10-bit codeword of residual table 0; in one byte a value below 2 is FTYPE, below 8 a mode
code (no bits of its own), below 64 QP6. -/
def tablePosition (nbits w : Nat) : Option (Task × Nat) :=
  if nbits = 24 then if w < 2 ^ 21 then some (.form .four, 21) else none
  else if nbits = 16 then if w < 2 ^ 10 then some (.hsym, 10) else none
  else if nbits = 8 then
    if w < 2 then some (.ftype, 1)
    else if w < 8 then some (.predCode { plane := .luma, x := 16, y := 16, size := .eight } w, 0)
    else if w < 64 then some (.qp6, 6)
    else none
  else none

/-- What decoding a table word needs besides its bits: the configuration of reset, table 0, a symbol of amplitude 0. -/
def tableCtx (cfg : Config) : DecodeCtx := { cfg := cfg, vlc := false, amp := 0, cbp := 0 }

/-- The byte range that holds a table word: its numeral, first stream bit most significant, and zeros after it. -/
def tableInput (cfg : Config) (width w : Nat) : List Byte := pack cfg (bitsOf width w ++ List.replicate 32 false)

/-- The instruction the decoder reads from a word of spec/opcode_table.json. -/
def decodeTableWord (nbits w : Nat) : Option Instr :=
  match tablePosition nbits w with
  | none => none
  | some (t, width) =>
    match decode (tableCtx Config.constructed) (Cursor.start (tableInput Config.constructed width w)) t with
    | .instr i => some i
    | .trap _ _ => none
    | .rejected _ => none

end Sys2Proof
end

