-- ==== Sys2Proof/Machine/State.lean ====
section
/-! DEFINITION. The state of the machine as plain data: every item of 10_state.md rule R20, the configuration (R30), and
the model's own fields (the sequencer's position and the locals of the pseudocode, log 2 and 3); how a step can stop;
and the state after reset (R40, R340). -/

namespace Sys2Proof.Machine

/-! ## How a step can stop -/

/-- The model's own faults. The four error kinds of R310 are none of these: they are exceptions the machine TAKES, each a
next state. -/
inductive Fault where
  /-- Raised by the step when a call is in progress and the agenda is empty: no rule says how such a call goes on. No run
  reaches it (log 28). Safe. -/
  | lostSequence
  deriving DecidableEq, Repr

/-- What the model refuses. -/
inductive Refusal where
  /-- Raised by an arm of `exec` whose instruction has no meaning yet. Safe. -/
  | notModelled (mnemonic : String)
  /-- Raised where `MVMODE` is to be read for a size with no tree: 93_implementation_defined.md I16 refuses such a
  configuration (log 13). Safe. -/
  | illegalConfiguration
  /-- Raised by a read primitive whose width is outside 1..32, which R122 puts outside the contract, and by a term that no
  position of the decode procedure gives: the row `PARTFLAG` > 0 with the value 0 (log 14). Safe. -/
  | illFormed
  /-- Raised by `DecodeFrame` while a call is in progress: R347 and 93_implementation_defined.md I8 put a re-entrant call
  outside the spec (log 12). Safe. -/
  | reentrantCall
  deriving DecidableEq, Repr

/-! ## Registers -/

/-- `PHASE` (R28). -/
inductive Phase where
  | awaitFrame | readFrameTypeBit | decodeIFrame | decodePFrame | done
  deriving DecidableEq, Repr

/-- The colour space of `CS` and `TAG` (R25, R35): 0 = YCoCg, 1 = YCbCr. -/
inductive ColourSpace where
  | yCoCg | yCbCr
  deriving DecidableEq, Repr

/-- What `raise` records in `ERR` (R311): the kind, its code, `BITPOS` and `MBI`. -/
structure ErrRecord where
  kind : ErrorKind
  code : Nat
  bitpos : Nat
  mbi : Nat
  deriving DecidableEq, Repr

/-! ## The frame ring -/

/-- The bytes of one frame buffer in canonical form (`Memory.wf`): addresses strictly rising, no entry equal to what an
unlisted address reads as. -/
structure Memory where
  cells : List Host.Cell
  deriving DecidableEq, Repr

/-- One frame buffer (R35): which of the six allocated buffers it is, whether it has been cleared since reset (R342), its
bytes, and its colour-space tag. -/
structure FrameBuf where
  buf : Nat
  cleared : Bool
  mem : Memory
  tag : ColourSpace
  deriving DecidableEq, Repr

/-- `RING[0..5]` with `TAG[0..5]` (R35), by logical position. -/
structure Ring where
  f0 : FrameBuf
  f1 : FrameBuf
  f2 : FrameBuf
  f3 : FrameBuf
  f4 : FrameBuf
  f5 : FrameBuf
  deriving DecidableEq, Repr

/-! ## The state -/

/-- The whole state. -/
structure State where
  /-- The configuration, fixed at construction (R30). -/
  cfg : Config
  /-- `ACC`, `NBITS`, `BYTEPOS`, `BITPOS` and `IN` (R21, R37). -/
  cursor : Cursor
  /-- `MBI` (R23). -/
  mbi : Nat
  /-- `QP` (R24). -/
  qp : Word
  /-- `CS` (R25). -/
  cs : ColourSpace
  /-- `VLCIDX` (R25). -/
  vlcidx : Bool
  /-- `HDRVALID` (R26). -/
  hdrvalid : Bool
  /-- `QIDX` (R27). -/
  qidx : Fin 6
  /-- `QSH4` (R27). -/
  qsh4 : Word
  /-- `QSH8` (R27). -/
  qsh8 : Word
  /-- `PHASE` (R28). -/
  phase : Phase
  /-- `ERR` (R29). -/
  err : Option ErrRecord
  /-- `PRE[0..15]` (R31): `none` is NONE. -/
  pre : Vector (Option Nat) 16
  /-- `MVC[0..MBW+1]` (R32). -/
  mvc : List MV
  /-- `PMV` (R33). -/
  pmv : MV
  /-- `MAT[0..63]` (R34). -/
  mat : Vector Word 64
  /-- `RING[0..5]`, `TAG[0..5]` (R35). -/
  ring : Ring
  /-- The model's own: byte ranges the caller has submitted and no call has begun (log 9). -/
  calls : List (List Byte)
  /-- The model's own: the sequencer's position in the decode procedure, next task first (R22, log 2). -/
  agenda : List Task
  /-- The model's own: the last call returned slot 0 to the caller (R76, log 24). -/
  handed : Bool
  /-- The model's own: the value a read primitive returned (log 31). -/
  val : Int
  /-- The model's own: the local `cs` of R294 (log 3). -/
  hdrCs : ColourSpace
  /-- The model's own: the local `vi` of R294 (log 3). -/
  hdrVlc : Bool
  /-- The model's own: the local `cbp` of R231 and R238 (log 3). -/
  cbpMask : BitVec 6
  /-- The model's own: the local `delta` of R208 (log 3). -/
  planeDelta : Word
  /-- The model's own: the local `dx` of R252 (log 3). -/
  mvdx : Word
  /-- The model's own: the local `dy` of R252 (log 3). -/
  mvdy : Word
  /-- The model's own: the local `end` of R160 (log 3). -/
  symEnd : Bool
  /-- The model's own: the local `run` of R160 (log 3). -/
  symRun : Word
  /-- The model's own: the local `amp` of R160 (log 3). -/
  symAmp : Word
  /-- The model's own: the local `pos` of R160 (log 3). -/
  zpos : Word
  deriving DecidableEq, Repr

/-- What a step and a meaning answer. -/
abbrev Step := Host.Outcome State Fault Refusal

/-! ## Reset -/

/-- A frame buffer as construction allocates it (R342): never cleared, nothing written. The tag is unwritten (R40); its
value here is a DESIGN CHOICE (log 7). -/
def FrameBuf.allocated (k : Nat) : FrameBuf := { buf := k, cleared := false, mem := { cells := [] }, tag := .yCoCg }

/-- The ring as construction allocates it: buffer `k` in slot `k` (R35). -/
def Ring.allocated : Ring where
  f0 := FrameBuf.allocated 0
  f1 := FrameBuf.allocated 1
  f2 := FrameBuf.allocated 2
  f3 := FrameBuf.allocated 3
  f4 := FrameBuf.allocated 4
  f5 := FrameBuf.allocated 5

/-- Reset (R340) of an instance with the configuration `cfg`: the table of R40, every unwritten register at the value log
7 names. `IN` and `INLEN` are `none` there; the empty byte range, `INLEN` = 0, that the cursor holds in their place is a
DESIGN CHOICE (log 7). -/
def State.resetWith (cfg : Config) : State where
  cfg := cfg
  cursor := Cursor.start []
  mbi := 0
  qp := 0
  cs := .yCoCg
  vlcidx := false
  hdrvalid := false
  qidx := 0
  qsh4 := 0
  qsh8 := 0
  phase := .awaitFrame
  err := none
  pre := Vector.replicate 16 none
  mvc := List.replicate (cfg.mbw + 2) { x := 0, y := 0 }
  pmv := { x := 0, y := 0 }
  mat := Vector.replicate 64 0
  ring := Ring.allocated
  calls := []
  agenda := []
  handed := false
  val := 0
  hdrCs := .yCoCg
  hdrVlc := false
  cbpMask := 0
  planeDelta := 0
  mvdx := 0
  mvdy := 0
  symEnd := false
  symRun := 0
  symAmp := 0
  zpos := 0

/-- The machine right after reset, with the configuration of log 4 and 5. -/
def State.reset : State := State.resetWith Config.constructed

end Sys2Proof.Machine
end

