-- ==== Sys2Proof/Machine/Ops.lean ====
section
/-! DEFINITION. The named operations over memory and registers: the bytes of a frame buffer, pixels, taking an exception
(`raise`), reading the bitstream, scheduling. -/

namespace Sys2Proof.Machine

/-! ## Bytes of a frame buffer

`blank` is what an address that is not listed reads as. -/

/-- The byte at address `a`. -/
def cellsRead (blank : Nat → Byte) : List Host.Cell → Nat → Byte
  | [], a => blank a
  | (b, v) :: rest, a => if a = b then v else cellsRead blank rest a

/-- The cell `(a, v)` put before the first larger address. -/
def cellsInsert (a : Nat) (v : Byte) : List Host.Cell → List Host.Cell
  | [] => [(a, v)]
  | (b, w) :: rest => if a < b then (a, v) :: (b, w) :: rest else (b, w) :: cellsInsert a v rest

/-- The memory after byte `v` is written at address `a`: writing what an unlisted address reads as lists nothing. -/
def cellsWrite (blank : Nat → Byte) (cells : List Host.Cell) (a : Nat) (v : Byte) : List Host.Cell :=
  let rest := cells.filter fun c => c.1 != a
  if v = blank a then rest else cellsInsert a v rest

/-- Addresses strictly rising from `lo` on. -/
def cellsSorted : Nat → List Host.Cell → Bool
  | _, [] => true
  | lo, (a, _) :: rest => decide (lo ≤ a) && cellsSorted (a + 1) rest

/-- The canonical form: addresses strictly rising, no entry equal to what an unlisted address reads as. -/
def Memory.wf (blank : Nat → Byte) (m : Memory) : Bool :=
  cellsSorted 0 m.cells && m.cells.all fun c => c.2 != blank c.1

/-- What an unlisted address of a buffer reads as (R342, R292): 0 once it has been cleared; before that 0 with `RING_INIT`
= `zero`, a fixed unknown byte with `any` (log 8). -/
def FrameBuf.blank (init : RingInit) (f : FrameBuf) (a : Nat) : Byte :=
  if f.cleared then 0
  else
    match init with
    | .zero => 0
    | .any => Config.ringByte f.buf a

/-- The byte at address `a` of a buffer. -/
def FrameBuf.read (init : RingInit) (f : FrameBuf) (a : Nat) : Byte := cellsRead (f.blank init) f.mem.cells a

/-- The buffer after byte `v` is written at address `a`. -/
def FrameBuf.write (init : RingInit) (f : FrameBuf) (a : Nat) (v : Byte) : FrameBuf :=
  { f with mem := { cells := cellsWrite (f.blank init) f.mem.cells a v } }

/-- The buffer after every byte is cleared to 0 (R292). -/
def FrameBuf.clear (f : FrameBuf) : FrameBuf := { f with cleared := true, mem := { cells := [] } }

/-! ## Planes -/

/-- `PW(p)` (R61). -/
def planeWidth (cfg : Config) : Plane → Nat
  | .luma => cfg.w
  | .chromaU => cfg.w / 2
  | .chromaV => cfg.w / 2

/-- `PH(p)` (R61). -/
def planeHeight (cfg : Config) : Plane → Nat
  | .luma => cfg.h
  | .chromaU => cfg.h / 2
  | .chromaV => cfg.h / 2

/-- `PB(p)` (R61). -/
def planeBase (cfg : Config) : Plane → Nat
  | .luma => 0
  | .chromaU => cfg.w * cfg.h
  | .chromaV => cfg.w * cfg.h + cfg.w / 2 * (cfg.h / 2)

/-- `FRAMEBYTES` (R61). -/
def frameBytes (cfg : Config) : Nat := cfg.w * cfg.h + 2 * (cfg.w / 2 * (cfg.h / 2))

/-- The address of `Pix(s, p, x, y)` (R62). -/
def pixAddr (cfg : Config) (p : Plane) (x y : Nat) : Nat := planeBase cfg p + y * planeWidth cfg p + x

/-! ## The ring -/

/-- Slot `k` (R35). -/
def Ring.at (r : Ring) : Fin 6 → FrameBuf
  | 0 => r.f0
  | 1 => r.f1
  | 2 => r.f2
  | 3 => r.f3
  | 4 => r.f4
  | 5 => r.f5

/-- The rotation of R292: slot 5 becomes slot 0, every other slot moves back by one; tags travel with their buffers. -/
def Ring.rotate (r : Ring) : Ring where
  f0 := r.f5
  f1 := r.f0
  f2 := r.f1
  f3 := r.f2
  f4 := r.f3
  f5 := r.f4

/-- Slot 0 cleared (R292). -/
def Ring.clearCurrent (r : Ring) : Ring := { r with f0 := r.f0.clear }

/-- Byte `a` of the buffer in slot `k`. -/
def State.byteAt (s : State) (k : Fin 6) (a : Nat) : Byte := (s.ring.at k).read s.cfg.ringInit a

/-- The state after byte `v` is written at address `a` of slot 0, the only slot ever written (R36). -/
def State.storeByte (s : State) (a : Nat) (v : Byte) : State :=
  { s with ring := { s.ring with f0 := s.ring.f0.write s.cfg.ringInit a v } }

/-- `Pix(k, p, x, y)` (R62): `none` outside the plane. -/
def State.pix (s : State) (k : Fin 6) (p : Plane) (x y : Int) : Option Byte :=
  if 0 ≤ x ∧ x < planeWidth s.cfg p ∧ 0 ≤ y ∧ y < planeHeight s.cfg p then
    some (s.byteAt k (pixAddr s.cfg p x.toNat y.toNat))
  else none

/-- `Pix(0, p, x, y) <- v` (R62): `none` outside the plane. -/
def State.setPix (s : State) (p : Plane) (x y : Nat) (v : Byte) : Option State :=
  if x < planeWidth s.cfg p ∧ y < planeHeight s.cfg p then some (s.storeByte (pixAddr s.cfg p x y) v) else none

/-! ## Taking an exception

There is no return from one (R320): the next `DecodeFrame` starts from `AwaitFrame` as any other. -/

/-- The code of an error kind (R310). -/
def errorCode : ErrorKind → Nat
  | .endOfStream => 1
  | .formatError => 2
  | .unsupportedMode => 3
  | .invalidGeometry => 4

/-- `raise E` (R318): `ERR` is written (R311), the rest of the decode procedure is abandoned, `PHASE` becomes `AwaitFrame`,
and the caller gets the error and no frame. Nothing is rolled back (R319). -/
def State.raise (s : State) (e : ErrorKind) : State :=
  { s with
    err := some { kind := e, code := errorCode e, bitpos := s.cursor.bitpos, mbi := s.mbi }
    phase := .awaitFrame
    agenda := []
    handed := false }

/-- An exception ends the step in a next state. -/
def State.trap (s : State) (e : ErrorKind) : Step := .next (s.raise e)

/-! ## Reading and scheduling -/

/-- What decoding needs of the state. -/
def State.ctx (s : State) : DecodeCtx := { cfg := s.cfg, vlc := s.vlcidx, amp := s.symAmp, cbp := s.cbpMask }

/-- Read the bitstream by `r` and go on with the cursor moved; an error of the read is raised with the cursor as the read
left it. -/
def State.reading {α : Type} (s : State) (r : Cursor → ReadOut α) (go : State → Step) : Step :=
  match r s.cursor with
  | .ok _ c => go { s with cursor := c }
  | .err e c => State.trap { s with cursor := c } e

/-- Put tasks before the rest of the agenda. -/
def State.push (s : State) (ts : List Task) : State := { s with agenda := ts ++ s.agenda }

/-! ## Pixel writes in sequence -/

/-- What a run of pixel accesses ends in: all done, or the state at the first access outside its plane (R62, R318). -/
inductive PixOut where
  | done (s : State)
  | bad (s : State)
  deriving DecidableEq, Repr

/-- The step a run of pixel accesses makes: `InvalidGeometry` where an access failed. -/
def PixOut.step : PixOut → Step
  | .done s => .next s
  | .bad s => s.trap .invalidGeometry

/-- The coordinates of a `w`×`h` rectangle in raster order (R11). -/
def coords (w h : Nat) : List (Nat × Nat) := (List.range h).flatMap fun y => (List.range w).map fun x => (x, y)

/-- For each coordinate in turn: compute the byte from the state as it stands, and write it to slot 0 at `(x0+x, y0+y)`. -/
def State.paint (p : Plane) (x0 y0 : Nat) (f : State → Nat → Nat → Option Byte) :
    List (Nat × Nat) → State → PixOut
  | [], s => .done s
  | (x, y) :: rest, s =>
    match f s x y with
    | none => .bad s
    | some v =>
      match s.setPix p (x0 + x) (y0 + y) v with
      | none => .bad s
      | some s' => State.paint p x0 y0 f rest s'

end Sys2Proof.Machine
end

