-- ==== Sys2Proof/Machine/Flags.lean ====
section
/-! DEFINITION. The block has no condition codes (10_state.md rule R29). What it has of flags is `HDRVALID` and the range
check of the quantizer index, and the registers `SetQuantizer` derives. -/

namespace Sys2Proof.Machine

/-- The range check of the effective quantizer index (R314): `QP_MIN ≤ q ≤ QP_MAX`. -/
def qpInRange (cfg : Config) (q : Int) : Bool := decide (cfg.qpMin ≤ q) && decide (q ≤ cfg.qpMax)

/-- `QIDX = q % 6` (R27, R299). -/
def qidxOf (q : Word) : Fin 6 := Fin.ofNat 6 (q.toInt % 6).toNat

/-- `QSH4 = q / 6` (R27, R299). -/
def qsh4Of (q : Word) : Word := BitVec.ofInt 32 (q.toInt / 6)

/-- `QSH8 = q / 6 - 2` (R27, R299). -/
def qsh8Of (q : Word) : Word := BitVec.ofInt 32 (q.toInt / 6 - 2)

end Sys2Proof.Machine
end

