-- ==== Sys2Proof/Machine/Operands.lean ====
section
/-! DEFINITION. The operand forms: positions inside a macroblock, neighbours of a block, averages, vectors, symbol fields,
ROM entries, and the tasks a prediction or a residual schedules. -/

namespace Sys2Proof.Machine

/-! ## Macroblock geometry (R23, R230) -/

/-- `MBX` (R23). -/
def State.mbx (s : State) : Nat := s.mbi % s.cfg.mbw

/-- `MBY` (R23). -/
def State.mby (s : State) : Nat := s.mbi / s.cfg.mbw

/-- The number of macroblocks of a frame (R6). -/
def State.mbTotal (s : State) : Nat := s.cfg.mbw * s.cfg.mbh

/-- Column of luma quadrant `q` (R230). -/
def State.quadX (s : State) (q : Nat) : Nat := 16 * s.mbx + 8 * (q % 2)

/-- Row of luma quadrant `q` (R230). -/
def State.quadY (s : State) (q : Nat) : Nat := 16 * s.mby + 8 * (q / 2)

/-- The luma rectangle of the macroblock (R230). -/
def State.mbRect (s : State) : Rect := { x := 16 * s.mbx, y := 16 * s.mby, w := 16, h := 16 }

/-- The four luma quadrants as `DecodeBlock8` positions, in the order of their index (R230, R231). -/
def State.lumaBlocks (s : State) (m : BlockMode) : List Task :=
  [.block8 .luma (s.quadX 0) (s.quadY 0) m 0, .block8 .luma (s.quadX 1) (s.quadY 1) m 1,
    .block8 .luma (s.quadX 2) (s.quadY 2) m 2, .block8 .luma (s.quadX 3) (s.quadY 3) m 3]

/-- The two chroma blocks as `DecodeBlock8` positions, chromaU then chromaV (R230, R231). -/
def State.chromaBlocks (s : State) (m : BlockMode) : List Task :=
  [.block8 .chromaU (8 * s.mbx) (8 * s.mby) m 4, .block8 .chromaV (8 * s.mbx) (8 * s.mby) m 5]

/-- The sub-views `(x, y, index)` of a partition of a `w×h` view at `(x, y)` into `sw×sh` sub-views, in row-major order
(R67); `none` where a size does not divide. -/
def partitionView (x y w h sw sh : Nat) : Option (List (Nat × Nat × Nat)) :=
  if 0 < sw ∧ 0 < sh ∧ w % sw = 0 ∧ h % sh = 0 then
    some ((List.range (w / sw * (h / sh))).map fun k => (x + sw * (k % (w / sw)), y + sh * (k / (w / sw)), k))
  else none

/-- Partition a view and go on with its sub-views; a size that does not divide raises `InvalidGeometry` (R67, R316). -/
def State.partitioned (s : State) (x y w h sw sh : Nat) (go : List (Nat × Nat × Nat) → Step) : Step :=
  match partitionView x y w h sw sh with
  | some views => go views
  | none => s.trap .invalidGeometry

/-! ## Neighbours (R65) -/

/-- `p[i, j]` outside the block: the left column, the top row up to `2N - 1`, and the corner, each only when the block is
not at the plane's origin on that axis; every other coordinate, and any outside the plane, gives `none` (R62, R65). -/
def State.neighbour (s : State) (b : Block) (i j : Int) : Option Byte :=
  if i = -1 ∧ 0 ≤ j ∧ j < b.size.n ∧ 0 < b.x ∨ j = -1 ∧ 0 ≤ i ∧ i ≤ 2 * b.size.n - 1 ∧ 0 < b.y
      ∨ i = -1 ∧ j = -1 ∧ 0 < b.x ∧ 0 < b.y then
    s.pix 0 b.plane (b.x + i) (b.y + j)
  else none

/-- `p[0..n-1, -1]`, the row above (R65 case c). -/
def State.topRow (s : State) (b : Block) (n : Nat) : Option (List Byte) :=
  (List.range n).mapM fun i : Nat => s.neighbour b i (-1)

/-- `p[-1, 0..n-1]`, the column to the left (R65 case b). -/
def State.leftCol (s : State) (b : Block) (n : Nat) : Option (List Byte) :=
  (List.range n).mapM fun j : Nat => s.neighbour b (-1) j

/-- `p[-1, -1]` (R65 case d). -/
def State.corner (s : State) (b : Block) : Option Byte := s.neighbour b (-1) (-1)

/-- Entry `i` of a row or column of neighbours, as a number. -/
def sample (l : List Byte) (i : Nat) : Nat := (l.getD i 0).toNat

/-- `avg2` (R216). -/
def avg2 (a b : Nat) : Nat := (a + b + 1) / 2

/-- `avg3` (R216). -/
def avg3 (a b c : Nat) : Nat := (a + 2 * b + c + 2) / 4

/-- Write the whole block from a function of column and row inside it (R204). Neighbours were read before (log 16). -/
def State.predict (s : State) (b : Block) (f : Nat → Nat → Nat) : Step :=
  (State.paint b.plane b.x b.y (fun _ x y => some (BitVec.ofNat 8 (f x y))) (coords b.size.n b.size.n) s).step

/-! ## Mode prediction (R202) -/

/-- `k` of the block at `(b.x, b.y)` (R202). -/
def State.modeIndex (s : State) (b : Block) : Nat := 4 * ((b.y - 16 * s.mby) / 4) + (b.x - 16 * s.mbx) / 4

/-- `PRE[k]`. -/
def State.preAt (s : State) (k : Nat) : Option Nat := (s.pre[k]?).join

/-- `PredictedMode(k)` (R202). -/
def State.predictedMode (s : State) (k : Nat) : Nat :=
  let above := if 4 ≤ k then s.preAt (k - 4) else none
  let left := if k % 4 ≠ 0 then s.preAt (k - 1) else none
  match above, left with
  | some a, some l => min a l
  | some a, none => a
  | none, some l => l
  | none, none => s.cfg.codeOf .dc

/-- Record a mode for the block (R203): one entry, or four for an 8×8 block. -/
def State.recordMode (s : State) (b : Block) (a : Nat) : State :=
  let k := s.modeIndex b
  let pre := s.pre.setIfInBounds k (some a)
  if b.size = .eight then
    { s with
      pre := ((pre.setIfInBounds (k + 1) (some a)).setIfInBounds (k + 4) (some a)).setIfInBounds (k + 5) (some a) }
  else { s with pre := pre }

/-- The positions that run the reconstruction rule of the mode code `a` on `b` (R204): DeltaPlane reads its delta first
(R208). -/
def predTasks (cfg : Config) (b : Block) (a : Nat) : List Task :=
  if cfg.modeCode[a]? = some .deltaPlane then [.dpdelta, .predCode b a] else [.predCode b a]

/-- `DELTA_PLANE_FN(N, top, left, delta)` at column `x`, row `y` (R208): a point the configuration lists, else the opaque
function (log 6). -/
def planeFn (cfg : Config) (n : PSize) (top left : List Byte) (delta : Word) (x y : Nat) : Byte :=
  match cfg.planePoints.find? fun q => q.size == n && q.top == top && q.left == left && q.delta == delta with
  | some q => q.out.getD (y * n.n + x) 0
  | none => Config.deltaPlane n top left delta x y

/-! ## Residual symbols (R94) -/

/-- `isBlockEnd = n[11:11]` (R94). -/
def symbolEnd (n : BitVec 12) : Bool := n.getLsbD 11

/-- `zeroRun = n[10:5]` (R94). -/
def symbolRun (n : BitVec 12) : Word := (n.extractLsb' 5 6).setWidth 32

/-- `amplitude = n[4:0]` (R94). -/
def symbolAmp (n : BitVec 12) : Word := (n.extractLsb' 0 5).setWidth 32

/-- The three fields of a symbol into the locals of `ResidualDecode` (R162). -/
def State.latchSymbol (s : State) (n : BitVec 12) : State :=
  { s with symEnd := symbolEnd n, symRun := symbolRun n, symAmp := symbolAmp n }

/-- `ESC_AMP[t][e][r]` at flat index `r + 64*e` (R164); `r` has 6 bits. -/
def escAmpAt (cfg : Config) (t e : Bool) (r : Word) : Word :=
  (cfg.res t).escAmp[(Fin.ofNat 128 (r.toNat % 64 + 64 * e.toNat)).val]

/-- `ESC_RUN[t][e][a]` (R165); `a` has 5 bits. -/
def escRunAt (cfg : Config) (t e : Bool) (a : Word) : Word :=
  (cfg.res t).escRun[(Fin.ofNat 64 (a.toNat % 32 + 32 * e.toNat)).val]

/-- The raster index a zig-zag cursor names (R167), when it is below `N*N`; what a negative one reaches is a free value
(log 15). -/
def zigzagAt (cfg : Config) (n : TSize) (pos : Word) : Option (Fin 64) :=
  if pos.toInt < 0 then Config.zigzagBelow n pos
  else
    match n with
    | .four => (cfg.zz4[pos.toNat]?).map fun i => Fin.ofNat 64 i.val
    | .eight => cfg.zz8[pos.toNat]?

/-! ## Coefficients (R34, R11) -/

/-- `MAT[k]`. -/
def matAt (m : Vector Word 64) (k : Nat) : Word := (m[k]?).getD 0

/-- The first `L = N*N` coefficients replaced by `f`, the rest kept. -/
def matMap (m : Vector Word 64) (n : TSize) (f : Nat → Word) : Vector Word 64 :=
  Vector.ofFn fun i => if i.val < n.len then f i.val else m[i]

/-- The quantization scale table entry `QT[QIDX][i]` (R180). -/
def quantAt (cfg : Config) (n : TSize) (q : Fin 6) (i : Nat) : Nat :=
  match n with
  | .four => ((cfg.qt4[q])[i]?).getD 0
  | .eight => ((cfg.qt8[q])[i]?).getD 0

/-! ## Motion vectors (R32, R250) -/

/-- Signed minimum. -/
def wmin (a b : Word) : Word := if b.slt a then b else a

/-- Signed maximum. -/
def wmax (a b : Word) : Word := if a.slt b then b else a

/-- `median(a, b, c)` (R8). -/
def median (a b c : Word) : Word := a + b + c - wmin a (wmin b c) - wmax a (wmax b c)

/-- `MVC[c]`. -/
def State.mvcAt (s : State) (c : Nat) : MV := s.mvc.getD c { x := 0, y := 0 }

/-- `MVC[MBX+1] <- mv` (R253). -/
def State.setMvc (s : State) (mv : MV) : State := { s with mvc := s.mvc.set (s.mbx + 1) mv }

/-- The chroma vector `(mv.x >> 1, mv.y >> 1)` (R255). -/
def chromaMV (mv : MV) : MV := { x := sar mv.x 1, y := sar mv.y 1 }

/-- The chroma rectangle of a luma rectangle: position and size halved (R255). -/
def chromaRect (r : Rect) : Rect := { x := r.x / 2, y := r.y / 2, w := r.w / 2, h := r.h / 2 }

/-- `clamp(v, 0, 255)` (R8). -/
def clampByte (v : Word) : Byte :=
  if v.toInt < 0 then 0 else if 255 < v.toInt then 255 else BitVec.ofInt 8 v.toInt

end Sys2Proof.Machine
end

