-- ==== Sys2Proof/Machine/Frame.lean ====
section
/-! DEFINITION. The frame sequencer (48_frame_top.md): `DecodeFrame`, the frame headers, the ring rotation, and
`SetQuantizer`. -/

namespace Sys2Proof.Machine

/-! ## The call (R290, R295, R297, R298) -/

/-- The entry of `DecodeFrame` (R290, R291): the error latch cleared, the cursor bound to the byte range, `FTYPE` next. A
call while another runs is outside the spec (R347, log 12). -/
def beginCall (bytes : List Byte) (s : State) : Step :=
  if s.phase = .awaitFrame then
    .next { s with
      err := none
      phase := .readFrameTypeBit
      cursor := Cursor.start bytes
      mbi := 0
      handed := false
      agenda := [.ftype] }
  else .refused .reentrantCall

/-- The head of the macroblock loop (R295, R297): the next macroblock, or the finish after `MBW*MBH` of them. -/
def nextMacroblock (k : FrameKind) (s : State) : Step :=
  if s.mbi < s.mbTotal then
    match k with
    | .intra => .next (s.push [.subflag, .op (.decodeFrame (.macroblockDone .intra))])
    | .inter => .next (s.push [.op .decodeInterMB, .op (.decodeFrame (.macroblockDone .inter))])
  else .next (s.push [.op (.decodeFrame .finish)])

/-- The end of a macroblock (R23): `MBI` is incremented by 1. -/
def endMacroblock (k : FrameKind) (s : State) : Step :=
  .next (State.push { s with mbi := s.mbi + 1 } [.op (.decodeFrame (.macroblocks k))])

/-- After the last macroblock (R298): `TAG[0] <- CS`, `PHASE` Done. -/
def finishFrame (s : State) : Step :=
  .next (State.push { s with ring := { s.ring with f0 := { s.ring.f0 with tag := s.cs } }, phase := .done }
    [.op (.decodeFrame .handOver)])

/-- Slot 0 is handed to the caller and the block waits again (R290, R76). -/
def handOver (s : State) : Step := .next { s with phase := .awaitFrame, handed := true }

/-- `DecodeFrame` (R290). -/
def execDecodeFrame (st : FrameStage) (s : State) : Step :=
  match st with
  | .start bytes => beginCall bytes s
  | .macroblocks k => nextMacroblock k s
  | .macroblockDone k => endMacroblock k s
  | .finish => finishFrame s
  | .handOver => handOver s

/-- `RotateAndClear` (R292). -/
def execRotateAndClear (s : State) : Step := .next { s with ring := s.ring.rotate.clearCurrent }

/-! ## Headers -/

/-- `FTYPE` = `IFRAME_BIT` (R293): `DecodeIFrame` (R294). -/
def execFtypeI (s : State) : Step :=
  s.reading (fun c => c.readBool s.cfg) fun s =>
    .next (State.push { s with phase := .decodeIFrame } [.op .rotateAndClear, .csbit, .vlcbit, .qp6])

/-- `FTYPE` = the other value (R293): `DecodePFrame` (R296). -/
def execFtypeP (s : State) : Step :=
  s.reading (fun c => c.readBool s.cfg) fun s =>
    .next (State.push { s with phase := .decodePFrame } [.op .rotateAndClear, .qpdelta])

/-- The colour space a bit names (R25). -/
def colourOf (c : Bool) : ColourSpace := if c then .yCbCr else .yCoCg

/-- `CSBIT` (R294): held until the header is accepted (log 20). -/
def execCsbit (c : Bool) (s : State) : Step :=
  s.reading (fun k => k.readBool s.cfg) fun s => .next { s with hdrCs := colourOf c }

/-- `VLCBIT` (R294): held until the header is accepted (log 20). -/
def execVlcbit (t : Bool) (s : State) : Step :=
  s.reading (fun c => c.readBool s.cfg) fun s => .next { s with hdrVlc := t }

/-- `QP6` (R294, R314): outside the range the carried registers keep their values; inside it all three are written
together. -/
def execQp6 (q : BitVec 6) (s : State) : Step :=
  s.reading (fun c => c.read s.cfg 6) fun s =>
    if qpInRange s.cfg q.toNat then
      .next (State.push { s with cs := s.hdrCs, vlcidx := s.hdrVlc, qp := q.setWidth 32, hdrvalid := true }
        [.op (.setQuantizer (q.setWidth 32)), .op (.decodeFrame (.macroblocks .intra))])
    else s.trap .formatError

/-- `QPDELTA` (R296, R314): the delta is read before `HDRVALID` is tested (R317); then the range check, the carried
register, and `MVC` cleared (log 21). -/
def execQpdelta (d : Int) (s : State) : Step :=
  s.reading (fun c => c.readSE s.cfg) fun s =>
    if s.hdrvalid = false then s.trap .formatError
    else
      let q := s.qp + BitVec.ofInt 32 d
      if qpInRange s.cfg q.toInt then
        .next (State.push
          { s with
            qp := if s.cfg.qpAccumulates then q else s.qp
            mvc := List.replicate (s.cfg.mbw + 2) { x := 0, y := 0 } }
          [.op (.setQuantizer q), .op (.decodeFrame (.macroblocks .inter))])
      else s.trap .formatError

/-- `SetQuantizer(q)` (R299). -/
def execSetQuantizer (q : Word) (s : State) : Step :=
  .next { s with qidx := qidxOf q, qsh4 := qsh4Of q, qsh8 := qsh8Of q }

/-- `SUBFLAG` (R295). -/
def execSubflag (f : Bool) (s : State) : Step :=
  s.reading (fun c => c.readBool s.cfg) fun s => .next (s.push [.op (.decodeIntraMB f)])

end Sys2Proof.Machine
end

