-- ==== Sys2Proof/Machine/Intra.lean ====
section
/-! DEFINITION. Intra mode prediction and the nine reconstruction modes (44_intra_pred.md). In every reconstruction the
neighbours are read before any pixel is written (log 16). -/

namespace Sys2Proof.Machine

/-! ## Mode prediction (R202, R203) -/

/-- `MPMBIT` = 1 (R203): the mode is the predicted one. -/
def execMpmTaken (b : Block) (s : State) : Step :=
  s.reading (fun c => c.readBool s.cfg) fun s =>
    let a := s.predictedMode (s.modeIndex b)
    .next ((s.recordMode b a).push (predTasks s.cfg b a))

/-- `MPMBIT` = 0 and `REM3` = `r` (R203): `r` below the predicted mode stands for itself, else for `r + 1`. -/
def execMpmRem (b : Block) (r : BitVec 3) (s : State) : Step :=
  s.reading (fun c => c.readBool s.cfg) fun s =>
    s.reading (fun c => c.read s.cfg 3) fun s =>
      let pm := s.predictedMode (s.modeIndex b)
      let a := if r.toNat < pm then r.toNat else r.toNat + 1
      .next ((s.recordMode b a).push (predTasks s.cfg b a))

/-- `DPDELTA` (R208): the delta DeltaPlane uses next. -/
def execDpdelta (d : Int) (s : State) : Step :=
  s.reading (fun c => c.readSE s.cfg) fun s => .next { s with planeDelta := BitVec.ofInt 32 d }

/-! ## Dispatch (R204) -/

/-- `PredictBlock(p, x, y, N, m)` (R204). -/
def execPredictBlock (b : Block) (m : BlockMode) (s : State) : Step :=
  match m with
  | .nothing => .next (s.push [.op (.predNone b)])
  | .predicted => .next (s.push [.op (.predPredicted b)])
  | .explicit m => .next (s.push (predTasks s.cfg b (s.cfg.codeOf m)))

/-- Nothing (R214): no bit is read, no pixel is read or written. -/
def execPredNone (_b : Block) (s : State) : Step := .next s

/-- Predicted (R200, R203): the mode is decoded first. -/
def execPredPredicted (b : Block) (s : State) : Step := .next (s.push [.mpm b])

/-! ## Reconstruction (R205 to R213) -/

/-- Vertical (R205). -/
def execPredV (b : Block) (s : State) : Step :=
  match s.topRow b b.size.n with
  | none => s.trap .invalidGeometry
  | some top => s.predict b fun x _ => sample top x

/-- Horizontal (R206). -/
def execPredH (b : Block) (s : State) : Step :=
  match s.leftCol b b.size.n with
  | none => s.trap .invalidGeometry
  | some left => s.predict b fun _ y => sample left y

/-- The sum of a row or column of neighbours. -/
def sumSamples (l : List Byte) : Nat := l.foldl (fun a v => a + v.toNat) 0

/-- The value of DC from the neighbours there are (R207). -/
def dcValue (ns : List Byte) : Nat := if ns.length = 0 then 128 else (sumSamples ns + ns.length / 2) / ns.length

/-- DC (R207): the average of the available neighbours, ties up; 128 when there are none. -/
def execPredDC (b : Block) (s : State) : Step :=
  match (if 0 < b.x then s.leftCol b b.size.n else some []), (if 0 < b.y then s.topRow b b.size.n else some []) with
  | some left, some top => s.predict b fun _ _ => dcValue (left ++ top)
  | none, _ => s.trap .invalidGeometry
  | some _, none => s.trap .invalidGeometry

/-- DeltaPlane (R208), its delta already read. -/
def execPredPlane (b : Block) (s : State) : Step :=
  match s.topRow b b.size.n, s.leftCol b b.size.n with
  | some top, some left =>
    let d := s.planeDelta
    s.predict b fun x y => (planeFn s.cfg b.size top left d x y).toNat
  | none, _ => s.trap .invalidGeometry
  | some _, none => s.trap .invalidGeometry

/-- HorizontalUp at `(x, y)` (R209). -/
def huPixel (n : Nat) (left : List Byte) (x y : Nat) : Nat :=
  let z := x + 2 * y
  let i := y + x / 2
  if 2 * n - 3 < z then sample left (n - 1)
  else if z = 2 * n - 3 then (sample left (n - 2) + 3 * sample left (n - 1) + 2) / 4
  else if z % 2 = 0 then avg2 (sample left i) (sample left (i + 1))
  else avg3 (sample left i) (sample left (i + 1)) (sample left (i + 2))

/-- HorizontalUp (R209). -/
def execPredHU (b : Block) (s : State) : Step :=
  match s.leftCol b b.size.n with
  | none => s.trap .invalidGeometry
  | some left => s.predict b (huPixel b.size.n left)

/-- HorizontalDown at `(x, y)` (R210). `edge` is the side the block leans on with the corner before it, `far` the other side
with the corner before it: entry 0 is the corner and entry `k + 1` is index `k`. VerticalRight (R211) is the same with the
two sides and the two coordinates exchanged. -/
def leanPixel (edge far : List Byte) (x y : Nat) : Nat :=
  if x ≤ 2 * y then
    let j := y - x / 2
    if (2 * y - x) % 2 = 0 then avg2 (sample edge j) (sample edge (j + 1))
    else avg3 (sample edge (j - 1)) (sample edge j) (sample edge (j + 1))
  else if x = 2 * y + 1 then avg3 (sample edge 1) (sample edge 0) (sample far 1)
  else
    let d := x - 2 * y
    avg3 (sample far d) (sample far (d - 1)) (sample far (d - 2))

/-- HorizontalDown (R210): reads the left column, the corner and the row above but its last pixel. -/
def execPredHD (b : Block) (s : State) : Step :=
  match s.leftCol b b.size.n, s.corner b, s.topRow b (b.size.n - 1) with
  | some left, some c, some top => s.predict b fun x y => leanPixel (c :: left) (c :: top) x y
  | _, _, _ => s.trap .invalidGeometry

/-- VerticalRight (R211): reads the row above, the corner and the left column but its last pixel. -/
def execPredVR (b : Block) (s : State) : Step :=
  match s.topRow b b.size.n, s.corner b, s.leftCol b (b.size.n - 1) with
  | some top, some c, some left => s.predict b fun x y => leanPixel (c :: top) (c :: left) y x
  | _, _, _ => s.trap .invalidGeometry

/-- VerticalLeft at `(x, y)` (R212). -/
def vlPixel (top : List Byte) (x y : Nat) : Nat :=
  let i := x + y / 2
  if y % 2 = 0 then avg2 (sample top i) (sample top (i + 1))
  else avg3 (sample top i) (sample top (i + 1)) (sample top (i + 2))

/-- VerticalLeft (R212): reads the row above up to column `N + N/2`. -/
def execPredVL (b : Block) (s : State) : Step :=
  match s.topRow b (b.size.n + b.size.n / 2 + 1) with
  | none => s.trap .invalidGeometry
  | some top => s.predict b (vlPixel top)

/-- DiagonalDownRight at `(x, y)` (R213), both sides with the corner before them. -/
def ddrPixel (top left : List Byte) (x y : Nat) : Nat :=
  if y < x then avg3 (sample top (x - y - 1)) (sample top (x - y)) (sample top (x - y + 1))
  else if x < y then avg3 (sample left (y - x - 1)) (sample left (y - x)) (sample left (y - x + 1))
  else avg3 (sample top 1) (sample top 0) (sample left 1)

/-- DiagonalDownRight (R213). -/
def execPredDDR (b : Block) (s : State) : Step :=
  match s.topRow b b.size.n, s.corner b, s.leftCol b b.size.n with
  | some top, some c, some left => s.predict b (ddrPixel (c :: top) (c :: left))
  | _, _, _ => s.trap .invalidGeometry

end Sys2Proof.Machine
end

