-- ==== Sys2Proof/Machine/Macroblock.lean ====
section
/-! DEFINITION. The macroblock partition orchestrator: intra macroblocks and the coded-block-pattern residual path
(45_intra_mb.md), and the inter macroblock (47_inter_mb.md rule R280). -/

namespace Sys2Proof.Machine

/-- `DecodeIntraMB(f)` (R231): `PRE` reset, then `CBPIDX`, the luma mode or the predicted luma blocks, and the chroma
mode. -/
def execDecodeIntraMB (f : Bool) (s : State) : Step :=
  let s := { s with pre := Vector.replicate 16 none }
  if f then .next (s.push ([.cbpidx] ++ s.lumaBlocks .predicted ++ [.cmode3])) else .next (s.push [.cbpidx, .mode3])

/-- `CBPIDX` (R232): an index above 63 raises `FormatError` after the whole code has been read. -/
def execCbpidx (i : Nat) (s : State) : Step :=
  s.reading (fun c => c.readUE s.cfg) fun s =>
    if h : i < 64 then .next { s with cbpMask := s.cfg.cbp[i] } else s.trap .formatError

/-- `MODE3` (R233): DeltaPlane predicts the whole 16×16 at once and leaves Nothing to the quadrants; any other mode is
applied block by block. -/
def execMode3 (m : BitVec 3) (s : State) : Step :=
  s.reading (fun c => c.read s.cfg 3) fun s =>
    match s.cfg.modeCode[m.toNat]? with
    | none => s.trap .unsupportedMode
    | some mode =>
      if mode = .deltaPlane then
        .next (s.push ([.op (.predictBlock { plane := .luma, x := 16 * s.mbx, y := 16 * s.mby, size := .sixteen }
          (.explicit .deltaPlane))] ++ s.lumaBlocks .nothing ++ [.cmode3]))
      else .next (s.push (s.lumaBlocks (.explicit mode) ++ [.cmode3]))

/-- `CMODE3` (R236): one code for both chroma planes. -/
def execCmode3 (m : BitVec 3) (s : State) : Step :=
  s.reading (fun c => c.read s.cfg 3) fun s =>
    match s.cfg.modeCode[m.toNat]? with
    | none => s.trap .unsupportedMode
    | some mode => .next (s.push (s.chromaBlocks (.explicit mode)))

/-- `DecodeBlock8(p, x, y, m, c)` (R234): without residual one prediction, with residual the partition flag first. -/
def execDecodeBlock8 (p : Plane) (x y : Nat) (m : BlockMode) (c : Bool) (s : State) : Step :=
  if c then .next (s.push [.partflag p x y m])
  else .next (s.push [.op (.predictBlock { plane := p, x := x, y := y, size := .eight } m)])

/-- `PARTFLAG` = 0 (R234, R235): predicted and residual-decoded at 8×8. -/
def execPartflag8x8 (p : Plane) (x y : Nat) (m : BlockMode) (s : State) : Step :=
  s.reading (fun c => c.readUE s.cfg) fun s =>
    .next (s.push [.op (.predictBlock { plane := p, x := x, y := y, size := .eight } m),
      .op (.applyResidual .start p x y .eight)])

/-- The tasks of one sub-block `(x, y, k)` of a split 8×8 block (R230, R234). -/
def subBlockTasks (p : Plane) (m : BlockMode) (mask : BitVec 4) (view : Nat × Nat × Nat) : List Task :=
  let (sx, sy, k) := view
  .op (.predictBlock { plane := p, x := sx, y := sy, size := .four } m) ::
    if mask.getLsbD k then [.op (.applyResidual .start p sx sy .four)] else []

/-- `PARTFLAG` = `f` in 1..16 (R234, R235): the 8×8 block partitioned (R67) into four 4×4 blocks, with the mask
`CBP4_ROM[f-1]`; above 16 `FormatError`. -/
def execPartflag4x4 (p : Plane) (x y : Nat) (m : BlockMode) (f : Nat) (s : State) : Step :=
  if f = 0 then .refused .illFormed
  else s.reading (fun c => c.readUE s.cfg) fun s =>
    if h : f - 1 < 16 then
      let mask := s.cfg.cbp4[f - 1]
      s.partitioned x y 8 8 4 4 fun views => .next (s.push (views.flatMap (subBlockTasks p m mask)))
    else s.trap .formatError

/-- `DecodeResidualMB` (R238): every block with mode Nothing. -/
def execDecodeResidualMB (s : State) : Step :=
  .next (s.push ([.cbpidx] ++ s.lumaBlocks .nothing ++ s.chromaBlocks .nothing))

/-- `DecodeInterMB` (R280): the predicted vector, then the motion mode of the macroblock. -/
def execDecodeInterMB (s : State) : Step := .next (s.push [.op .predictMV, .mvmode s.mbRect])

end Sys2Proof.Machine
end

