-- ==== Sys2Proof/Machine/Motion.lean ====
section
/-! DEFINITION. The motion vector predictor and the motion compensator (46_motion.md), with the intra escape of 47_inter_mb.md
rule R281. -/

namespace Sys2Proof.Machine

/-- `PredictMV` (R250): the component-wise median of the three neighbours. -/
def execPredictMV (s : State) : Step :=
  let a := s.mvcAt s.mbx
  let b := s.mvcAt (s.mbx + 1)
  let c := s.mvcAt (s.mbx + 2)
  .next { s with pmv := { x := median a.x b.x c.x, y := median a.y b.y c.y } }

/-- What follows the value of an `MVMODE` (R280, R252, R256): the deltas of modes 1 to 5, the operation of the value, and at
macroblock level, unless it is an intra escape, the residual. -/
def mvTasks (r : Rect) (v : Nat) : List Task :=
  (if 1 ≤ v ∧ v ≤ 5 then [.mvdx, .mvdy] else []) ++ [.mvValue r v]
    ++ (if r.isMacroblock ∧ v ≠ 6 ∧ v ≠ 7 then [.op .decodeResidualMB] else [])

/-- `MVMODE(w,h)` (R280, R256). -/
def execMvmode (r : Rect) (v : Nat) (s : State) : Step :=
  match s.ctx.rom (.mv s.cfg.stereo r.w r.h) with
  | none => .refused .illegalConfiguration
  | some t => s.reading (fun c => c.huff s.cfg t) fun s => .next (s.push (mvTasks r v))

/-- `MVDX` (R252). -/
def execMvdx (d : Int) (s : State) : Step :=
  s.reading (fun c => c.readSE s.cfg) fun s => .next { s with mvdx := BitVec.ofInt 32 d }

/-- `MVDY` (R252). -/
def execMvdy (d : Int) (s : State) : Step :=
  s.reading (fun c => c.readSE s.cfg) fun s => .next { s with mvdy := BitVec.ofInt 32 d }

/-! ## Leaves (R252, R253, R255) -/

/-- A leaf with the vector `mv` and the reference slot `k`: the cache entry of the column, then the three copies. -/
def leaf (r : Rect) (mv : MV) (k : Fin 6) (s : State) : Step :=
  .next ((s.setMvc mv).push [.op (.copyBlock k .luma r mv), .op (.copyBlock k .chromaU (chromaRect r) (chromaMV mv)),
    .op (.copyBlock k .chromaV (chromaRect r) (chromaMV mv))])

/-- `PMV` plus the delta read (R252). -/
def State.deltaMV (s : State) : MV := { x := s.pmv.x + s.mvdx, y := s.pmv.y + s.mvdy }

/-- Motion mode 0 (R252): the predicted vector, slot 1. -/
def execMvPred (r : Rect) (s : State) : Step := leaf r s.pmv 1 s

/-- Motion mode 1 (R252). -/
def execMvDelta1 (r : Rect) (s : State) : Step := leaf r s.deltaMV 1 s

/-- Motion mode 2 (R252). -/
def execMvDelta2 (r : Rect) (s : State) : Step := leaf r s.deltaMV 2 s

/-- Motion mode 3 (R252). -/
def execMvDelta3 (r : Rect) (s : State) : Step := leaf r s.deltaMV 3 s

/-- Motion mode 4 (R252). -/
def execMvDelta4 (r : Rect) (s : State) : Step := leaf r s.deltaMV 4 s

/-- Motion mode 5 (R252). -/
def execMvDelta5 (r : Rect) (s : State) : Step := leaf r s.deltaMV 5 s

/-! ## Half-pel copy (R254) -/

/-- The truncating average of two samples (R254): each halved before the sum. -/
def halfSum (a b : Byte) : Byte := (a >>> 1) + (b >>> 1)

/-- One output pixel of `CopyBlock` (R254) from the source position `(sx, sy)` and the two half-pel bits; `none` where a
sample lies outside the plane. -/
def State.halfPel (s : State) (k : Fin 6) (p : Plane) (fx fy : Bool) (sx sy : Int) : Option Byte :=
  match fx, fy with
  | false, false => s.pix k p sx sy
  | true, false => (s.pix k p sx sy).bind fun a => (s.pix k p (sx + 1) sy).map fun b => halfSum a b
  | false, true => (s.pix k p sx sy).bind fun a => (s.pix k p sx (sy + 1)).map fun b => halfSum a b
  | true, true =>
    (s.pix k p sx sy).bind fun a => (s.pix k p (sx + 1) sy).bind fun b =>
      (s.pix k p sx (sy + 1)).bind fun c => (s.pix k p (sx + 1) (sy + 1)).map fun d => halfSum (halfSum a b) (halfSum c d)

/-- `CopyBlock(s, p, x, y, w, h, mv)` (R254), pixel by pixel in raster order: an error leaves the pixels before it written
(R318). -/
def execCopyBlock (k : Fin 6) (p : Plane) (r : Rect) (mv : MV) (s : State) : Step :=
  (State.paint p r.x r.y
    (fun t x y =>
      t.halfPel k p (mv.x.getLsbD 0) (mv.y.getLsbD 0) ((r.x + x : Nat) + (sar mv.x 1).toInt)
        ((r.y + y : Nat) + (sar mv.y 1).toInt))
    (coords r.w r.h) s).step

/-! ## Splits (R256, R257) -/

/-- Two halves, each with its own mode; a size without a tree raises `UnsupportedMode`. -/
def split (first second : Rect) (s : State) : Step :=
  if (s.cfg.mvTree? first.w first.h).isSome then .next (s.push [.mvmode first, .mvmode second])
  else s.trap .unsupportedMode

/-- Motion mode 8 (R256): two `w × h/2` blocks, upper first. -/
def execMvSplitH (r : Rect) (s : State) : Step :=
  split { r with h := r.h / 2 } { r with y := r.y + r.h / 2, h := r.h / 2 } s

/-- Motion mode 9 (R256): two `w/2 × h` blocks, left first. -/
def execMvSplitW (r : Rect) (s : State) : Step :=
  split { r with w := r.w / 2 } { r with x := r.x + r.w / 2, w := r.w / 2 } s

/-! ## Intra escapes (R281, R257) -/

/-- `IntraEscape` (R281): the cache policy, then an intra macroblock; below macroblock level `UnsupportedMode` (R257). -/
def intraEscape (r : Rect) (f : Bool) (s : State) : Step :=
  if r.isMacroblock then
    let s := match s.cfg.mvcIntra with
      | .keep => s
      | .zero => s.setMvc { x := 0, y := 0 }
    .next (s.push [.op (.decodeIntraMB f)])
  else s.trap .unsupportedMode

/-- Motion mode 6 (R281): explicit modes. -/
def execMbIntra (r : Rect) (s : State) : Step := intraEscape r false s

/-- Motion mode 7 (R281): predicted modes. -/
def execMbIntraSub (r : Rect) (s : State) : Step := intraEscape r true s

end Sys2Proof.Machine
end

