-- ==== Sys2Proof/Machine/Primitives.lean ====
section
/-! DEFINITION. The read primitives (40_bitcursor.md rules R122 to R127, 41_huffman.md rule R146) as instructions: each
moves the cursor as its read does and leaves the value it returns in `val` (log 31). -/

namespace Sys2Proof.Machine

/-- `Read(n)` (R122). -/
def execReadF (n : Nat) (v : BitVec 32) (s : State) : Step :=
  if n = 0 ∨ 32 < n then .refused .illFormed
  else s.reading (fun c => c.read s.cfg n) fun s => .next { s with val := v.toNat }

/-- `ReadSigned(n)` (R123). -/
def execReadS (n : Nat) (v : Word) (s : State) : Step :=
  if n = 0 ∨ 32 < n then .refused .illFormed
  else s.reading (fun c => c.readSigned s.cfg n) fun s => .next { s with val := v.toInt }

/-- `ReadBool()` (R124). -/
def execReadB (v : Bool) (s : State) : Step :=
  s.reading (fun c => c.readBool s.cfg) fun s => .next { s with val := v.toNat }

/-- `ReadGamma()` (R125). -/
def execReadG (g : Nat) (s : State) : Step :=
  s.reading (fun c => c.readGamma s.cfg) fun s => .next { s with val := g }

/-- `ReadUE()` (R126). -/
def execReadUE (u : Nat) (s : State) : Step :=
  s.reading (fun c => c.readUE s.cfg) fun s => .next { s with val := u }

/-- `ReadSE()` (R127). -/
def execReadSE (d : Int) (s : State) : Step :=
  s.reading (fun c => c.readSE s.cfg) fun s => .next { s with val := d }

/-- `HuffDecode(T)` (R146). -/
def execReadH (t : TreeId) (v : Nat) (s : State) : Step :=
  match s.ctx.rom t with
  | none => .refused .illegalConfiguration
  | some r => s.reading (fun c => c.huff s.cfg r) fun s => .next { s with val := v }

end Sys2Proof.Machine
end

