-- ==== Sys2Proof/Machine/Residual.lean ====
section
/-! DEFINITION. The residual decoder (42_residual.md). -/

namespace Sys2Proof.Machine

/-- The entry of `ResidualDecode(N)` (R161): `MAT` cleared, the zig-zag cursor 0, the first symbol next. -/
def beginResidual (n : TSize) (s : State) : Step :=
  .next (State.push { s with mat := matMap s.mat n fun _ => 0, zpos := 0 } [.hsym, .form n])

/-- The coefficient store of R167. -/
def storeCoefficient (m : Vector Word 64) (i : Option (Fin 64)) (amp : Word) : Vector Word 64 :=
  match i with
  | some i => m.set i amp
  | none => m

/-- Write and advance (R167): the cursor moves by the run, a cursor at or past `N*N` raises `FormatError`, else the amplitude
is written and the cursor moves past it; the block ends after a symbol with `end` = 1. -/
def putCoefficient (n : TSize) (s : State) : Step :=
  let pos := s.zpos + s.symRun
  let s := { s with zpos := pos }
  if (n.len : Int) ≤ pos.toInt then s.trap .formatError
  else
    let s := { s with mat := storeCoefficient s.mat (zigzagAt s.cfg n pos) s.symAmp, zpos := pos + 1 }
    if s.symEnd then .next s else .next (s.push [.hsym, .form n])

/-- `ResidualDecode(N)` (R160). -/
def execResidualDecode (st : ResidualStage) (n : TSize) (s : State) : Step :=
  match st with
  | .start => beginResidual n s
  | .put => putCoefficient n s

/-- `HSYM` (R162): the symbol's three fields. -/
def execHsym (n : BitVec 12) (s : State) : Step :=
  s.reading (fun c => c.huff s.cfg (s.cfg.res s.vlcidx).huff) fun s => .next (s.latchSymbol n)

/-- `HSYM` with the codeword `00000011` of table 0 (R147): symbol `0x000`. -/
def execHsymT0x000 (s : State) : Step :=
  s.reading (fun c => c.skipBits s.cfg 8) fun s => .next (s.latchSymbol 0x000)

/-- `HSYM` with the codeword `0000011001` of table 0 (R147): symbol `0x802`. -/
def execHsymT0x802 (s : State) : Step :=
  s.reading (fun c => c.skipBits s.cfg 10) fun s => .next (s.latchSymbol 0x802)

/-- The direct form (R163): a sign, then the write. -/
def execRsymDirect (n : TSize) (s : State) : Step := .next (s.push [.sign, .op (.residualDecode .put n)])

/-- The amplitude escape (R164): after the selector `1` a second symbol replaces all three fields; then the ROM entry is
added to its amplitude, and its sign follows. -/
def execRsymAmpEsc (st : EscapeStage) (n : TSize) (s : State) : Step :=
  match st with
  | .select =>
    s.reading (fun c => c.skipBits s.cfg 1) fun s => .next (s.push [.hsym, .op (.rsymAmpEsc .lookup n)])
  | .lookup =>
    .next (State.push { s with symAmp := s.symAmp + escAmpAt s.cfg s.vlcidx s.symEnd s.symRun }
      [.sign, .op (.residualDecode .put n)])

/-- The run escape (R165): the same with the selector `01` and the run. -/
def execRsymRunEsc (st : EscapeStage) (n : TSize) (s : State) : Step :=
  match st with
  | .select =>
    s.reading (fun c => c.skipBits s.cfg 2) fun s => .next (s.push [.hsym, .op (.rsymRunEsc .lookup n)])
  | .lookup =>
    .next (State.push { s with symRun := s.symRun + escRunAt s.cfg s.vlcidx s.symEnd s.symAmp }
      [.sign, .op (.residualDecode .put n)])

/-- The raw escape (R166): the selector `00`, then end, run and signed amplitude without entropy coding. -/
def execRsymRaw (n : TSize) (s : State) : Step :=
  s.reading (fun c => c.skipBits s.cfg 2) fun s =>
    .next (s.push [.rawend, .rawrun, .rawamp, .op (.residualDecode .put n)])

/-- `SIGN` (R163): 1 negates the amplitude. -/
def execSign (f : Bool) (s : State) : Step :=
  s.reading (fun c => c.readBool s.cfg) fun s => .next { s with symAmp := if f then -s.symAmp else s.symAmp }

/-- `RAWEND` (R166). -/
def execRawend (e : Bool) (s : State) : Step :=
  s.reading (fun c => c.readBool s.cfg) fun s => .next { s with symEnd := e }

/-- `RAWRUN` (R166). -/
def execRawrun (r : BitVec 6) (s : State) : Step :=
  s.reading (fun c => c.read s.cfg 6) fun s => .next { s with symRun := r.setWidth 32 }

/-- `RAWAMP` (R166). -/
def execRawamp (a : BitVec 12) (s : State) : Step :=
  s.reading (fun c => c.readSigned s.cfg 12) fun s => .next { s with symAmp := a.signExtend 32 }

end Sys2Proof.Machine
end

