-- ==== Sys2Proof/Machine/Transform.lean ====
section
/-! DEFINITION. The inverse quantizer, the inverse transforms and the add-and-clamp (43_dequant_idct.md). -/

namespace Sys2Proof.Machine

/-- The shift of R180 for the block size. -/
def State.qshift (s : State) (n : TSize) : Word :=
  match n with
  | .four => s.qsh4
  | .eight => s.qsh8

/-- The scale `QT[QIDX][i] << QSH` (R180). -/
def State.scale (s : State) (n : TSize) (i : Nat) : Word :=
  BitVec.ofNat 32 (quantAt s.cfg n s.qidx i) <<< (s.qshift n).toNat

/-- `Dequantize(N)` (R180). -/
def execDequantize (n : TSize) (s : State) : Step :=
  .next { s with mat := matMap s.mat n fun i => matAt s.mat i * s.scale n i }

/-- `Butterfly_4` (R183). -/
def butterfly4 (x0 x1 x2 x3 : Word) : List Word :=
  let a := x0 + x2
  let b := x0 - x2
  let c := sar x1 1 - x3
  let d := x1 + sar x3 1
  [a + d, b + c, b - c, a - d]

/-- `Butterfly_8` (R184). -/
def butterfly8 (x0 x1 x2 x3 x4 x5 x6 x7 : Word) : List Word :=
  match butterfly4 x0 x2 x4 x6 with
  | [e0, e1, e2, e3] =>
    let o0 := -x3 + x5 - x7 - sar x7 1
    let o1 := x1 + x7 - x3 - sar x3 1
    let o2 := -x1 + x7 + x5 + sar x5 1
    let o3 := x3 + x5 + x1 + sar x1 1
    let p0 := o0 + sar o3 2
    let p1 := o1 + sar o2 2
    let p2 := sar o1 2 - o2
    let p3 := o3 - sar o0 2
    [e0 + p3, e1 + p2, e2 + p1, e3 + p0, e3 - p0, e2 - p1, e1 - p2, e0 - p3]
  | _ => []

/-- The 1-D butterfly of row `r` of the `N×N` matrix (R181). -/
def rowButterfly (n : TSize) (m : Vector Word 64) (r : Nat) : List Word :=
  match n with
  | .four => butterfly4 (matAt m (r * 4)) (matAt m (r * 4 + 1)) (matAt m (r * 4 + 2)) (matAt m (r * 4 + 3))
  | .eight =>
    butterfly8 (matAt m (r * 8)) (matAt m (r * 8 + 1)) (matAt m (r * 8 + 2)) (matAt m (r * 8 + 3))
      (matAt m (r * 8 + 4)) (matAt m (r * 8 + 5)) (matAt m (r * 8 + 6)) (matAt m (r * 8 + 7))

/-- The butterfly applied to every row (R181). -/
def rowPass (n : TSize) (m : Vector Word 64) : Vector Word 64 :=
  matMap m n fun i => (rowButterfly n m (i / n.n)).getD (i % n.n) 0

/-- `Transpose(N)` (R185). -/
def transposeMat (n : TSize) (m : Vector Word 64) : Vector Word 64 := matMap m n fun i => matAt m (i % n.n * n.n + i / n.n)

/-- The DC bias (R182). -/
def addBias (m : Vector Word 64) : Vector Word 64 := m.set 0 (m[0] + 32)

/-- The de-scale (R186). -/
def descale (n : TSize) (m : Vector Word 64) : Vector Word 64 := matMap m n fun i => sar (matAt m i) 6

/-- The five steps of the inverse transform in their order, with no second transpose (R181). -/
def inverseTransformMat (n : TSize) (m : Vector Word 64) : Vector Word 64 :=
  descale n (rowPass n (transposeMat n (rowPass n (addBias m))))

/-- `InverseTransform(N)` (R181). -/
def execInverseTransform (n : TSize) (s : State) : Step := .next { s with mat := inverseTransformMat n s.mat }

/-- The pixel with its residual added and clamped (R188). -/
def addClamp (v : Byte) (r : Word) : Byte := clampByte (v.setWidth 32 + r)

/-- `AddResidual(p, x0, y0, N)` (R188). -/
def addResidual (p : Plane) (x0 y0 : Nat) (n : TSize) (s : State) : Step :=
  (State.paint p x0 y0
    (fun t x y => (t.pix 0 p ((x0 + x : Nat) : Int) ((y0 + y : Nat) : Int)).map fun v => addClamp v (matAt t.mat (y * n.n + x)))
    (coords n.n n.n) s).step

/-- `ApplyResidual(p, x0, y0, N)` (R189): decode, dequantize, transform, add. -/
def execApplyResidual (st : ApplyStage) (p : Plane) (x0 y0 : Nat) (n : TSize) (s : State) : Step :=
  match st with
  | .start =>
    .next (s.push [.op (.residualDecode .start n), .op (.dequantize n), .op (.inverseTransform n),
      .op (.applyResidual .add p x0 y0 n)])
  | .add => addResidual p x0 y0 n s

end Sys2Proof.Machine
end

