-- ==== Sys2Proof/Machine/Dispatch.lean ====
section
/-! DEFINITION. One arm per constructor of `Instr`, each one call of its meaning. -/

namespace Sys2Proof.Machine

/-- What an instruction does. -/
def exec (i : Instr) (s : State) : Host.Outcome State Fault Refusal :=
  match i with
  | .readF a b => Sys2Proof.Machine.execReadF a b s
  | .readS a b => Sys2Proof.Machine.execReadS a b s
  | .readB a => Sys2Proof.Machine.execReadB a s
  | .readG a => Sys2Proof.Machine.execReadG a s
  | .readUE a => Sys2Proof.Machine.execReadUE a s
  | .readSE a => Sys2Proof.Machine.execReadSE a s
  | .readH a b => Sys2Proof.Machine.execReadH a b s
  | .ftypeI => Sys2Proof.Machine.execFtypeI s
  | .ftypeP => Sys2Proof.Machine.execFtypeP s
  | .csbit a => Sys2Proof.Machine.execCsbit a s
  | .vlcbit a => Sys2Proof.Machine.execVlcbit a s
  | .qp6 a => Sys2Proof.Machine.execQp6 a s
  | .qpdelta a => Sys2Proof.Machine.execQpdelta a s
  | .subflag a => Sys2Proof.Machine.execSubflag a s
  | .cbpidx a => Sys2Proof.Machine.execCbpidx a s
  | .mode3 a => Sys2Proof.Machine.execMode3 a s
  | .cmode3 a => Sys2Proof.Machine.execCmode3 a s
  | .partflag8x8 a b c d => Sys2Proof.Machine.execPartflag8x8 a b c d s
  | .partflag4x4 a b c d e => Sys2Proof.Machine.execPartflag4x4 a b c d e s
  | .mpmTaken a => Sys2Proof.Machine.execMpmTaken a s
  | .mpmRem a b => Sys2Proof.Machine.execMpmRem a b s
  | .dpdelta a => Sys2Proof.Machine.execDpdelta a s
  | .predV a => Sys2Proof.Machine.execPredV a s
  | .predH a => Sys2Proof.Machine.execPredH a s
  | .predPlane a => Sys2Proof.Machine.execPredPlane a s
  | .predDC a => Sys2Proof.Machine.execPredDC a s
  | .predHU a => Sys2Proof.Machine.execPredHU a s
  | .predHD a => Sys2Proof.Machine.execPredHD a s
  | .predVR a => Sys2Proof.Machine.execPredVR a s
  | .predDDR a => Sys2Proof.Machine.execPredDDR a s
  | .predVL a => Sys2Proof.Machine.execPredVL a s
  | .predNone a => Sys2Proof.Machine.execPredNone a s
  | .predPredicted a => Sys2Proof.Machine.execPredPredicted a s
  | .hsym a => Sys2Proof.Machine.execHsym a s
  | .hsymT0x000 => Sys2Proof.Machine.execHsymT0x000 s
  | .hsymT0x802 => Sys2Proof.Machine.execHsymT0x802 s
  | .rsymDirect a => Sys2Proof.Machine.execRsymDirect a s
  | .rsymAmpEsc a b => Sys2Proof.Machine.execRsymAmpEsc a b s
  | .rsymRunEsc a b => Sys2Proof.Machine.execRsymRunEsc a b s
  | .rsymRaw a => Sys2Proof.Machine.execRsymRaw a s
  | .sign a => Sys2Proof.Machine.execSign a s
  | .rawend a => Sys2Proof.Machine.execRawend a s
  | .rawrun a => Sys2Proof.Machine.execRawrun a s
  | .rawamp a => Sys2Proof.Machine.execRawamp a s
  | .mvmode a b => Sys2Proof.Machine.execMvmode a b s
  | .mvPred a => Sys2Proof.Machine.execMvPred a s
  | .mvDelta1 a => Sys2Proof.Machine.execMvDelta1 a s
  | .mvDelta2 a => Sys2Proof.Machine.execMvDelta2 a s
  | .mvDelta3 a => Sys2Proof.Machine.execMvDelta3 a s
  | .mvDelta4 a => Sys2Proof.Machine.execMvDelta4 a s
  | .mvDelta5 a => Sys2Proof.Machine.execMvDelta5 a s
  | .mbIntra a => Sys2Proof.Machine.execMbIntra a s
  | .mbIntraSub a => Sys2Proof.Machine.execMbIntraSub a s
  | .mvSplitH a => Sys2Proof.Machine.execMvSplitH a s
  | .mvSplitW a => Sys2Proof.Machine.execMvSplitW a s
  | .mvdx a => Sys2Proof.Machine.execMvdx a s
  | .mvdy a => Sys2Proof.Machine.execMvdy a s
  | .decodeFrame a => Sys2Proof.Machine.execDecodeFrame a s
  | .rotateAndClear => Sys2Proof.Machine.execRotateAndClear s
  | .setQuantizer a => Sys2Proof.Machine.execSetQuantizer a s
  | .decodeIntraMB a => Sys2Proof.Machine.execDecodeIntraMB a s
  | .decodeBlock8 a b c d e => Sys2Proof.Machine.execDecodeBlock8 a b c d e s
  | .decodeResidualMB => Sys2Proof.Machine.execDecodeResidualMB s
  | .decodeInterMB => Sys2Proof.Machine.execDecodeInterMB s
  | .predictMV => Sys2Proof.Machine.execPredictMV s
  | .copyBlock a b c d => Sys2Proof.Machine.execCopyBlock a b c d s
  | .residualDecode a b => Sys2Proof.Machine.execResidualDecode a b s
  | .dequantize a => Sys2Proof.Machine.execDequantize a s
  | .inverseTransform a => Sys2Proof.Machine.execInverseTransform a s
  | .applyResidual a b c d e => Sys2Proof.Machine.execApplyResidual a b c d e s
  | .predictBlock a b => Sys2Proof.Machine.execPredictBlock a b s

end Sys2Proof.Machine
end

