-- ==== Sys2Proof/Machine/Fetch.lean ====
section
/-! DEFINITION. What the sequencer does next (10_state.md rule R22): which instruction stands at `BITPOS` given its position
in the decode procedure, and how a program comes to stand there. -/

namespace Sys2Proof.Machine

/-- What the sequencer finds: an instruction and the state to run it in, an exception the reading or the dispatch raises, an
idle block, a lost sequence, or a refusal. -/
inductive Fetched where
  | run (i : Instr) (s : State)
  | trap (e : ErrorKind) (s : State)
  | idle
  | lost
  | refuse (r : Refusal)
  deriving DecidableEq, Repr

/-- The refusal of a position that has no instruction (log 13, 14). -/
def refusalOf : Reject → Refusal
  | .noTree _ _ => .illegalConfiguration
  | .badWidth _ => .illFormed

/-- The instruction at the head of the agenda; with nothing on it, the caller's next call when the block waits in
`AwaitFrame`, else idling there (R326, log 9, 11). -/
def State.fetch (s : State) : Fetched :=
  match s.agenda with
  | t :: rest =>
    match decode s.ctx s.cursor t with
    | .instr i => .run i { s with agenda := rest }
    | .trap e c => .trap e { s with cursor := c, agenda := rest }
    | .rejected r => .refuse (refusalOf r)
  | [] =>
    if s.phase = .awaitFrame then
      match s.calls with
      | bytes :: rest => .run (.decodeFrame (.start bytes)) { s with calls := rest }
      | [] => .idle
    else .lost

/-- The caller submits a byte range for one `DecodeFrame` (R60, R290). -/
def State.submit (s : State) (bytes : List Byte) : State := { s with calls := s.calls ++ [bytes] }

/-- The state with a table word at the position `tablePosition` reads it at: `IN` holds the word, the agenda that position,
residual table 0 and an escape symbol are in force (log 9, 10). -/
def State.place (s : State) (nbits w : Nat) : State :=
  match tablePosition nbits w with
  | none => s
  | some (t, width) =>
    { s with
      cursor := Cursor.start (tableInput s.cfg width w)
      phase := .readFrameTypeBit
      agenda := [t]
      vlcidx := false
      symAmp := 0 }

end Sys2Proof.Machine
end

