-- ==== Sys2Proof/Machine/Step.lean ====
section
/-! DEFINITION. One step of the machine: the instruction the sequencer finds, executed (00_scope.md rule R2 makes a whole
`DecodeFrame` atomic; log 1 says why a step is one instruction of it). -/

namespace Sys2Proof.Machine

/-- One step. -/
def step (s : State) : Host.Outcome State Fault Refusal :=
  match s.fetch with
  | .run i t => exec i t
  | .trap e t => t.trap e
  | .idle => .next s
  | .lost => .fault .lostSequence
  | .refuse r => .refused r

/-- `s` with a table word where the next step reads its instruction. -/
def State.withFetchWord (s : State) (nbits w : Nat) : State := s.place nbits w

end Sys2Proof.Machine
end

