-- ==== Sys2Proof/Safety.lean ====
section
/-! DEFINITION. The terms claims are stated in: the bit sequence of the input (40_bitcursor.md rule R120) and what of it lies
ahead of the cursor, the relations between the state before and after an instruction, and the invariant of the machine. -/

namespace Sys2Proof

/-! ## The bit sequence (R120) -/

/-- `STREAM` (R120): the bits of the complete refill units of `IN`, most significant bit of each unit first. -/
def streamOf (cfg : Config) (input : List Byte) : List Bool :=
  let k := cfg.blockBits.bytes
  (List.range (input.length / k)).flatMap fun j =>
    bitsOf cfg.blockBits.bits (unitValue cfg.unitEndian ((input.drop (j * k)).take k))

/-- The bits of `STREAM` from `BITPOS` on. -/
def Cursor.ahead (cfg : Config) (c : Cursor) : List Bool := (streamOf cfg c.input).drop c.bitpos

/-- The cursor's own invariant (R21, R120): `BITPOS + NBITS = 8 * BYTEPOS`, `BYTEPOS` whole units within `IN`, `NBITS` in
range, and `ACC` the numeral of the `NBITS` bits of `STREAM` at `BITPOS`. -/
def Cursor.ok (cfg : Config) (c : Cursor) : Bool :=
  c.bitpos + c.nbits == 8 * c.bytepos && decide (c.bytepos ≤ c.input.length) && c.bytepos % cfg.blockBits.bytes == 0
    && decide (c.nbits < cfg.blockBits.bits + 32) && decide (c.acc.toNat < 2 ^ c.nbits)
    && bitsOf c.nbits c.acc.toNat == (c.ahead cfg).take c.nbits

/-- A sequence of `Read(n)` (R128, R129): the values in order. -/
def Cursor.readAll (cfg : Config) : List Nat → Cursor → ReadOut (List Nat)
  | [], c => .ok [] c
  | n :: ns, c =>
    match c.read cfg n with
    | .err e c' => .err e c'
    | .ok v c' =>
      match Cursor.readAll cfg ns c' with
      | .err e c'' => .err e c''
      | .ok vs c'' => .ok (v :: vs) c''

/-- The node of a tree at the end of a path (R140); nothing beyond a leaf or an absent child. -/
def HuffTree.at : HuffTree → List Bool → HuffTree
  | t, [] => t
  | .node l _, false :: bs => l.at bs
  | .node _ r, true :: bs => r.at bs
  | _, _ :: _ => .absent

/-- The value a read primitive returns (R122 to R127, R146). -/
def Instr.primitiveValue : Instr → Option Int
  | .readF _ v => some v.toNat
  | .readS _ v => some v.toInt
  | .readB v => some v.toNat
  | .readG g => some g
  | .readUE u => some u
  | .readSE d => some d
  | .readH _ v => some v
  | _ => none

/-- The rectangle of a block lies inside its plane (R65). -/
def Block.inside (cfg : Config) (b : Block) : Bool :=
  decide (b.x + b.size.n ≤ Machine.planeWidth cfg b.plane) && decide (b.y + b.size.n ≤ Machine.planeHeight cfg b.plane)

namespace Machine

/-! ## Before and after an element -/

/-- The bits of the instruction `i` stand at the cursor of a legal machine: the configuration is legal, the cursor in order,
`i` a term its position can give, and its code (R90) the next bits of `STREAM`. -/
def State.reads (s : State) (i : Instr) : Bool :=
  s.cfg.wellFormed && s.cursor.ok s.cfg && i.wellFormed s.ctx
    && (encode s.ctx i).isPrefixOf (s.cursor.ahead s.cfg)

/-- The cursor `c` stands right after the code of `i`: same input, `BITPOS` advanced by the length of the code (R22), in
order. -/
def State.past (s : State) (i : Instr) (c : Cursor) : Bool :=
  c.input == s.cursor.input && c.bitpos == s.cursor.bitpos + (encode s.ctx i).length && c.ok s.cfg

/-! ## Before and after a run of pixel writes -/

/-- `t` differs from `s` in the bytes of slot 0 at most. -/
def State.samePixelsAside (s t : State) : Prop :=
  t = { s with ring := { s.ring with f0 := { s.ring.f0 with mem := t.ring.f0.mem } } }

/-- `t` is `s` with the `w×h` rectangle at `(x0, y0)` of plane `p` of slot 0 holding `v`, and nothing else changed. -/
def State.painted (s t : State) (p : Plane) (x0 y0 w h : Nat) (v : Nat → Nat → Byte) : Prop :=
  s.samePixelsAside t
    ∧ (∀ x y, x < w → y < h → t.byteAt 0 (pixAddr s.cfg p (x0 + x) (y0 + y)) = v x y)
    ∧ ∀ a, (∀ x y, x < w → y < h → a ≠ pixAddr s.cfg p (x0 + x) (y0 + y)) → t.byteAt 0 a = s.byteAt 0 a

/-- `p[i, -1]` of a block as a number (R11): the row above, the corner at `i = -1`. -/
def State.above (s : State) (b : Block) (i : Int) : Nat :=
  (s.byteAt 0 (pixAddr s.cfg b.plane (b.x + i).toNat (b.y - 1))).toNat

/-- `p[-1, j]` of a block as a number (R11): the column to the left, the corner at `j = -1`. -/
def State.beside (s : State) (b : Block) (j : Int) : Nat :=
  (s.byteAt 0 (pixAddr s.cfg b.plane (b.x - 1) (b.y + j).toNat)).toNat

/-- The state with the reference slots 1 to 5 taken from `r`. -/
def State.withRefs (s : State) (r : Ring) : State := { s with ring := { r with f0 := s.ring.f0 } }

/-- The outcome with its next state changed by `f`. -/
def mapNext (f : State → State) : Step → Step
  | .next s => .next (f s)
  | .fault e => .fault e
  | .refused r => .refused r

/-- `k` steps. -/
def steps : Nat → State → Step
  | 0, s => .next s
  | k + 1, s =>
    match step s with
    | .next t => steps k t
    | .fault e => .fault e
    | .refused r => .refused r

/-- `ZZ[k]` (R167): the raster index of zig-zag position `k`. -/
def zigzag (cfg : Config) (n : TSize) (k : Nat) : Nat :=
  match n with
  | .four => ((cfg.zz4[k]?).map Fin.val).getD 0
  | .eight => ((cfg.zz8[k]?).map Fin.val).getD 0

/-- The median-shaped value of three numbers: one of them, with one of the others at most it and the other at least it. -/
def isMiddle (m a b c : Int) : Prop :=
  (m = a ∧ (b ≤ a ∧ a ≤ c ∨ c ≤ a ∧ a ≤ b)) ∨ (m = b ∧ (a ≤ b ∧ b ≤ c ∨ c ≤ b ∧ b ≤ a))
    ∨ (m = c ∧ (a ≤ c ∧ c ≤ b ∨ b ≤ c ∧ c ≤ a))

/-! ## The invariant of the machine -/

/-- Every frame buffer is in canonical form. -/
def State.ringCanonical (s : State) : Bool :=
  [s.ring.f0, s.ring.f1, s.ring.f2, s.ring.f3, s.ring.f4, s.ring.f5].all fun f => f.mem.wf (f.blank s.cfg.ringInit)

/-- `MVC` has `MBW + 2` entries and its two sentinels are `(0,0)` (R32, R253). -/
def State.mvcOk (s : State) : Bool :=
  s.mvc.length == s.cfg.mbw + 2 && s.mvc.head? == some { x := 0, y := 0 } && s.mvc.getLast? == some { x := 0, y := 0 }

/-- Every entry of `PRE` is NONE or a mode code 0..8 (R31). -/
def State.preOk (s : State) : Bool :=
  s.pre.all fun m =>
    match m with
    | none => true
    | some a => decide (a ≤ 8)

/-- A carried quantizer index is in the legal range (R24, R26, R314). -/
def State.qpOk (s : State) : Bool := !s.hdrvalid || qpInRange s.cfg s.qp.toInt

/-- The two scale shifts are shift amounts R8 allows (R27, R299). -/
def State.shiftsOk (s : State) : Bool :=
  decide (0 ≤ s.qsh4.toInt) && decide (s.qsh4.toInt ≤ 31) && decide (0 ≤ s.qsh8.toInt) && decide (s.qsh8.toInt ≤ 31)

/-- A step of the frame level (R290 to R298): exactly one stands on the agenda during a call, and it is the last. -/
def frameTask : Task → Bool
  | .ftype => true
  | .qp6 => true
  | .qpdelta => true
  | .op (.decodeFrame _) => true
  | _ => false

/-- The end of a macroblock. -/
def endsMacroblock : Task → Bool
  | .op (.decodeFrame (.macroblockDone _)) => true
  | _ => false

/-- An operation the sequencer schedules by itself. -/
def scheduled (cfg : Config) : Instr → Bool
  | .predNone _ => true
  | .predPredicted _ => true
  | .rsymAmpEsc .lookup _ => true
  | .rsymRunEsc .lookup _ => true
  | .decodeFrame (.start _) => false
  | .decodeFrame _ => true
  | .rotateAndClear => true
  | .setQuantizer q => qpInRange cfg q.toInt
  | .decodeIntraMB _ => true
  | .decodeBlock8 _ _ _ _ _ => true
  | .decodeResidualMB => true
  | .decodeInterMB => true
  | .predictMV => true
  | .copyBlock _ _ _ _ => true
  | .residualDecode _ _ => true
  | .dequantize _ => true
  | .inverseTransform _ => true
  | .applyResidual _ _ _ _ _ => true
  | .predictBlock _ _ => true
  | _ => false

/-- A position the sequencer can stand at: a motion mode is read only for a size with a tree (R257), an operation is one it
schedules, a quantizer index has passed its check (R314); the read primitives are no positions of their own. -/
def legalTask (cfg : Config) : Task → Bool
  | .read _ => false
  | .mvmode r => (cfg.mvTree? r.w r.h).isSome
  | .op i => scheduled cfg i
  | _ => true

/-- A position that neither motion compensation nor a new call can follow from: what is left of an I-frame after its rotation
(R294, R295, R298). -/
def intraTask (cfg : Config) (t : Task) : Bool :=
  legalTask cfg t
    && match t with
      | .ftype => false
      | .qpdelta => false
      | .mvmode _ => false
      | .mvValue _ _ => false
      | .mvdx => false
      | .mvdy => false
      | .op .rotateAndClear => false
      | .op .decodeInterMB => false
      | .op .predictMV => false
      | .op (.copyBlock _ _ _ _) => false
      | .op (.decodeFrame (.macroblocks .inter)) => false
      | .op (.decodeFrame (.macroblockDone .inter)) => false
      | _ => true

/-- The sequencer's position is in order (R22, R28): between calls the agenda is empty and the phase `AwaitFrame`; during a
call one step of the frame level is left, at the end of the agenda, and the macroblock counter is within the frame
(R23). -/
def State.sequenced (s : State) : Bool :=
  decide (s.mbi ≤ s.mbTotal) && s.agenda.all (legalTask s.cfg)
    && match s.agenda.getLast? with
      | none => s.phase == .awaitFrame
      | some last =>
        s.phase != .awaitFrame && frameTask last && s.agenda.dropLast.all (fun t => !frameTask t)
          && (!endsMacroblock last || decide (s.mbi < s.mbTotal))

/-- The invariant: a legal configuration, the bit reader in order, canonical frame memory, the ranges of the registers, and
the sequencer's position in order. -/
def State.inv (s : State) : Bool :=
  s.cfg.wellFormed && s.cursor.ok s.cfg && s.ringCanonical && s.mvcOk && s.preOk && s.qpOk && s.shiftsOk && s.sequenced

end Machine

end Sys2Proof
end

