-- ==== Sys2Proof/Certificates/Slice0/Obligations.lean ====
section
/-! DEFINITION. The statements for the provers. In a statement about an element, `s.reads i` says that its code stands at the
cursor of a legal machine, and `s.past i c` that the cursor `c` stands right after it (Sys2Proof/Safety.lean). An equation
`exec i s = .next (s with ...)` is the whole frame: every register, every frame buffer and every model field not named is as
before. -/

open Sys2Proof Sys2Proof.Machine

/-! ## The bit reader -/

/-- R120, R122: `Read(n)` delivers the next `n` bits of `STREAM` as an unsigned number, or, when fewer are left, raises
`EndOfStream` with `BITPOS` unchanged; the cursor stays in order either way. -/
def Obligations.ReadDeliversStreamBits : Prop :=
  ∀ (cfg : Config) (c : Cursor) (n : Nat), c.ok cfg = true → 1 ≤ n → n ≤ 32 →
    (n ≤ (c.ahead cfg).length → ∃ c', c.read cfg n = .ok (numeral ((c.ahead cfg).take n)) c'
      ∧ c'.input = c.input ∧ c'.bitpos = c.bitpos + n ∧ c'.ok cfg = true)
    ∧ ((c.ahead cfg).length < n → ∃ c', c.read cfg n = .err .endOfStream c'
      ∧ c'.input = c.input ∧ c'.bitpos = c.bitpos ∧ c'.ok cfg = true)

/-- R128: after any sequence of successful reads, `BITPOS` is the number of bits delivered and `BYTEPOS` the whole units that
hold them. -/
def Obligations.PositionLaw : Prop :=
  ∀ (cfg : Config) (input : List Byte) (ns vs : List Nat) (c : Cursor), (∀ n ∈ ns, 1 ≤ n ∧ n ≤ 32) →
    Cursor.readAll cfg ns (Cursor.start input) = .ok vs c →
    c.bitpos = ns.sum
      ∧ c.bytepos = cfg.blockBits.bytes * ((ns.sum + cfg.blockBits.bits - 1) / cfg.blockBits.bits)

/-- R129: values packed as numerals of their widths are read back in order. -/
def Obligations.RoundTripLaw : Prop :=
  ∀ (cfg : Config) (input : List Byte) (ps : List (Nat × Nat)),
    (∀ p ∈ ps, p.1 < 2 ^ p.2 ∧ 1 ≤ p.2 ∧ p.2 ≤ 32) →
    (ps.flatMap fun p => bitsOf p.2 p.1).isPrefixOf (streamOf cfg input) = true →
    ∃ c, Cursor.readAll cfg (ps.map Prod.snd) (Cursor.start input) = .ok (ps.map Prod.fst) c

/-- R68, R101: `pack` puts a bit string, padded with zeros to whole refill units, into `IN`. -/
def Obligations.PackedBitsAreTheStream : Prop :=
  ∀ (cfg : Config) (bs : List Bool), ∃ k, k < cfg.blockBits.bits
    ∧ streamOf cfg (pack cfg bs) = bs ++ List.replicate k false

/-- R122 to R127, R146: each read primitive, its code at the cursor, leaves its value and moves the cursor past it: `F(n)`,
`S(n)`, `B`, `G`, `UE`, `SE`, `H(tree)`. -/
def Obligations.PrimitivesReturnTheirValue : Prop :=
  ∀ (s : State) (i : Instr) (v : Int), i.primitiveValue = some v → s.reads i = true →
    ∃ c, s.past i c = true ∧ exec i s = .next { s with cursor := c, val := v }

/-- R125, R98, R311, R312: the two errors of reading, at the step that reads. `raises e d`: the step takes `e` with `BITPOS` `d`
bits further. At an element of format `G`, `UE` or `SE`: `FormatError` at the 31st zero bit of the prefix; `EndOfStream` where
the input ends in the prefix or in the bits after it. At every other element `EndOfStream` where the input ends inside its
code: a fixed-width one, `MPMBIT` and `REM3`, the selector of an escape, a codeword of `HSYM`, `MVMODE` or `H(tree)`. A read
that fails delivers no bit, so `BITPOS` counts the reads before it. -/
def Obligations.ReadErrorsAreTaken : Prop :=
  ∀ (s : State) (t : Sys2Proof.Task) (rest : List Sys2Proof.Task), s.agenda = t :: rest → s.cursor.ok s.cfg = true →
    let bits := s.cursor.ahead s.cfg
    let raises := fun (e : ErrorKind) (d : Nat) =>
      ∃ c, c.input = s.cursor.input ∧ c.bitpos = s.cursor.bitpos + d ∧ c.ok s.cfg = true
        ∧ step s = .next (State.raise { s with cursor := c } e)
    ((t ∈ [Sys2Proof.Task.qpdelta, .cbpidx, .dpdelta, .mvdx, .mvdy, .read .g, .read .ue, .read .se]
        ∨ ∃ p x y m, t = .partflag p x y m) →
      (∀ tail, bits = List.replicate 31 false ++ tail → raises .formatError 31)
      ∧ (∀ k, k ≤ 30 → bits = List.replicate k false → raises .endOfStream k)
      ∧ ∀ k tail, k ≤ 30 → tail.length < k → bits = List.replicate k false ++ true :: tail → raises .endOfStream (k + 1))
    ∧ (∀ n, (t, n) ∈ [(Sys2Proof.Task.ftype, 1), (.csbit, 1), (.vlcbit, 1), (.qp6, 6), (.subflag, 1), (.mode3, 3),
        (.cmode3, 3), (.sign, 1), (.rawend, 1), (.rawrun, 6), (.rawamp, 12), (.read .b, 1)] →
      bits.length < n → raises .endOfStream 0)
    ∧ (∀ n, 1 ≤ n → n ≤ 32 → (t = .read (.f n) ∨ t = .read (.s n)) → bits.length < n → raises .endOfStream 0)
    ∧ (∀ b, t = .mpm b → (bits = [] → raises .endOfStream 0)
      ∧ ∀ tail, tail.length < 3 → bits = false :: tail → raises .endOfStream 1)
    ∧ (∀ n, t = .form n → s.symAmp = 0 →
      (bits = [] → raises .endOfStream 0) ∧ (bits = [false] → raises .endOfStream 1))
    ∧ ∀ r, (t = .hsym ∧ r = (s.cfg.res s.vlcidx).huff
          ∨ (∃ q, t = .mvmode q ∧ s.ctx.rom (.mv s.cfg.stereo q.w q.h) = some r)
          ∨ ∃ q, t = .read (.h q) ∧ s.ctx.rom q = some r) →
        (r.tree.at bits).isNode = true → (∀ d, r.limit = some d → bits.length < d) → raises .endOfStream bits.length

/-! ## Huffman trees -/

/-- R147: for every leaf of every tree, decoding a stream that begins with its codeword gives its value and consumes the
codeword; and table 0 has the two leaves the spec prints. -/
def Obligations.HuffDecodeReturnsTheLeaf : Prop :=
  (∀ (cfg : Config) (r : HuffRom) (bound : Nat) (c : Cursor) (p : List Bool × Nat), r.wellFormed bound = true →
    p ∈ r.tree.leaves → c.ok cfg = true → p.1.isPrefixOf (c.ahead cfg) = true →
    ∃ c', c.huff cfg r = .ok p.2 c' ∧ c'.input = c.input ∧ c'.bitpos = c.bitpos + p.1.length ∧ c'.ok cfg = true)
  ∧ ∀ cfg : Config, cfg.wellFormed = true →
      ([false, false, false, false, false, false, true, true], 0x000) ∈ cfg.res0.huff.tree.leaves
      ∧ ([false, false, false, false, false, true, true, false, false, true], 0x802) ∈ cfg.res0.huff.tree.leaves

/-- R146, R98, R313: bits that leave the tree raise `FormatError` at the bit that leads nowhere; a walk at the depth limit raises it
before the next bit is read. The step at `HSYM`, `MVMODE` or `H(tree)` takes that error, with `BITPOS` right after the bit that
leads nowhere (D8). -/
def Obligations.HuffDecodeOffTheTree : Prop :=
  (∀ (cfg : Config) (r : HuffRom) (c : Cursor) (q : List Bool), (r.tree.at q).isNode = true → c.ok cfg = true →
    (∀ b, r.tree.at (q ++ [b]) = .absent → (∀ d, r.limit = some d → q.length < d) →
      (q ++ [b]).isPrefixOf (c.ahead cfg) = true →
      ∃ c', c.huff cfg r = .err .formatError c' ∧ c'.bitpos = c.bitpos + q.length + 1 ∧ c'.ok cfg = true)
    ∧ (r.limit = some q.length → q.isPrefixOf (c.ahead cfg) = true →
      ∃ c', c.huff cfg r = .err .formatError c' ∧ c'.bitpos = c.bitpos + q.length ∧ c'.ok cfg = true))
  ∧ ∀ (s : State) (t : Sys2Proof.Task) (rest : List Sys2Proof.Task) (r : HuffRom) (q : List Bool) (b : Bool),
    s.agenda = t :: rest → s.cursor.ok s.cfg = true →
    (t = .hsym ∧ r = (s.cfg.res s.vlcidx).huff
      ∨ (∃ m, t = .mvmode m ∧ s.ctx.rom (.mv s.cfg.stereo m.w m.h) = some r)
      ∨ ∃ i, t = .read (.h i) ∧ s.ctx.rom i = some r) →
    (r.tree.at q).isNode = true → r.tree.at (q ++ [b]) = .absent → (∀ d, r.limit = some d → q.length < d) →
    (q ++ [b]).isPrefixOf (s.cursor.ahead s.cfg) = true →
    ∃ c, c.input = s.cursor.input ∧ c.bitpos = s.cursor.bitpos + q.length + 1 ∧ c.ok s.cfg = true
      ∧ step s = .next (State.raise { s with cursor := c } .formatError)

/-- R140, R141: no leaf's codeword is a prefix of another's; `insert` adds exactly the new leaf, and fails exactly when a
codeword of the tree and the new one are prefixes of one another. -/
def Obligations.InsertAddsOneLeaf : Prop :=
  (∀ t : HuffTree, t.leaves.Pairwise fun p q => ¬ p.1 <+: q.1 ∧ ¬ q.1 <+: p.1)
  ∧ (∀ (t t' : HuffTree) (bs : List Bool) (v : Nat), t.insert bs v = some t' →
      ∀ p, p ∈ t'.leaves ↔ p ∈ t.leaves ∨ p = (bs, v))
  ∧ ∀ (t : HuffTree) (bs : List Bool) (v : Nat), bs ≠ [] → (t = HuffTree.empty ∨ t.live = true) →
      (t.insert bs v = none ↔ ∃ p ∈ t.leaves, p.1 <+: bs ∨ bs <+: p.1)

/-! ## The residual decoder -/

/-- R161: before the first symbol the block's coefficients and the zig-zag cursor are 0. -/
def Obligations.ResidualDecodeBegins : Prop :=
  ∀ (s : State) (n : TSize), ∃ m, exec (.residualDecode .start n) s
      = .next { s with mat := m, zpos := 0, agenda := [.hsym, .form n] ++ s.agenda }
    ∧ (∀ i, i < n.len → matAt m i = 0) ∧ ∀ i, n.len ≤ i → matAt m i = matAt s.mat i

/-- R162, R94, R147, R163, R166: a symbol gives its three fields; so do the two codewords the spec prints; `SIGN` = 1 negates
the amplitude; `RAWEND`, `RAWRUN`, `RAWAMP` are the fields of a raw escape. The places of the three fields are R94's layout, which
the spec takes from general knowledge (D9, log 25); that 1 means negative is its decision D12. -/
def Obligations.ResidualElementsLatched : Prop :=
  ∀ s : State,
    (∀ i n, (i = .hsym n ∨ i = .hsymT0x000 ∧ n = 0x000 ∨ i = .hsymT0x802 ∧ n = 0x802) → s.reads i = true →
      ∃ c, s.past i c = true ∧ exec i s = .next { s with
        cursor := c
        symEnd := n.toNat / 2048 == 1
        symRun := BitVec.ofNat 32 (n.toNat / 32 % 64)
        symAmp := BitVec.ofNat 32 (n.toNat % 32) })
    ∧ (∀ f, s.reads (.sign f) = true → ∃ c, s.past (.sign f) c = true
      ∧ exec (.sign f) s = .next { s with cursor := c, symAmp := if f then -s.symAmp else s.symAmp })
    ∧ (∀ e, s.reads (.rawend e) = true → ∃ c, s.past (.rawend e) c = true
      ∧ exec (.rawend e) s = .next { s with cursor := c, symEnd := e })
    ∧ (∀ r, s.reads (.rawrun r) = true → ∃ c, s.past (.rawrun r) c = true
      ∧ exec (.rawrun r) s = .next { s with cursor := c, symRun := BitVec.ofNat 32 r.toNat })
    ∧ ∀ a, s.reads (.rawamp a) = true → ∃ c, s.past (.rawamp a) c = true
      ∧ exec (.rawamp a) s = .next { s with cursor := c, symAmp := BitVec.ofInt 32 a.toInt }

/-- R163 to R166: what follows each form of a residual symbol, and the ROM entry each escape adds. -/
def Obligations.ResidualFormsSchedule : Prop :=
  ∀ (s : State) (n : TSize),
    exec (.rsymDirect n) s = .next { s with agenda := [.sign, .op (.residualDecode .put n)] ++ s.agenda }
    ∧ (s.reads (.rsymAmpEsc .select n) = true → ∃ c, s.past (.rsymAmpEsc .select n) c = true
      ∧ exec (.rsymAmpEsc .select n) s
        = .next { s with cursor := c, agenda := [.hsym, .op (.rsymAmpEsc .lookup n)] ++ s.agenda })
    ∧ (s.reads (.rsymRunEsc .select n) = true → ∃ c, s.past (.rsymRunEsc .select n) c = true
      ∧ exec (.rsymRunEsc .select n) s
        = .next { s with cursor := c, agenda := [.hsym, .op (.rsymRunEsc .lookup n)] ++ s.agenda })
    ∧ (s.reads (.rsymRaw n) = true → ∃ c, s.past (.rsymRaw n) c = true
      ∧ exec (.rsymRaw n) s
        = .next { s with cursor := c, agenda := [.rawend, .rawrun, .rawamp, .op (.residualDecode .put n)] ++ s.agenda })
    ∧ (s.symRun.toNat < 64 → exec (.rsymAmpEsc .lookup n) s = .next { s with
        symAmp := s.symAmp + ((s.cfg.res s.vlcidx).escAmp[s.symRun.toNat + 64 * s.symEnd.toNat]?).getD 0
        agenda := [.sign, .op (.residualDecode .put n)] ++ s.agenda })
    ∧ (s.symAmp.toNat < 32 → exec (.rsymRunEsc .lookup n) s = .next { s with
        symRun := s.symRun + ((s.cfg.res s.vlcidx).escRun[s.symAmp.toNat + 32 * s.symEnd.toNat]?).getD 0
        agenda := [.sign, .op (.residualDecode .put n)] ++ s.agenda })

/-- R164, R165: the two escapes with a ROM entry, each four steps: selector `1` or `01`, a second symbol that replaces all three
fields, the ROM entry of that symbol's end and run added to its amplitude, or of its end and amplitude to its run, and a
sign. The places of the fields are R94's layout, which the spec takes from general knowledge (D9, log 25); D10 and D11 choose
the symbol and the index, D12 the polarity of the sign. -/
def Obligations.RomEscapesRun : Prop :=
  ∀ (s : State) (n : TSize) (rest : List Sys2Proof.Task) (p : List Bool × Nat) (sg : Bool), s.cfg.wellFormed = true →
    s.cursor.ok s.cfg = true → s.agenda = .form n :: rest → s.symAmp = 0 →
    p ∈ (s.cfg.res s.vlcidx).huff.tree.leaves →
    ((true :: (p.1 ++ [sg])).isPrefixOf (s.cursor.ahead s.cfg) = true →
      ∃ c, c.input = s.cursor.input ∧ c.bitpos = s.cursor.bitpos + p.1.length + 2 ∧ c.ok s.cfg = true
        ∧ steps 4 s = .next { s with
          cursor := c
          agenda := .op (.residualDecode .put n) :: rest
          symEnd := p.2 / 2048 == 1
          symRun := BitVec.ofNat 32 (p.2 / 32 % 64)
          symAmp :=
            let amp := BitVec.ofNat 32 (p.2 % 32)
              + ((s.cfg.res s.vlcidx).escAmp[p.2 / 32 % 64 + 64 * (p.2 / 2048)]?).getD 0
            if sg then -amp else amp })
    ∧ ((false :: true :: (p.1 ++ [sg])).isPrefixOf (s.cursor.ahead s.cfg) = true →
      ∃ c, c.input = s.cursor.input ∧ c.bitpos = s.cursor.bitpos + p.1.length + 3 ∧ c.ok s.cfg = true
        ∧ steps 4 s = .next { s with
          cursor := c
          agenda := .op (.residualDecode .put n) :: rest
          symEnd := p.2 / 2048 == 1
          symRun := BitVec.ofNat 32 (p.2 / 32 % 64)
            + ((s.cfg.res s.vlcidx).escRun[p.2 % 32 + 32 * (p.2 / 2048)]?).getD 0
          symAmp := if sg then -BitVec.ofNat 32 (p.2 % 32) else BitVec.ofNat 32 (p.2 % 32) })

/-- R166: the raw escape: `00`, then `isBlockEnd` (1 bit), `zeroRun` (6 bits) and the signed `amplitude` (12 bits), and no sign
bit. That it takes four steps is the model's granularity (log 1); the latches hold the pseudocode's locals (log 3). -/
def Obligations.RawEscapeRuns : Prop :=
  ∀ (s : State) (n : TSize) (rest : List Sys2Proof.Task) (e : Bool) (r : BitVec 6) (a : BitVec 12),
    s.cursor.ok s.cfg = true → s.agenda = .form n :: rest → s.symAmp = 0 →
    (false :: false :: e :: (bitsOf 6 r.toNat ++ bitsOf 12 a.toNat)).isPrefixOf (s.cursor.ahead s.cfg) = true →
    ∃ c, c.input = s.cursor.input ∧ c.bitpos = s.cursor.bitpos + 21 ∧ c.ok s.cfg = true
      ∧ steps 4 s = .next { s with
        cursor := c
        agenda := .op (.residualDecode .put n) :: rest
        symEnd := e
        symRun := BitVec.ofNat 32 r.toNat
        symAmp := BitVec.ofInt 32 a.toInt }

/-- R167: write and advance. Inside the block the amplitude goes to the de-zigzagged position and the cursor past it, and the
block ends after a symbol with `end` = 1; at or past `N*N` it is a `FormatError`. -/
def Obligations.CoefficientPut : Prop :=
  ∀ (s : State) (n : TSize),
    (0 ≤ (s.zpos + s.symRun).toInt → (s.zpos + s.symRun).toInt < n.len →
      ∃ m, exec (.residualDecode .put n) s = .next { s with
          mat := m
          zpos := s.zpos + s.symRun + 1
          agenda := if s.symEnd then s.agenda else [.hsym, .form n] ++ s.agenda }
        ∧ matAt m (zigzag s.cfg n (s.zpos + s.symRun).toNat) = s.symAmp
        ∧ ∀ i, i ≠ zigzag s.cfg n (s.zpos + s.symRun).toNat → matAt m i = matAt s.mat i)
    ∧ ((n.len : Int) ≤ (s.zpos + s.symRun).toInt →
      exec (.residualDecode .put n) s = .next (State.raise { s with zpos := s.zpos + s.symRun } .formatError))

/-- The model's choice where R167 states no result (log 15): with a negative zig-zag cursor the block goes on, and the free value
`Config.zigzagBelow` of the block size and the cursor names the one coefficient that gets the amplitude, or none. -/
def Obligations.NegativeZigzagCursorGoesOn : Prop :=
  ∀ (s : State) (n : TSize), (s.zpos + s.symRun).toInt < 0 →
    ∃ m, exec (.residualDecode .put n) s = .next { s with
        mat := m
        zpos := s.zpos + s.symRun + 1
        agenda := if s.symEnd then s.agenda else [.hsym, .form n] ++ s.agenda }
      ∧ (Config.zigzagBelow n (s.zpos + s.symRun) = none → m = s.mat)
      ∧ ∀ i, Config.zigzagBelow n (s.zpos + s.symRun) = some i →
        matAt m i = s.symAmp ∧ ∀ j, j ≠ i.val → matAt m j = matAt s.mat j

/-! ## Quantizer and transform -/

/-- R180: each coefficient is multiplied by its scale shifted left, modulo 2^32. -/
def Obligations.DequantizeScales : Prop :=
  ∀ s : State,
    (∃ m, exec (.dequantize .four) s = .next { s with mat := m }
      ∧ (∀ i, i < 16 → matAt m i
        = matAt s.mat i * (BitVec.ofNat 32 (((s.cfg.qt4[s.qidx])[i]?).getD 0) <<< s.qsh4.toNat))
      ∧ ∀ i, 16 ≤ i → matAt m i = matAt s.mat i)
    ∧ ∃ m, exec (.dequantize .eight) s = .next { s with mat := m }
      ∧ ∀ i, i < 64 → matAt m i
        = matAt s.mat i * (BitVec.ofNat 32 (((s.cfg.qt8[s.qidx])[i]?).getD 0) <<< s.qsh8.toNat)

/-- R181 to R186: the five stages of the inverse transform in their order: 32 added to coefficient 0, the butterfly on every
row, transposition, the butterfly on every row again, floor division by 64, with no second transposition; and the two
butterflies, by the formulas the spec takes from general knowledge (log 25). -/
def Obligations.InverseTransformStages : Prop :=
  (∀ (s : State) (n : TSize), ∃ m₁ m₂ m₃ m₄ m₅ : Vector Word 64,
    matAt m₁ 0 = matAt s.mat 0 + 32 ∧ (∀ i, 0 < i → matAt m₁ i = matAt s.mat i)
    ∧ (∀ r c, r < n.n → c < n.n → matAt m₂ (r * n.n + c) = (rowButterfly n m₁ r).getD c 0)
    ∧ (∀ r c, r < n.n → c < n.n → matAt m₃ (r * n.n + c) = matAt m₂ (c * n.n + r))
    ∧ (∀ r c, r < n.n → c < n.n → matAt m₄ (r * n.n + c) = (rowButterfly n m₃ r).getD c 0)
    ∧ (∀ i, i < n.len → (matAt m₅ i).toInt = (matAt m₄ i).toInt / 64)
    ∧ (∀ i, n.len ≤ i → matAt m₅ i = matAt s.mat i)
    ∧ exec (.inverseTransform n) s = .next { s with mat := m₅ })
  ∧ (∀ (m : Vector Word 64) (r : Nat), r < 4 →
    let x := fun c => matAt m (4 * r + c)
    rowButterfly .four m r = [x 0 + x 2 + (x 1 + sar (x 3) 1), x 0 - x 2 + (sar (x 1) 1 - x 3),
      x 0 - x 2 - (sar (x 1) 1 - x 3), x 0 + x 2 - (x 1 + sar (x 3) 1)])
  ∧ ∀ (m : Vector Word 64) (r : Nat), r < 8 →
    let x := fun c => matAt m (8 * r + c)
    let e := butterfly4 (x 0) (x 2) (x 4) (x 6)
    let o₀ := -x 3 + x 5 - x 7 - sar (x 7) 1
    let o₁ := x 1 + x 7 - x 3 - sar (x 3) 1
    let o₂ := -x 1 + x 7 + x 5 + sar (x 5) 1
    let o₃ := x 3 + x 5 + x 1 + sar (x 1) 1
    let p := [o₀ + sar o₃ 2, o₁ + sar o₂ 2, sar o₁ 2 - o₂, o₃ - sar o₀ 2]
    ∀ k, k < 4 → (rowButterfly .eight m r).getD k 0 = e.getD k 0 + p.getD (3 - k) 0
      ∧ (rowButterfly .eight m r).getD (7 - k) 0 = e.getD k 0 - p.getD (3 - k) 0

/-- R187: a block whose only non-zero coefficient is `MAT[0] = d` becomes flat at `(d + 32) >> 6`. -/
def Obligations.DcOnlyBlockIsFlat : Prop :=
  ∀ (s : State) (n : TSize), (∀ i, 0 < i → i < n.len → matAt s.mat i = 0) →
    ∃ m, exec (.inverseTransform n) s = .next { s with mat := m }
      ∧ ∀ i, i < n.len → matAt m i = sar (matAt s.mat 0 + 32) 6

/-- R188, R189: `ApplyResidual` is decode, dequantize, transform, add; the last step adds the residual to the pixels of the
block, clamped to 0..255. -/
def Obligations.ResidualIsAddedAndClamped : Prop :=
  ∀ (s : State) (p : Plane) (x y : Nat) (n : TSize),
    exec (.applyResidual .start p x y n) s = .next { s with agenda := [.op (.residualDecode .start n), .op (.dequantize n),
      .op (.inverseTransform n), .op (.applyResidual .add p x y n)] ++ s.agenda }
    ∧ (x + n.n ≤ planeWidth s.cfg p → y + n.n ≤ planeHeight s.cfg p →
      ∃ t, exec (.applyResidual .add p x y n) s = .next t
        ∧ s.painted t p x y n.n n.n fun i j => BitVec.ofInt 8 (max 0 (min 255
          ((s.byteAt 0 (pixAddr s.cfg p (x + i) (y + j))).setWidth 32 + matAt s.mat (j * n.n + i)).toInt)))

/-- R27, R299: the quantizer registers of an effective index in the legal range. -/
def Obligations.QuantizerRegistersDerived : Prop :=
  ∀ (s : State) (q : Word), 12 ≤ q.toInt → q.toInt ≤ 191 →
    ∃ i a b, exec (.setQuantizer q) s = .next { s with qidx := i, qsh4 := a, qsh8 := b }
      ∧ (i.val : Int) = q.toInt % 6 ∧ a.toInt = q.toInt / 6 ∧ b.toInt = q.toInt / 6 - 2

/-! ## Intra prediction -/

/-- R205, R206: Vertical: each pixel becomes the pixel above the block in its column; Horizontal: the pixel left of the block
in its row; with no row above, or no column to the left, `InvalidGeometry`. -/
def Obligations.VerticalAndHorizontalCopyTheEdge : Prop :=
  ∀ (s : State) (b : Block),
    (b.inside s.cfg = true → 0 < b.y → ∃ t, exec (.predV b) s = .next t
      ∧ s.painted t b.plane b.x b.y b.size.n b.size.n
        fun x _ => s.byteAt 0 (pixAddr s.cfg b.plane (b.x + x) (b.y - 1)))
    ∧ (b.y = 0 → exec (.predV b) s = .next (s.raise .invalidGeometry))
    ∧ (b.inside s.cfg = true → 0 < b.x → ∃ t, exec (.predH b) s = .next t
      ∧ s.painted t b.plane b.x b.y b.size.n b.size.n
        fun _ y => s.byteAt 0 (pixAddr s.cfg b.plane (b.x - 1) (b.y + y)))
    ∧ (b.x = 0 → exec (.predH b) s = .next (s.raise .invalidGeometry))

/-- R207: the average of the available neighbours, ties up; 128 when there are none. -/
def Obligations.DCAveragesTheAvailableNeighbours : Prop :=
  ∀ (s : State) (b : Block), b.inside s.cfg = true →
    let left := if 0 < b.x then (List.range b.size.n).map fun j : Nat => s.beside b j else []
    let top := if 0 < b.y then (List.range b.size.n).map fun i : Nat => s.above b i else []
    let n := left.length + top.length
    ∃ t, exec (.predDC b) s = .next t ∧ s.painted t b.plane b.x b.y b.size.n b.size.n
      fun _ _ => BitVec.ofNat 8 (if n = 0 then 128 else (left.sum + top.sum + n / 2) / n)

/-- R209, R216: HorizontalUp, by the formula the spec takes from general knowledge (log 25). -/
def Obligations.HorizontalUpFormula : Prop :=
  ∀ (s : State) (b : Block), b.inside s.cfg = true → 0 < b.x →
    let n := b.size.n
    let l := fun j : Nat => s.beside b j
    ∃ t, exec (.predHU b) s = .next t ∧ s.painted t b.plane b.x b.y n n fun x y =>
      let z := x + 2 * y
      let i := y + x / 2
      BitVec.ofNat 8 (
        if 2 * n - 3 < z then l (n - 1)
        else if z = 2 * n - 3 then (l (n - 2) + 3 * l (n - 1) + 2) / 4
        else if z % 2 = 0 then (l i + l (i + 1) + 1) / 2
        else (l i + 2 * l (i + 1) + l (i + 2) + 2) / 4)

/-- R210, R211, R216: HorizontalDown and VerticalRight, by the formulas the spec takes from general knowledge (log 25). -/
def Obligations.LeaningModesFormulas : Prop :=
  ∀ (s : State) (b : Block), b.inside s.cfg = true → 0 < b.x → 0 < b.y →
    let n := b.size.n
    let l := s.beside b
    let u := s.above b
    (∃ t, exec (.predHD b) s = .next t ∧ s.painted t b.plane b.x b.y n n fun x y =>
      let z : Int := 2 * y - x
      let j : Int := y - (x / 2 : Nat)
      BitVec.ofNat 8 (
        if 0 ≤ z ∧ z % 2 = 0 then (l (j - 1) + l j + 1) / 2
        else if 0 ≤ z then (l (j - 2) + 2 * l (j - 1) + l j + 2) / 4
        else if z = -1 then (l 0 + 2 * u (-1) + u 0 + 2) / 4
        else (u (x - 2 * y - 1) + 2 * u (x - 2 * y - 2) + u (x - 2 * y - 3) + 2) / 4))
    ∧ ∃ t, exec (.predVR b) s = .next t ∧ s.painted t b.plane b.x b.y n n fun x y =>
      let z : Int := 2 * x - y
      let i : Int := x - (y / 2 : Nat)
      BitVec.ofNat 8 (
        if 0 ≤ z ∧ z % 2 = 0 then (u (i - 1) + u i + 1) / 2
        else if 0 ≤ z then (u (i - 2) + 2 * u (i - 1) + u i + 2) / 4
        else if z = -1 then (l 0 + 2 * u (-1) + u 0 + 2) / 4
        else (l (y - 2 * x - 1) + 2 * l (y - 2 * x - 2) + l (y - 2 * x - 3) + 2) / 4)

/-- R212, R216: VerticalLeft, by the formula the spec takes from general knowledge (log 25); it reads the row above up to
column `N + N/2`; a tap outside the plane is `InvalidGeometry`. That no pixel of the block has been written before it is the
model's choice (log 16). -/
def Obligations.VerticalLeftFormula : Prop :=
  ∀ (s : State) (b : Block), b.inside s.cfg = true → 0 < b.y →
    let n := b.size.n
    let u := fun i : Nat => s.above b i
    (b.x + n + n / 2 < planeWidth s.cfg b.plane →
      ∃ t, exec (.predVL b) s = .next t ∧ s.painted t b.plane b.x b.y n n fun x y =>
        let i := x + y / 2
        BitVec.ofNat 8 (
          if y % 2 = 0 then (u i + u (i + 1) + 1) / 2 else (u i + 2 * u (i + 1) + u (i + 2) + 2) / 4))
    ∧ (planeWidth s.cfg b.plane ≤ b.x + n + n / 2 → exec (.predVL b) s = .next (s.raise .invalidGeometry))

/-- R213, R216: DiagonalDownRight, by the formula the spec takes from general knowledge (log 25). -/
def Obligations.DiagonalDownRightFormula : Prop :=
  ∀ (s : State) (b : Block), b.inside s.cfg = true → 0 < b.x → 0 < b.y →
    let n := b.size.n
    let l := s.beside b
    let u := s.above b
    ∃ t, exec (.predDDR b) s = .next t ∧ s.painted t b.plane b.x b.y n n fun x y =>
      BitVec.ofNat 8 (
        if y < x then (u ((x : Int) - y - 2) + 2 * u ((x : Int) - y - 1) + u ((x : Int) - y) + 2) / 4
        else if x < y then (l ((y : Int) - x - 2) + 2 * l ((y : Int) - x - 1) + l ((y : Int) - x) + 2) / 4
        else (u 0 + 2 * u (-1) + l 0 + 2) / 4)

/-- R208: DeltaPlane writes what `DELTA_PLANE_FN` gives of the row above, the column to the left and the delta already
read. -/
def Obligations.DeltaPlaneWritesItsFunction : Prop :=
  ∀ (s : State) (b : Block), b.inside s.cfg = true → 0 < b.x → 0 < b.y →
    let top := (List.range b.size.n).map fun i => s.byteAt 0 (pixAddr s.cfg b.plane (b.x + i) (b.y - 1))
    let left := (List.range b.size.n).map fun j => s.byteAt 0 (pixAddr s.cfg b.plane (b.x - 1) (b.y + j))
    ∃ t, exec (.predPlane b) s = .next t
      ∧ s.painted t b.plane b.x b.y b.size.n b.size.n fun x y => planeFn s.cfg b.size top left s.planeDelta x y

/-- R215, R316: a mode applied where a neighbour it needs is unavailable raises `InvalidGeometry`. That no pixel has changed is
the model's choice for the modes some of whose pixels need only the side there is (log 16). -/
def Obligations.UnavailableNeighbourTraps : Prop :=
  ∀ (s : State) (b : Block) (i : Instr),
    (b.y = 0 ∧ (i = .predV b ∨ i = .predVL b) ∨ b.x = 0 ∧ (i = .predH b ∨ i = .predHU b)
      ∨ (b.x = 0 ∨ b.y = 0) ∧ (i = .predPlane b ∨ i = .predHD b ∨ i = .predVR b ∨ i = .predDDR b)) →
    exec i s = .next (s.raise .invalidGeometry)

/-- R204, R214, R203: `PredictBlock` with an explicit mode runs, in the next step, the rule of that mode on the block; DeltaPlane
reads its delta in between; Nothing reads no bit and touches no pixel; Predicted decodes its mode. -/
def Obligations.PredictBlockRunsItsRule : Prop :=
  ∀ (s : State) (b : Block) (rest : List Sys2Proof.Task), s.cfg.wellFormed = true →
    (∀ m, m ≠ .deltaPlane → s.agenda = .op (.predictBlock b (.explicit m)) :: rest →
      ∃ t, exec (.predictBlock b (.explicit m)) { s with agenda := rest } = .next t ∧ step s = .next t
        ∧ step t = exec (predInstr b m) { s with agenda := rest })
    ∧ exec (.predictBlock b (.explicit .deltaPlane)) s
        = .next { s with agenda := [.dpdelta, .predCode b (s.cfg.codeOf .deltaPlane)] ++ s.agenda }
    ∧ decode s.ctx s.cursor (.predCode b (s.cfg.codeOf .deltaPlane)) = .instr (.predPlane b)
    ∧ exec (.predictBlock b .nothing) s = .next { s with agenda := .op (.predNone b) :: s.agenda }
    ∧ exec (.predNone b) s = .next s
    ∧ exec (.predictBlock b .predicted) s = .next { s with agenda := .op (.predPredicted b) :: s.agenda }
    ∧ exec (.predPredicted b) s = .next { s with agenda := .mpm b :: s.agenda }

/-- R202: the predicted mode: the smaller of the modes above and to the left inside the macroblock, the one there is, or
DC. -/
def Obligations.PredictedModeRule : Prop :=
  ∀ (s : State) (k : Nat) (a l : Option Nat), k < 16 →
    a = (if 4 ≤ k then (s.pre[k - 4]?).join else none) → l = (if k % 4 = 0 then none else (s.pre[k - 1]?).join) →
    (∀ x y, a = some x → l = some y → s.predictedMode k = min y x)
    ∧ (∀ x, a = some x → l = none → s.predictedMode k = x) ∧ (∀ y, a = none → l = some y → s.predictedMode k = y)
    ∧ (a = none → l = none → s.predictedMode k = s.cfg.codeOf .dc)

/-- R203, R202: the mode is the predicted one, or the selector with the predicted one skipped; it is recorded for the block, in
four entries for an 8×8 one, at the index R202 gives its position in the macroblock; then its reconstruction rule runs, after
a delta for DeltaPlane. -/
def Obligations.ModeIsDecodedAndRecorded : Prop :=
  ∀ (s : State) (b : Block) (i : Instr) (a : Nat),
    let k := 4 * ((b.y - 16 * (s.mbi / s.cfg.mbw)) / 4) + (b.x - 16 * (s.mbi % s.cfg.mbw)) / 4
    (i = .mpmTaken b ∧ a = s.predictedMode k
      ∨ ∃ r, i = .mpmRem b r
        ∧ a = if r.toNat < s.predictedMode k then r.toNat else r.toNat + 1) → s.reads i = true →
    ∃ c p, s.past i c = true
      ∧ exec i s = .next { s with
          cursor := c
          pre := p
          agenda := (if s.cfg.modeCode[a]? = some .deltaPlane then [.dpdelta, .predCode b a] else [.predCode b a])
            ++ s.agenda }
      ∧ ∀ j, j < 16 → p[j]? = if j = k ∨ b.size = .eight
          ∧ (j = k + 1 ∨ j = k + 4 ∨ j = k + 5) then some (some a) else s.pre[j]?

/-- R208, R252: the signed deltas. -/
def Obligations.SignedElementsLatched : Prop :=
  ∀ (s : State) (d : Int),
    (s.reads (.dpdelta d) = true → ∃ c, s.past (.dpdelta d) c = true
      ∧ exec (.dpdelta d) s = .next { s with cursor := c, planeDelta := BitVec.ofInt 32 d })
    ∧ (s.reads (.mvdx d) = true → ∃ c, s.past (.mvdx d) c = true
      ∧ exec (.mvdx d) s = .next { s with cursor := c, mvdx := BitVec.ofInt 32 d })
    ∧ (s.reads (.mvdy d) = true → ∃ c, s.past (.mvdy d) c = true
      ∧ exec (.mvdy d) s = .next { s with cursor := c, mvdy := BitVec.ofInt 32 d })

/-! ## Macroblocks -/

/-- R230, R231, R234, R238, R280: what an intra macroblock, a residual macroblock, an inter macroblock and an 8×8 block consist
of. -/
def Obligations.MacroblocksSchedule : Prop :=
  ∀ (s : State),
    let luma := fun m => (List.finRange 4).map fun q : Fin 4 =>
      Sys2Proof.Task.block8 .luma (16 * (s.mbi % s.cfg.mbw) + 8 * (q.val % 2)) (16 * (s.mbi / s.cfg.mbw) + 8 * (q.val / 2)) m
        (q.castLE (by decide))
    let chroma := fun m => [Sys2Proof.Task.block8 .chromaU (8 * (s.mbi % s.cfg.mbw)) (8 * (s.mbi / s.cfg.mbw)) m 4,
      .block8 .chromaV (8 * (s.mbi % s.cfg.mbw)) (8 * (s.mbi / s.cfg.mbw)) m 5]
    exec (.decodeIntraMB false) s
        = .next { s with pre := Vector.replicate 16 none, agenda := [.cbpidx, .mode3] ++ s.agenda }
    ∧ exec (.decodeIntraMB true) s = .next { s with
        pre := Vector.replicate 16 none
        agenda := [.cbpidx] ++ luma .predicted ++ [.cmode3] ++ s.agenda }
    ∧ exec .decodeResidualMB s
        = .next { s with agenda := [.cbpidx] ++ luma .nothing ++ chroma .nothing ++ s.agenda }
    ∧ exec .decodeInterMB s = .next { s with agenda := [.op .predictMV,
        .mvmode { x := 16 * (s.mbi % s.cfg.mbw), y := 16 * (s.mbi / s.cfg.mbw), w := 16, h := 16 }] ++ s.agenda }
    ∧ (∀ p x y m, exec (.decodeBlock8 p x y m false) s
        = .next { s with agenda := .op (.predictBlock { plane := p, x := x, y := y, size := .eight } m) :: s.agenda })
    ∧ ∀ p x y m, exec (.decodeBlock8 p x y m true) s = .next { s with agenda := .partflag p x y m :: s.agenda }

/-- R233, R236: the explicit modes. A luma DeltaPlane predicts the 16×16 at once and leaves Nothing to the quadrants; any other
mode goes to each block; one chroma mode serves both planes. -/
def Obligations.ExplicitModes : Prop :=
  ∀ (s : State) (m : BitVec 3) (mode : IntraMode), s.cfg.modeCode[m.toNat]? = some mode →
    (s.reads (.mode3 m) = true → ∃ c, s.past (.mode3 m) c = true
      ∧ exec (.mode3 m) s = .next { s with
          cursor := c
          agenda := (if mode = .deltaPlane then
              .op (.predictBlock { plane := .luma, x := 16 * s.mbx, y := 16 * s.mby, size := .sixteen }
                (.explicit .deltaPlane)) :: s.lumaBlocks .nothing
            else s.lumaBlocks (.explicit mode)) ++ [.cmode3] ++ s.agenda })
    ∧ (s.reads (.cmode3 m) = true → ∃ c, s.past (.cmode3 m) c = true
      ∧ exec (.cmode3 m) s = .next { s with cursor := c, agenda := s.chromaBlocks (.explicit mode) ++ s.agenda })

/-- R231, R232, R234, R235: the coded-block-pattern index selects the mask, and above 63 is a `FormatError` after the whole code
has been read; the block at position `bit` is coded when that bit of the mask is set, bit 0 the least significant (D23); the partition flag: 0 keeps the 8×8 block; 1..16 split it in four, each predicted, those of the mask
`CBP4_ROM[f-1]` with residual; above 16 `FormatError`. -/
def Obligations.CodedBlockPatternAndPartition : Prop :=
  ∀ s : State,
    (∀ i, s.reads (.cbpidx i) = true → ∃ c, s.past (.cbpidx i) c = true
      ∧ (∀ h : i < 64, exec (.cbpidx i) s = .next { s with cursor := c, cbpMask := s.cfg.cbp[i] })
      ∧ (63 < i → exec (.cbpidx i) s = .next (State.raise { s with cursor := c } .formatError)))
    ∧ (∀ p x y m (bit : Fin 6) rest, s.agenda = .block8 p x y m bit :: rest →
      step s = exec (.decodeBlock8 p x y m (s.cbpMask.getLsbD bit)) { s with agenda := rest })
    ∧ (∀ p x y m, s.reads (.partflag8x8 p x y m) = true → ∃ c, s.past (.partflag8x8 p x y m) c = true
      ∧ exec (.partflag8x8 p x y m) s = .next { s with
          cursor := c
          agenda := [.op (.predictBlock { plane := p, x := x, y := y, size := .eight } m),
            .op (.applyResidual .start p x y .eight)] ++ s.agenda })
    ∧ ∀ p x y m f, s.reads (.partflag4x4 p x y m f) = true → ∃ c, s.past (.partflag4x4 p x y m f) c = true
      ∧ (f ≤ 16 → exec (.partflag4x4 p x y m f) s = .next { s with
          cursor := c
          agenda := ((List.range 4).flatMap fun k =>
            .op (.predictBlock { plane := p, x := x + 4 * (k % 2), y := y + 4 * (k / 2), size := .four } m) ::
              if ((s.cfg.cbp4[f - 1]?).getD 0).getLsbD k then
                [.op (.applyResidual .start p (x + 4 * (k % 2)) (y + 4 * (k / 2)) .four)] else []) ++ s.agenda })
      ∧ (16 < f → exec (.partflag4x4 p x y m f) s = .next (State.raise { s with cursor := c } .formatError))

/-! ## Motion -/

/-- R250: `PMV` is, component by component, the middle one of the vectors at the three neighbouring columns. -/
def Obligations.PredictedVectorIsTheMedian : Prop :=
  ∀ (s : State) (a b c : MV), s.mvc[s.mbx]? = some a → s.mvc[s.mbx + 1]? = some b → s.mvc[s.mbx + 2]? = some c →
    ∃ v, exec .predictMV s = .next { s with pmv := v }
      ∧ isMiddle v.x.toInt a.x.toInt b.x.toInt c.x.toInt ∧ isMiddle v.y.toInt a.y.toInt b.y.toInt c.y.toInt

/-- R280, R256, R252, R96, R98: what follows a motion mode: its deltas, its operation, and, at macroblock level unless it is an
intra escape, the residual; a value above 9 raises `UnsupportedMode` at its operation. -/
def Obligations.MotionModeSchedules : Prop :=
  ∀ (s : State) (r : Rect) (v : Nat),
    (s.reads (.mvmode r v) = true → ∃ c, s.past (.mvmode r v) c = true
      ∧ exec (.mvmode r v) s = .next { s with
          cursor := c
          agenda := (if v = 0 ∨ 5 < v then [.mvValue r v] else [.mvdx, .mvdy, .mvValue r v])
            ++ (if (r.w, r.h) = (16, 16) ∧ v ≠ 6 ∧ v ≠ 7 then [.op .decodeResidualMB] else []) ++ s.agenda })
    ∧ ∀ rest, s.agenda = .mvValue r v :: rest → 9 < v → step s = .next (s.raise .unsupportedMode)

/-- R252, R253, R255: a leaf: the vector, the reference slot, the cache entry of the column, and the three copies, with the
chroma vector halved by an arithmetic shift. -/
def Obligations.LeafStoresItsVectorAndCopies : Prop :=
  ∀ (s : State) (r : Rect) (i : Instr) (k : Fin 6) (mv : MV),
    (i = .mvPred r ∧ k = 1 ∧ mv = s.pmv
      ∨ (i = .mvDelta1 r ∧ k = 1 ∨ i = .mvDelta2 r ∧ k = 2 ∨ i = .mvDelta3 r ∧ k = 3 ∨ i = .mvDelta4 r ∧ k = 4
          ∨ i = .mvDelta5 r ∧ k = 5) ∧ mv = { x := s.pmv.x + s.mvdx, y := s.pmv.y + s.mvdy }) →
    ∃ cmv : MV, cmv.x.toInt = mv.x.toInt / 2 ∧ cmv.y.toInt = mv.y.toInt / 2
      ∧ exec i s = .next { s with
          mvc := s.mvc.set (s.mbi % s.cfg.mbw + 1) mv
          agenda := [.op (.copyBlock k .luma r mv),
            .op (.copyBlock k .chromaU { x := r.x / 2, y := r.y / 2, w := r.w / 2, h := r.h / 2 } cmv),
            .op (.copyBlock k .chromaV { x := r.x / 2, y := r.y / 2, w := r.w / 2, h := r.h / 2 } cmv)] ++ s.agenda }

/-- R254: the half-pel copy, when every sample it needs and the destination lie inside the plane: the vector's integer part is
its floor half, each sample is halved before it is added, and with both half-pel bits the two horizontal averages are
averaged. -/
def Obligations.CopyBlockHalfPel : Prop :=
  ∀ (s : State) (k : Fin 6) (p : Plane) (r : Rect) (mv : MV), k ≠ 0 →
    let ix := mv.x.toInt / 2
    let iy := mv.y.toInt / 2
    let fx := mv.x.toInt % 2
    let fy := mv.y.toInt % 2
    0 ≤ r.x + ix → r.x + r.w + ix + fx ≤ planeWidth s.cfg p → 0 ≤ r.y + iy → r.y + r.h + iy + fy ≤ planeHeight s.cfg p →
    r.x + r.w ≤ planeWidth s.cfg p → r.y + r.h ≤ planeHeight s.cfg p →
    ∃ t, exec (.copyBlock k p r mv) s = .next t ∧ s.painted t p r.x r.y r.w r.h fun x y =>
      let q := fun i j : Int =>
        (s.byteAt k (pixAddr s.cfg p (r.x + x + ix + i).toNat (r.y + y + iy + j).toNat)).toNat
      BitVec.ofNat 8 (
        if fx = 0 then (if fy = 0 then q 0 0 else q 0 0 / 2 + q 0 1 / 2)
        else if fy = 0 then q 0 0 / 2 + q 1 0 / 2
        else (q 0 0 / 2 + q 1 0 / 2) / 2 + (q 0 1 / 2 + q 1 1 / 2) / 2)

/-- R254, R62, R316, R318: a sample outside the reference plane, or a pixel outside the destination, raises `InvalidGeometry`; the
source is never clamped. `sound x y`: all that the pixel `(x, y)` of the rectangle needs lies inside; `copied x y`: so does all
that every pixel up to it in raster order needs. The copied pixels hold their values (log 30); every other byte of slot 0 is as
before. -/
def Obligations.CopyBlockOutsideTraps : Prop :=
  ∀ (s : State) (k : Fin 6) (p : Plane) (r : Rect) (mv : MV), 0 < r.w → 0 < r.h →
    let ix := mv.x.toInt / 2
    let iy := mv.y.toInt / 2
    let fx := mv.x.toInt % 2
    let fy := mv.y.toInt % 2
    let sound := fun x y : Nat =>
      0 ≤ r.x + x + ix ∧ r.x + x + ix + fx < planeWidth s.cfg p ∧ 0 ≤ r.y + y + iy ∧ r.y + y + iy + fy < planeHeight s.cfg p
        ∧ r.x + x < planeWidth s.cfg p ∧ r.y + y < planeHeight s.cfg p
    let copied := fun x y : Nat => ∀ x' y', x' < r.w → (y' < y ∨ y' = y ∧ x' ≤ x) → sound x' y'
    (r.x + ix < 0 ∨ planeWidth s.cfg p < r.x + r.w + ix + fx ∨ r.y + iy < 0 ∨ planeHeight s.cfg p < r.y + r.h + iy + fy
      ∨ planeWidth s.cfg p < r.x + r.w ∨ planeHeight s.cfg p < r.y + r.h) →
    ∃ t, s.samePixelsAside t ∧ exec (.copyBlock k p r mv) s = .next (t.raise .invalidGeometry)
      ∧ (∀ a, (∀ x y, x < r.w → y < r.h → copied x y → a ≠ pixAddr s.cfg p (r.x + x) (r.y + y)) →
        t.byteAt 0 a = s.byteAt 0 a)
      ∧ (k ≠ 0 → ∀ x y, x < r.w → y < r.h → copied x y →
        let q := fun i j : Int =>
          (s.byteAt k (pixAddr s.cfg p (r.x + x + ix + i).toNat (r.y + y + iy + j).toNat)).toNat
        t.byteAt 0 (pixAddr s.cfg p (r.x + x) (r.y + y)) = BitVec.ofNat 8 (
          if fx = 0 then (if fy = 0 then q 0 0 else q 0 0 / 2 + q 0 1 / 2)
          else if fy = 0 then q 0 0 / 2 + q 1 0 / 2
          else (q 0 0 / 2 + q 1 0 / 2) / 2 + (q 0 1 / 2 + q 1 1 / 2) / 2))

/-- R256, R257: a split reads a mode for each half, upper or left first; a size without a tree is `UnsupportedMode`. -/
def Obligations.SplitsScheduleTheirHalves : Prop :=
  ∀ (s : State) (r : Rect),
    ((s.cfg.mvTree? r.w (r.h / 2)).isSome = true → exec (.mvSplitH r) s = .next { s with agenda :=
      [.mvmode { x := r.x, y := r.y, w := r.w, h := r.h / 2 },
        .mvmode { x := r.x, y := r.y + r.h / 2, w := r.w, h := r.h / 2 }] ++ s.agenda })
    ∧ (s.cfg.mvTree? r.w (r.h / 2) = none → exec (.mvSplitH r) s = .next (s.raise .unsupportedMode))
    ∧ ((s.cfg.mvTree? (r.w / 2) r.h).isSome = true → exec (.mvSplitW r) s = .next { s with agenda :=
      [.mvmode { x := r.x, y := r.y, w := r.w / 2, h := r.h },
        .mvmode { x := r.x + r.w / 2, y := r.y, w := r.w / 2, h := r.h }] ++ s.agenda })
    ∧ (s.cfg.mvTree? (r.w / 2) r.h = none → exec (.mvSplitW r) s = .next (s.raise .unsupportedMode))

/-- R281, R282: the intra escapes: the cache policy, then an intra macroblock; below macroblock level `UnsupportedMode`. -/
def Obligations.IntraEscapes : Prop :=
  ∀ (s : State) (r : Rect) (f : Bool),
    let i : Instr := if f then .mbIntraSub r else .mbIntra r
    (r.w = 16 ∧ r.h = 16 → exec i s = .next { s with
      mvc := if s.cfg.mvcIntra = .zero then s.mvc.set (s.mbi % s.cfg.mbw + 1) { x := 0, y := 0 } else s.mvc
      agenda := .op (.decodeIntraMB f) :: s.agenda })
    ∧ (¬ (r.w = 16 ∧ r.h = 16) → exec i s = .next (s.raise .unsupportedMode))

/-- R258: a macroblock of motion mode 0 with `PMV` = `(0,0)`, run to the end of its three copies, holds the co-located pixels of
slot 1 in all three planes; every byte of slot 0 outside its three rectangles is as before. -/
def Obligations.ZeroVectorCopiesTheCoLocatedMacroblock : Prop :=
  ∀ (s : State) (rest : List Sys2Proof.Task), s.cfg.wellFormed = true → s.mbi < s.mbTotal → s.pmv = { x := 0, y := 0 } →
    s.agenda = .mvValue s.mbRect 0 :: rest →
    let luma := fun x y : Nat => pixAddr s.cfg .luma (16 * s.mbx + x) (16 * s.mby + y)
    let chroma := fun (p : Plane) (x y : Nat) => pixAddr s.cfg p (8 * s.mbx + x) (8 * s.mby + y)
    ∃ t, steps 4 s = .next t
      ∧ t = { s with
          mvc := s.mvc.set (s.mbx + 1) { x := 0, y := 0 }
          agenda := rest
          ring := { s.ring with f0 := { s.ring.f0 with mem := t.ring.f0.mem } } }
      ∧ (∀ x y, x < 16 → y < 16 → t.byteAt 0 (luma x y) = s.byteAt 1 (luma x y))
      ∧ (∀ p, p ≠ .luma → ∀ x y, x < 8 → y < 8 → t.byteAt 0 (chroma p x y) = s.byteAt 1 (chroma p x y))
      ∧ ∀ a, (∀ x y, x < 16 → y < 16 → a ≠ luma x y) →
        (∀ p, p ≠ .luma → ∀ x y, x < 8 → y < 8 → a ≠ chroma p x y) → t.byteAt 0 a = s.byteAt 0 a

/-! ## Frames -/

/-- R290, R291, R23, R295, R297, R298: a call begins with the error latch clear and the cursor bound to its bytes; each
macroblock is followed by the next until all are done; then slot 0 gets the tag and is handed over. A second call while one runs
is refused (R347; the model's stop, log 12). -/
def Obligations.CallBeginsAndEnds : Prop :=
  ∀ (s : State),
    (∀ bytes, s.phase = .awaitFrame → exec (.decodeFrame (.start bytes)) s = .next { s with
      err := none
      phase := .readFrameTypeBit
      cursor := { input := bytes, acc := 0, nbits := 0, bytepos := 0, bitpos := 0 }
      mbi := 0
      handed := false
      agenda := [.ftype] })
    ∧ (∀ bytes, s.phase ≠ .awaitFrame → exec (.decodeFrame (.start bytes)) s = .refused .reentrantCall)
    ∧ (s.mbi < s.cfg.mbw * s.cfg.mbh →
      exec (.decodeFrame (.macroblocks .intra)) s
        = .next { s with agenda := [.subflag, .op (.decodeFrame (.macroblockDone .intra))] ++ s.agenda }
      ∧ exec (.decodeFrame (.macroblocks .inter)) s
        = .next { s with agenda := [.op .decodeInterMB, .op (.decodeFrame (.macroblockDone .inter))] ++ s.agenda })
    ∧ (∀ k, exec (.decodeFrame (.macroblockDone k)) s
        = .next { s with mbi := s.mbi + 1, agenda := .op (.decodeFrame (.macroblocks k)) :: s.agenda })
    ∧ (∀ k, s.cfg.mbw * s.cfg.mbh ≤ s.mbi → exec (.decodeFrame (.macroblocks k)) s
        = .next { s with agenda := .op (.decodeFrame .finish) :: s.agenda })
    ∧ exec (.decodeFrame .finish) s = .next { s with
        ring := { s.ring with f0 := { s.ring.f0 with tag := s.cs } }
        phase := .done
        agenda := .op (.decodeFrame .handOver) :: s.agenda }
    ∧ exec (.decodeFrame .handOver) s = .next { s with phase := .awaitFrame, handed := true }

/-- R292: after the rotation slot `k` holds what slot `k-1` held, with its tag; slot 0 is the buffer of slot 5, every byte of it
0. -/
def Obligations.RotationAndClear : Prop :=
  ∀ s : State, ∃ t, exec .rotateAndClear s = .next t ∧ t = { s with ring := t.ring }
    ∧ t.ring.f1 = s.ring.f0 ∧ t.ring.f2 = s.ring.f1 ∧ t.ring.f3 = s.ring.f2 ∧ t.ring.f4 = s.ring.f3
    ∧ t.ring.f5 = s.ring.f4 ∧ t.ring.f0.buf = s.ring.f5.buf ∧ t.ring.f0.tag = s.ring.f5.tag ∧ ∀ a, t.byteAt 0 a = 0

/-- R293, R295: the frame type, and the flag before an intra macroblock. -/
def Obligations.FrameTypeSelects : Prop :=
  ∀ s : State,
    (s.reads .ftypeI = true → ∃ c, s.past .ftypeI c = true ∧ exec .ftypeI s = .next { s with
      cursor := c, phase := .decodeIFrame, agenda := [.op .rotateAndClear, .csbit, .vlcbit, .qp6] ++ s.agenda })
    ∧ (s.reads .ftypeP = true → ∃ c, s.past .ftypeP c = true ∧ exec .ftypeP s = .next { s with
      cursor := c, phase := .decodePFrame, agenda := [.op .rotateAndClear, .qpdelta] ++ s.agenda })
    ∧ ∀ f, s.reads (.subflag f) = true → ∃ c, s.past (.subflag f) c = true
      ∧ exec (.subflag f) s = .next { s with cursor := c, agenda := .op (.decodeIntraMB f) :: s.agenda }

/-- R294, R314: the I-frame header. The carried registers are written together after the range check of the quantizer index; a
header that fails it leaves them as they were. -/
def Obligations.IFrameHeader : Prop :=
  ∀ s : State,
    (∀ f, s.reads (.csbit f) = true → ∃ c, s.past (.csbit f) c = true
      ∧ exec (.csbit f) s = .next { s with cursor := c, hdrCs := if f then .yCbCr else .yCoCg })
    ∧ (∀ f, s.reads (.vlcbit f) = true → ∃ c, s.past (.vlcbit f) c = true
      ∧ exec (.vlcbit f) s = .next { s with cursor := c, hdrVlc := f })
    ∧ ∀ q, s.reads (.qp6 q) = true → ∃ c, s.past (.qp6 q) c = true
      ∧ (s.cfg.qpMin ≤ q.toNat → q.toNat ≤ s.cfg.qpMax → exec (.qp6 q) s = .next { s with
          cursor := c
          cs := s.hdrCs
          vlcidx := s.hdrVlc
          qp := BitVec.ofNat 32 q.toNat
          hdrvalid := true
          agenda := [.op (.setQuantizer (BitVec.ofNat 32 q.toNat)), .op (.decodeFrame (.macroblocks .intra))] ++ s.agenda })
      ∧ (q.toNat < s.cfg.qpMin ∨ s.cfg.qpMax < q.toNat →
          exec (.qp6 q) s = .next (State.raise { s with cursor := c } .formatError))

/-- R296, R314, R32: the P-frame header. The delta is read first; without a key frame before, or with an index out of range, a
`FormatError`; else the index, carried on with `QP_ACCUMULATES`, and `MVC` all zero. -/
def Obligations.PFrameHeader : Prop :=
  ∀ (s : State) (d : Int), s.reads (.qpdelta d) = true → ∃ c, s.past (.qpdelta d) c = true
    ∧ (s.hdrvalid = false → exec (.qpdelta d) s = .next (State.raise { s with cursor := c } .formatError))
    ∧ (s.hdrvalid = true → s.cfg.qpMin ≤ s.qp.toInt → s.qp.toInt ≤ s.cfg.qpMax →
      (s.cfg.qpMin ≤ s.qp.toInt + d → s.qp.toInt + d ≤ s.cfg.qpMax → exec (.qpdelta d) s = .next { s with
        cursor := c
        qp := if s.cfg.qpAccumulates then BitVec.ofInt 32 (s.qp.toInt + d) else s.qp
        mvc := List.replicate (s.cfg.mbw + 2) { x := 0, y := 0 }
        agenda := [.op (.setQuantizer (BitVec.ofInt 32 (s.qp.toInt + d))), .op (.decodeFrame (.macroblocks .inter))]
          ++ s.agenda })
      ∧ (s.qp.toInt + d < s.cfg.qpMin ∨ s.cfg.qpMax < s.qp.toInt + d →
        exec (.qpdelta d) s = .next (State.raise { s with cursor := c } .formatError)))

/-! ## Exceptions -/

/-- R310, R311, R318, R319: taking an exception records the kind, its code, `BITPOS` and `MBI`, abandons the procedure, returns
to `AwaitFrame` without a frame, and changes nothing else. -/
def Obligations.ExceptionEntry : Prop :=
  ∀ (s : State) (e : ErrorKind), ∃ code, s.trap e = .next { s with
      err := some { kind := e, code := code, bitpos := s.cursor.bitpos, mbi := s.mbi }
      phase := .awaitFrame
      agenda := []
      handed := false }
    ∧ (e = .endOfStream → code = 1) ∧ (e = .formatError → code = 2) ∧ (e = .unsupportedMode → code = 3)
    ∧ (e = .invalidGeometry → code = 4)

/-! ## The whole machine -/

/-- R22: a step runs the instruction that the position decodes to, in the state with the position passed; an error of the
decoding is taken; between calls the caller's next byte range begins a call, and an idle block stays as it is. -/
def Obligations.StepRunsTheDecodedInstruction : Prop :=
  ∀ s : State,
    (∀ t rest i, s.agenda = t :: rest → decode s.ctx s.cursor t = .instr i →
      step s = exec i { s with agenda := rest })
    ∧ (∀ t rest e c, s.agenda = t :: rest → decode s.ctx s.cursor t = .trap e c →
      step s = .next (State.raise { s with cursor := c } e))
    ∧ (∀ bytes rest, s.agenda = [] → s.phase = .awaitFrame → s.calls = bytes :: rest →
      step s = exec (.decodeFrame (.start bytes)) { s with calls := rest })
    ∧ (s.agenda = [] → s.phase = .awaitFrame → s.calls = [] → step s = .next s)

/-- Decode and encode agree: at the position of any well-formed instruction, its code at the cursor decodes to it, every operand
at every value. -/
def Obligations.DecodeUndoesEncode : Prop :=
  ∀ (x : DecodeCtx) (c : Cursor) (i : Instr), x.cfg.wellFormed = true → c.ok x.cfg = true → i.wellFormed x = true →
    (encode x i).isPrefixOf (c.ahead x.cfg) = true → decode x c (i.task x) = .instr i

/-- R101, R147, R294, R166, R201: a few words decode to the instruction they stand for, each read at the position the model gives
a word of its value (log 10): words of the opcode table, and, for the codeword `00000011`, the ten bits `0000001100`. That code 3 is DC rests on the default `MODE_CODE` of R201, which the
spec takes from general knowledge (log 25). -/
def Obligations.TableWordsDecode : Prop :=
  decodeTableWord 8 1 = some .ftypeI ∧ decodeTableWord 8 0 = some .ftypeP ∧ decodeTableWord 8 26 = some (.qp6 26)
    ∧ decodeTableWord 16 12 = some .hsymT0x000 ∧ decodeTableWord 16 25 = some .hsymT0x802
    ∧ decodeTableWord 24 0 = some (.rsymRaw .four)
    ∧ decodeTableWord 8 3 = some (.predDC { plane := .luma, x := 16, y := 16, size := .eight })

/-- The invariant is kept by every step: the bit reader in order (R21, R120), the frame buffers in canonical form, the
sentinels of `MVC` at `(0,0)` (R253), `PRE` within the mode codes (R31), the carried quantizer index in range (R314), the scale
shifts legal shift amounts (R27), and the sequencer's position in order with `MBI` within the frame (R23, R28). -/
def Obligations.EveryStepKeepsTheInvariant : Prop :=
  ∀ s t : State, s.inv = true → step s = .next t → t.inv = true

/-- The invariant holds at reset, and the caller's submitting a byte range keeps it. The values of the registers R40 leaves
unwritten are the model's choice (log 7), the ROMs are open (log 5). -/
def Obligations.InvariantAtReset : Prop :=
  State.reset.inv = true ∧ ∀ (s : State) (bytes : List Byte), s.inv = true → (s.submit bytes).inv = true

/-- R320, R351: under the invariant every step answers a next state: no fault and no refusal, whatever the bits are. -/
def Obligations.EveryStepGoesOn : Prop :=
  ∀ s : State, s.inv = true → ∃ t, step s = .next t

/-- R24 to R27, R31 to R34, R253: which instructions write the header registers, `PRE`, `MVC`, `PMV` and `MAT`. -/
def Obligations.RegistersHaveNamedWriters : Prop :=
  ∀ (i : Instr) (s t : State), exec i s = .next t →
    ((∀ q, i ≠ .qp6 q) → t.cs = s.cs ∧ t.vlcidx = s.vlcidx ∧ t.hdrvalid = s.hdrvalid)
    ∧ ((∀ q, i ≠ .qp6 q) → (∀ d, i ≠ .qpdelta d) → t.qp = s.qp)
    ∧ ((∀ q, i ≠ .setQuantizer q) → t.qidx = s.qidx ∧ t.qsh4 = s.qsh4 ∧ t.qsh8 = s.qsh8)
    ∧ ((∀ b, i ≠ .mpmTaken b) → (∀ b r, i ≠ .mpmRem b r) → (∀ f, i ≠ .decodeIntraMB f) → t.pre = s.pre)
    ∧ ((∀ d, i ≠ .qpdelta d) → (∀ r, i ≠ .mvPred r) → (∀ r, i ≠ .mvDelta1 r) → (∀ r, i ≠ .mvDelta2 r) →
      (∀ r, i ≠ .mvDelta3 r) → (∀ r, i ≠ .mvDelta4 r) → (∀ r, i ≠ .mvDelta5 r) → (∀ r, i ≠ .mbIntra r) →
      (∀ r, i ≠ .mbIntraSub r) → t.mvc = s.mvc)
    ∧ (i ≠ .predictMV → t.pmv = s.pmv)
    ∧ ((∀ st n, i ≠ .residualDecode st n) → (∀ n, i ≠ .dequantize n) → (∀ n, i ≠ .inverseTransform n) → t.mat = s.mat)

/-- R36: the reference slots 1 to 5 change by the rotation alone, and only motion compensation reads them: any other instruction
does the same whatever they hold. -/
def Obligations.ReferenceSlotsAreReadByCopyOnly : Prop :=
  (∀ (i : Instr) (s t : State), i ≠ .rotateAndClear → exec i s = .next t →
    t.ring.f1 = s.ring.f1 ∧ t.ring.f2 = s.ring.f2 ∧ t.ring.f3 = s.ring.f3 ∧ t.ring.f4 = s.ring.f4 ∧ t.ring.f5 = s.ring.f5
      ∧ t.ring.f0.buf = s.ring.f0.buf)
  ∧ ∀ (i : Instr) (s : State) (r : Ring), i ≠ .rotateAndClear → (∀ k p c v, i ≠ .copyBlock k p c v) →
    exec i (s.withRefs r) = mapNext (fun t => t.withRefs r) (exec i s)

/-- R30, R22, R37: the configuration never changes; during a call no step rebinds the input or moves `BITPOS` backwards. -/
def Obligations.ConfigurationFixedAndBitposForward : Prop :=
  ∀ s t : State, step s = .next t → t.cfg = s.cfg
    ∧ (s.phase ≠ .awaitFrame → s.agenda ≠ [] → t.cursor.input = s.cursor.input ∧ s.cursor.bitpos ≤ t.cursor.bitpos)

/-- R300: an I-frame depends on no earlier frame: from its header on, any number of steps does the same whatever the reference
slots hold, to the end of the call. -/
def Obligations.IFrameDependsOnNoReference : Prop :=
  ∀ (s : State) (r : Ring) (n : Nat), s.calls = [] → s.agenda.all (intraTask s.cfg) = true →
    steps n (s.withRefs r) = mapNext (fun t => t.withRefs r) (steps n s)
end

