-- ==== Sys2Proof/Laws/Bits.lean ====
section
/-! SUPPORT. Bit strings and the refill: what one refill does to a cursor in order (40_bitcursor.md rules R120, R121). -/

namespace Sys2Proof

@[simp] theorem length_bitsOf : ∀ (n v : Nat), (bitsOf n v).length = n
  | 0, _ => rfl
  | n + 1, v => by simp [bitsOf, length_bitsOf n v]

theorem getElem?_bitsOf : ∀ (n v i : Nat), i < n → (bitsOf n v)[i]? = some (v.testBit (n - 1 - i))
  | 0, _, _, h => absurd h (Nat.not_lt_zero _)
  | n + 1, v, 0, _ => by simp [bitsOf]
  | n + 1, v, i + 1, h => by
    rw [bitsOf, List.getElem?_cons_succ, getElem?_bitsOf n v i (by omega)]
    congr 2
    omega

/-- Only the low `n` bits count. -/
theorem bitsOf_mod (n v : Nat) : bitsOf n (v % 2 ^ n) = bitsOf n v := by
  apply List.ext_getElem? 
  intro i
  by_cases h : i < n
  · rw [getElem?_bitsOf n _ i h, getElem?_bitsOf n _ i h, Nat.testBit_mod_two_pow]
    simp
    omega
  · rw [List.getElem?_eq_none (by simp; omega), List.getElem?_eq_none (by simp; omega)]

/-- The numeral of a concatenation. -/
theorem bitsOf_append (m n a b : Nat) (hb : b < 2 ^ n) : bitsOf (m + n) (2 ^ n * a + b) = bitsOf m a ++ bitsOf n b := by
  apply List.ext_getElem?
  intro i
  rcases Nat.lt_or_ge i m with h | h
  · rw [List.getElem?_append_left (by simpa using h), getElem?_bitsOf m a i h, getElem?_bitsOf _ _ i (by omega),
      Nat.testBit_two_pow_mul_add a hb]
    simp only [show ¬ (m + n - 1 - i < n) by omega, if_false]
    congr 2
    omega
  · rw [List.getElem?_append_right (by simpa using h)]
    rcases Nat.lt_or_ge i (m + n) with h' | h'
    · rw [getElem?_bitsOf _ _ i h', length_bitsOf, getElem?_bitsOf n b (i - m) (by omega),
        Nat.testBit_two_pow_mul_add a hb]
      simp only [show m + n - 1 - i < n by omega, if_true]
      congr 2
      omega
    · rw [List.getElem?_eq_none (by simp; omega), List.getElem?_eq_none (by simp; omega)]

theorem unitValue_lt_foldr : ∀ (bs : List Byte), bs.foldr (fun b a => b.toNat + 256 * a) 0 < 2 ^ (8 * bs.length)
  | [] => by simp
  | b :: bs => by
    have ih := unitValue_lt_foldr bs
    have hb : b.toNat < 256 := b.isLt
    simp only [List.foldr_cons, List.length_cons, Nat.mul_add, Nat.pow_add]
    norm_num at ih ⊢
    omega

theorem unitValue_lt_foldl (bs : List Byte) : ∀ (k a : Nat), a < 2 ^ (8 * k) →
    bs.foldl (fun a b => 256 * a + b.toNat) a < 2 ^ (8 * (k + bs.length)) := by
  induction bs with
  | nil => intro k a h; simpa using h
  | cons b bs ih =>
    intro k a h
    have hb : b.toNat < 256 := b.isLt
    have := ih (k + 1) (256 * a + b.toNat) (by
      rw [Nat.mul_add, Nat.pow_add]
      norm_num at h ⊢
      omega)
    simpa [Nat.add_assoc, Nat.add_comm 1] using this

/-- A unit's value is below `2^BLOCK_BITS`. -/
theorem unitValue_lt (e : Endian) (bs : List Byte) : unitValue e bs < 2 ^ (8 * bs.length) := by
  cases e
  · exact unitValue_lt_foldr bs
  · simpa [unitValue] using unitValue_lt_foldl bs 0 0 (by simp)

theorem BlockBits.bits_eq (b : BlockBits) : b.bits = 8 * b.bytes := by cases b <;> rfl

theorem BlockBits.bytes_pos (b : BlockBits) : 0 < b.bytes := by cases b <;> decide

theorem BlockBits.bits_le (b : BlockBits) : b.bits ≤ 32 := by cases b <;> decide

theorem flatMap_range_drop {α : Type} (f : Nat → List α) (w : Nat) (hf : ∀ j, (f j).length = w) :
    ∀ (n j : Nat), j ≤ n → ((List.range n).flatMap f).drop (j * w) = ((List.range (n - j)).flatMap fun i => f (i + j)) := by
  intro n
  induction n with
  | zero => intro j h; simp
  | succ n ih =>
    intro j h
    rcases Nat.lt_or_ge n j with hj | hj
    · have : j = n + 1 := by omega
      subst this
      simp only [Nat.sub_self, List.range_zero, List.flatMap_nil]
      apply List.drop_eq_nil_of_le
      simp [List.length_flatMap, hf]
    · rw [List.range_succ, List.flatMap_append, List.drop_append_of_le_length, ih j hj,
        show n + 1 - j = (n - j) + 1 by omega, List.range_succ, List.flatMap_append]
      · simp [hj]
      · simp [List.length_flatMap, hf]
        exact Nat.mul_le_mul_right w hj

/-- `STREAM` from a unit boundary on, while a whole unit is left: that unit's bits first. -/
theorem streamOf_drop_unit (cfg : Config) (input : List Byte) (j : Nat)
    (h : (j + 1) * cfg.blockBits.bytes ≤ input.length) :
    ((streamOf cfg input).drop (j * cfg.blockBits.bits)).take cfg.blockBits.bits
      = bitsOf cfg.blockBits.bits
          (unitValue cfg.unitEndian ((input.drop (j * cfg.blockBits.bytes)).take cfg.blockBits.bytes)) := by
  have hj : j + 1 ≤ input.length / cfg.blockBits.bytes := (Nat.le_div_iff_mul_le cfg.blockBits.bytes_pos).mpr h
  unfold streamOf
  dsimp only
  rw [flatMap_range_drop _ cfg.blockBits.bits (fun _ => length_bitsOf _ _) _ j (by omega),
    show input.length / cfg.blockBits.bytes - j = (input.length / cfg.blockBits.bytes - j - 1) + 1 by omega,
    List.range_succ_eq_map, List.flatMap_cons, List.take_append_of_le_length (by simp), List.take_of_length_le (by simp)]
  simp

theorem length_streamOf (cfg : Config) (input : List Byte) :
    (streamOf cfg input).length = input.length / cfg.blockBits.bytes * cfg.blockBits.bits := by
  simp [streamOf, List.length_flatMap]

/-- What a cursor in order satisfies, as propositions. -/
theorem Cursor.ok_iff (cfg : Config) (c : Cursor) : c.ok cfg = true ↔
    c.bitpos + c.nbits = 8 * c.bytepos ∧ c.bytepos ≤ c.input.length ∧ c.bytepos % cfg.blockBits.bytes = 0
      ∧ c.nbits < cfg.blockBits.bits + 32 ∧ c.acc.toNat < 2 ^ c.nbits
      ∧ bitsOf c.nbits c.acc.toNat = (c.ahead cfg).take c.nbits := by
  simp [Cursor.ok, and_assoc]

/-- A successful refill of a cursor in order with fewer than 32 bits: `BLOCK_BITS` more bits buffered, nothing delivered, in
order again (R121). -/
theorem Cursor.refill_ok (cfg : Config) (c c' : Cursor) (hok : c.ok cfg = true) (hn : c.nbits < 32)
    (h : c.refill cfg = .ok () c') :
    c'.ok cfg = true ∧ c'.input = c.input ∧ c'.bitpos = c.bitpos ∧ c'.nbits = c.nbits + cfg.blockBits.bits := by
  obtain ⟨h1, h2, h3, h4, h5, h6⟩ := (c.ok_iff cfg).mp hok
  unfold Cursor.refill at h
  dsimp only at h
  split at h
  · simp at h
  · rename_i hlen
    simp only [ReadOut.ok.injEq, true_and] at h
    subst h
    refine ⟨?_, rfl, rfl, rfl⟩
    have hB := cfg.blockBits.bits_le
    have hBk := cfg.blockBits.bits_eq
    set k := cfg.blockBits.bytes with hk
    set B := cfg.blockBits.bits with hBdef
    obtain ⟨j, hj⟩ : ∃ j, c.bytepos = j * k := ⟨c.bytepos / k, (Nat.div_mul_cancel (Nat.dvd_of_mod_eq_zero h3)).symm⟩
    have hul : ((c.input.drop c.bytepos).take k).length = k := by simp; omega
    have hu : unitValue cfg.unitEndian ((c.input.drop c.bytepos).take k) < 2 ^ B := by
      have := unitValue_lt cfg.unitEndian ((c.input.drop c.bytepos).take k)
      rwa [hul, ← hBk] at this
    have hacc : ((c.acc <<< B) ||| BitVec.ofNat 64 (unitValue cfg.unitEndian ((c.input.drop c.bytepos).take k))).toNat
        = 2 ^ B * c.acc.toNat + unitValue cfg.unitEndian ((c.input.drop c.bytepos).take k) := by
      have h64 : c.acc.toNat * 2 ^ B < 2 ^ 64 :=
        calc c.acc.toNat * 2 ^ B < 2 ^ c.nbits * 2 ^ B := Nat.mul_lt_mul_of_pos_right h5 (by positivity)
          _ = 2 ^ (c.nbits + B) := (pow_add _ _ _).symm
          _ ≤ 2 ^ 64 := Nat.pow_le_pow_right (by norm_num) (by omega)
      have hu64 : unitValue cfg.unitEndian ((c.input.drop c.bytepos).take k) < 2 ^ 64 :=
        lt_of_lt_of_le hu (Nat.pow_le_pow_right (by norm_num) (by omega))
      rw [BitVec.toNat_or, BitVec.toNat_shiftLeft, BitVec.toNat_ofNat, Nat.shiftLeft_eq, Nat.mod_eq_of_lt h64,
        Nat.mod_eq_of_lt hu64, Nat.mul_comm, Nat.two_pow_add_eq_or_of_lt hu]
    rw [Cursor.ok_iff]
    dsimp only
    rw [hacc]
    refine ⟨by omega, by omega, by rw [Nat.add_mod]; simp [h3, ← hk], by omega, ?_, ?_⟩
    · rw [pow_add]
      have : 2 ^ B * c.acc.toNat + 2 ^ B ≤ 2 ^ B * 2 ^ c.nbits := by
        rw [← Nat.mul_succ]
        exact Nat.mul_le_mul_left _ h5
      rw [Nat.mul_comm (2 ^ c.nbits)]
      omega
    · rw [bitsOf_append _ _ _ _ hu, h6]
      simp only [Cursor.ahead]
      rw [List.take_add, List.drop_drop, h1]
      congr 1
      have hs := streamOf_drop_unit cfg c.input j (by rw [Nat.add_mul, ← hk, ← hj]; omega)
      rw [← hk, ← hBdef, ← hj] at hs
      rw [← hs, hBk, hj]
      congr 2
      ring

/-- A failing refill moves nothing; no whole unit is left (R121). -/
theorem Cursor.refill_err (cfg : Config) (c c' : Cursor) (e : ErrorKind) (h : c.refill cfg = .err e c') :
    c' = c ∧ e = .endOfStream ∧ c.input.length < c.bytepos + cfg.blockBits.bytes := by
  unfold Cursor.refill at h
  dsimp only at h
  split at h
  · rename_i hl
    simp only [ReadOut.err.injEq] at h
    exact ⟨h.2.symm, h.1.symm, hl⟩
  · simp at h

/-- Filling keeps the cursor in order and delivers nothing, whether it succeeds or fails (R121, R122). -/
theorem Cursor.fill_keeps (cfg : Config) (n : Nat) (hn : n ≤ 32) : ∀ (k : Nat) (c : Cursor), c.ok cfg = true →
    ∀ c', (c.fill cfg n k = .ok () c' ∨ ∃ e, c.fill cfg n k = .err e c') →
      c'.ok cfg = true ∧ c'.input = c.input ∧ c'.bitpos = c.bitpos
  | 0, c, hok, c', h => by
    rcases h with h | ⟨e, h⟩ <;> simp [Cursor.fill] at h
    subst h
    exact ⟨hok, rfl, rfl⟩
  | k + 1, c, hok, c', h => by
    simp only [Cursor.fill] at h
    by_cases hlt : c.nbits < n
    · simp only [hlt, if_true] at h
      cases hr : c.refill cfg with
      | err e d =>
        rw [hr] at h
        rcases h with h | ⟨e', h⟩ <;> simp at h
        obtain ⟨-, rfl⟩ := h
        obtain ⟨rfl, -, -⟩ := c.refill_err cfg d e hr
        exact ⟨hok, rfl, rfl⟩
      | ok u d =>
        rw [hr] at h
        obtain ⟨h1, h2, h3, -⟩ := c.refill_ok cfg d hok (by omega) hr
        obtain ⟨g1, g2, g3⟩ := Cursor.fill_keeps cfg n hn k d h1 c' h
        exact ⟨g1, g2.trans h2, g3.trans h3⟩
    · simp only [hlt, if_false] at h
      rcases h with h | ⟨e, h⟩ <;> simp at h
      subst h
      exact ⟨hok, rfl, rfl⟩

end Sys2Proof
end

