-- ==== Sys2Proof/Laws/Config.lean ====
section
/-! SUPPORT. The configuration of `State.reset` is legal, whatever its open ROMs hold: each open tree is built so that it
meets the constraints of 00_scope.md rule R7. -/

namespace Sys2Proof

/-- Pruning a pruned tree changes nothing. -/
theorem HuffTree.prune_prune : ∀ t : HuffTree, t.prune.prune = t.prune
  | .absent => rfl
  | .leaf _ => rfl
  | .node l r => by
    have hl := prune_prune l
    have hr := prune_prune r
    simp only [HuffTree.prune]
    split
    · rfl
    · rename_i h
      simp only [HuffTree.prune, hl, hr]

/-- A node is live when both sides are and one of them is there. -/
theorem HuffTree.live_node (l r : HuffTree) :
    (HuffTree.node l r).live = ((l != .absent || r != .absent) && l.live && r.live) := by
  cases l <;> cases r <;> rfl

/-- Pruning leaves no dead ends. -/
theorem HuffTree.live_prune : ∀ t : HuffTree, t.prune.live = true
  | .absent => rfl
  | .leaf _ => rfl
  | .node l r => by
    have hl := live_prune l
    have hr := live_prune r
    simp only [HuffTree.prune]
    split
    · rfl
    · rename_i h
      simp only [HuffTree.live_node, hl, hr, Bool.and_true, Bool.or_eq_true, bne_iff_ne, ne_eq]
      exact Classical.not_and_iff_not_or_not.mp fun q => h q.1 q.2

/-- A tree that pruning leaves as it is has no dead ends. -/
theorem HuffTree.live_of_prune {t : HuffTree} (h : t.prune = t) : t.live = true := h ▸ HuffTree.live_prune t

/-- Every leaf of a pruned tree is a leaf of the tree. -/
theorem HuffTree.mem_leaves_prune : ∀ (t : HuffTree) {p : List Bool × Nat}, p ∈ t.prune.leaves → p ∈ t.leaves
  | .absent, _, h => h
  | .leaf _, _, h => h
  | .node l r, p, h => by
    have hl := @mem_leaves_prune l
    have hr := @mem_leaves_prune r
    simp only [HuffTree.prune] at h
    split at h
    · simp [HuffTree.leaves] at h
    · simp only [HuffTree.leaves, List.mem_append, List.mem_map] at h ⊢
      rcases h with ⟨q, hq, rfl⟩ | ⟨q, hq, rfl⟩
      · exact .inl ⟨q, hl hq, rfl⟩
      · exact .inr ⟨q, hr hq, rfl⟩

/-- Bounded values are below the bound. -/
theorem HuffTree.leaves_boundValues (m : Nat) (hm : 0 < m) : ∀ (t : HuffTree) {p : List Bool × Nat},
    p ∈ (t.boundValues m).leaves → p.2 < m
  | .absent, _, h => by simp [HuffTree.boundValues, HuffTree.leaves] at h
  | .leaf v, p, h => by
    simp only [HuffTree.boundValues, HuffTree.leaves, List.mem_singleton] at h
    subst h
    exact Nat.mod_lt _ hm
  | .node l r, p, h => by
    simp only [HuffTree.boundValues, HuffTree.leaves, List.mem_append, List.mem_map] at h
    rcases h with ⟨q, hq, rfl⟩ | ⟨q, hq, rfl⟩
    · exact leaves_boundValues m hm l (p := q) hq
    · exact leaves_boundValues m hm r (p := q) hq

/-- The values of an open tree are below its bound. -/
theorem HuffTree.leaves_open (m : Nat) (hm : 0 < m) (t : HuffTree) : ∀ p ∈ (t.boundValues m).prune.leaves, p.2 < m :=
  fun _ h => HuffTree.leaves_boundValues m hm t (HuffTree.mem_leaves_prune _ h)

/-- The values of a node are those of its two sides. -/
theorem HuffTree.values_node (l r : HuffTree) (m : Nat) : (∀ p ∈ (HuffTree.node l r).leaves, p.2 < m) ↔
    (∀ p ∈ l.leaves, p.2 < m) ∧ ∀ p ∈ r.leaves, p.2 < m := by
  simp only [HuffTree.leaves, List.mem_append, List.mem_map]
  constructor
  · exact fun h => ⟨fun p hp => h (false :: p.1, p.2) (.inl ⟨p, hp, rfl⟩),
      fun p hp => h (true :: p.1, p.2) (.inr ⟨p, hp, rfl⟩)⟩
  · rintro ⟨h1, h2⟩ _ (⟨p, hp, rfl⟩ | ⟨p, hp, rfl⟩)
    · exact h1 p hp
    · exact h2 p hp

/-- A node over two trees without dead ends has none, or is the empty tree. -/
theorem HuffTree.prune_node (l r : HuffTree) (hl : l.prune = l) (hr : r.prune = r) :
    ((HuffTree.node l r).live || HuffTree.node l r == .node .absent .absent) = true := by
  have h1 := HuffTree.live_of_prune hl
  have h2 := HuffTree.live_of_prune hr
  rw [HuffTree.live_node, h1, h2]
  cases l <;> cases r <;> simp

/-- A node with a side that is no dead end has none. -/
theorem HuffTree.prune_node_left (l r : HuffTree) (hl : l.prune = l) (hr : r.prune = r) (h : l ≠ .absent) :
    (HuffTree.node l r).prune = .node l r := by
  cases l <;> cases r <;> simp_all [HuffTree.prune]

theorem HuffTree.prune_node_right (l r : HuffTree) (hl : l.prune = l) (hr : r.prune = r) (h : r ≠ .absent) :
    (HuffTree.node l r).prune = .node l r := by
  cases l <;> cases r <;> simp_all [HuffTree.prune]

theorem Config.openRes_prune (t : Bool) (k : Nat) : (Config.openRes t k).prune = Config.openRes t k :=
  HuffTree.prune_prune _

theorem Config.openRes_leaves (t : Bool) (k : Nat) : ∀ p ∈ (Config.openRes t k).leaves, p.2 < 4096 :=
  HuffTree.leaves_open 4096 (by decide) _

/-- `HUFF_RES[0]` of reset has no dead end. -/
theorem Config.resTree0_prune : Config.resTree0.prune = Config.resTree0 := by
  simp only [Config.resTree0]
  have o := Config.openRes_prune false
  have mark := HuffTree.prune_node_right _ _ (o 0)
    (HuffTree.prune_node_right (Config.openRes false 1) (.leaf 0) (o 1) rfl (by simp)) (by simp)
  have d := HuffTree.prune_node_left _ _
    (HuffTree.prune_node_left _ _ (HuffTree.prune_node_right _ (.leaf 0x802) (o 2) rfl (by simp)) (o 3) (by simp)) (o 4)
    (by simp)
  have pair := HuffTree.prune_node_left _ _ mark
    (HuffTree.prune_node_right _ _ (o 5) d (by simp)) (by simp)
  exact HuffTree.prune_node_left _ _ (HuffTree.prune_node_left _ _ (HuffTree.prune_node_left _ _
    (HuffTree.prune_node_left _ _ (HuffTree.prune_node_left _ _ pair (o 6) (by simp)) (o 7) (by simp)) (o 8) (by simp))
    (o 9) (by simp)) (o 10) (by simp)

theorem Config.resTree0_wellFormed : (HuffRom.mk Config.resTree0 none).wellFormed 4096 = true := by
  have o := Config.openRes_leaves false
  simp only [HuffRom.wellFormed, Bool.and_eq_true, Bool.or_eq_true, beq_iff_eq, List.all_eq_true, decide_eq_true_eq,
    and_true]
  refine ⟨⟨rfl, .inl (HuffTree.live_of_prune Config.resTree0_prune)⟩, ?_⟩
  have leaf : ∀ v, v < 4096 → ∀ p ∈ (HuffTree.leaf v).leaves, p.2 < 4096 := by
    intro v hv p hp
    simp only [HuffTree.leaves, List.mem_singleton] at hp
    subst hp
    exact hv
  simp only [Config.resTree0, HuffTree.values_node]
  refine ⟨⟨⟨⟨⟨⟨⟨o 0, o 1, leaf _ (by decide)⟩, o 5, ⟨⟨o 2, leaf _ (by decide)⟩, o 3⟩, o 4⟩, o 6⟩, o 7⟩, o 8⟩, o 9⟩, o 10⟩

theorem Config.resTree1_wellFormed : (HuffRom.mk Config.resTree1 none).wellFormed 4096 = true := by
  have o := Config.openRes_leaves true
  simp only [HuffRom.wellFormed, Bool.and_eq_true, List.all_eq_true, decide_eq_true_eq, and_true]
  refine ⟨⟨rfl, HuffTree.prune_node _ _ (Config.openRes_prune true 0) (Config.openRes_prune true 1)⟩, fun p hp => ?_⟩
  simp only [Config.resTree1, HuffTree.leaves, List.mem_append, List.mem_map] at hp
  rcases hp with ⟨q, hq, rfl⟩ | ⟨q, hq, rfl⟩ <;> exact o _ q hq

theorem Config.openMvRom_wellFormed (stereo : Bool) (w h : Nat) : (Config.openMvRom stereo w h).wellFormed 10 = true := by
  simp only [HuffRom.wellFormed, Bool.and_eq_true, List.all_eq_true, decide_eq_true_eq, and_true, Config.openMvRom]
  refine ⟨⟨rfl, HuffTree.prune_node _ _ (HuffTree.prune_prune _) (HuffTree.prune_prune _)⟩, fun p hp => ?_⟩
  simp only [HuffTree.leaves, List.mem_append, List.mem_map] at hp
  rcases hp with ⟨q, hq, rfl⟩ | ⟨q, hq, rfl⟩ <;> exact HuffTree.leaves_open 10 (by decide) _ q hq

theorem ofFn_equiv_nodup {n : Nat} (f : Equiv.Perm (Fin n)) : (Vector.ofFn fun i => f i).toList.Nodup := by
  rw [Vector.toList_ofFn, List.nodup_ofFn]
  exact f.injective

/-- The configuration of reset is legal. -/
theorem Config.constructed_wellFormed : Config.constructed.wellFormed = true := by
  have h0 := Config.resTree0_wellFormed
  have h1 := Config.resTree1_wellFormed
  have k0 : Config.resTree0.leaves.contains (printedCode000, 0x000) = true := by
    simp [Config.resTree0, HuffTree.leaves, printedCode000]
  have k1 : Config.resTree0.leaves.contains (printedCode802, 0x802) = true := by
    simp [Config.resTree0, HuffTree.leaves, printedCode802]
  have trees : ∀ t ∈ Config.constructed.mvTrees, (t.w, t.h) ∈ Config.mvSizeCandidates
      ∧ t.plain = Config.openMvRom false t.w t.h ∧ t.stereo = Config.openMvRom true t.w t.h := by
    intro t ht
    simp only [Config.constructed, List.mem_map, List.mem_filter] at ht
    obtain ⟨q, hq, rfl⟩ := ht
    exact ⟨hq.1, rfl, rfl⟩
  have dims : ∀ q ∈ Config.mvSizeCandidates, mvDimension q.1 = true ∧ mvDimension q.2 = true := by decide
  have sizes : Config.constructed.mvTrees.map (fun t => (t.w, t.h))
      = Config.mvSizeCandidates.filter fun q => q == (16, 16) || Config.openMvSize q.1 q.2 := by
    simp only [Config.constructed, List.map_map]
    exact List.map_id _
  simp only [Config.wellFormed, Bool.and_eq_true, and_assoc]
  refine ⟨?_, ?_, ?_, ?_, ?_, ?_, ?_, ?_, ?_, ?_, ?_, ?_, ?_, ?_, ?_, ?_, ?_, ?_, ?_, ?_, ?_, ?_, ?_⟩
  case refine_22 => exact decide_eq_true (ofFn_equiv_nodup _)
  case refine_23 => exact decide_eq_true (ofFn_equiv_nodup _)
  case refine_12 =>
    simp [Config.constructed, Vector.toList_ofFn]
  case refine_13 =>
    simp [Config.constructed, Vector.toList_ofFn]
  case refine_15 =>
    rw [List.all_eq_true]
    intro t ht
    obtain ⟨hm, hp, hs⟩ := trees t ht
    rw [hp, hs, Config.openMvRom_wellFormed, Config.openMvRom_wellFormed, (dims _ hm).1, (dims _ hm).2]
    rfl
  case refine_16 =>
    rw [sizes]
    exact decide_eq_true (List.Nodup.filter _ (by decide))
  all_goals first | rfl | exact h0 | exact h1 | exact k0 | exact k1

end Sys2Proof
end

