-- ==== Sys2Proof/Laws/State.lean ====
section
/-! SUPPORT. One lemma per field per named update of the state, so that no proof unfolds one. -/

namespace Sys2Proof.Machine

variable (s : State)

/-! ## `State.push` -/

@[simp] theorem State.push_cfg (ts : List Task) : (s.push ts).cfg = s.cfg := rfl
@[simp] theorem State.push_cursor (ts : List Task) : (s.push ts).cursor = s.cursor := rfl
@[simp] theorem State.push_mbi (ts : List Task) : (s.push ts).mbi = s.mbi := rfl
@[simp] theorem State.push_qp (ts : List Task) : (s.push ts).qp = s.qp := rfl
@[simp] theorem State.push_cs (ts : List Task) : (s.push ts).cs = s.cs := rfl
@[simp] theorem State.push_vlcidx (ts : List Task) : (s.push ts).vlcidx = s.vlcidx := rfl
@[simp] theorem State.push_hdrvalid (ts : List Task) : (s.push ts).hdrvalid = s.hdrvalid := rfl
@[simp] theorem State.push_qidx (ts : List Task) : (s.push ts).qidx = s.qidx := rfl
@[simp] theorem State.push_qsh4 (ts : List Task) : (s.push ts).qsh4 = s.qsh4 := rfl
@[simp] theorem State.push_qsh8 (ts : List Task) : (s.push ts).qsh8 = s.qsh8 := rfl
@[simp] theorem State.push_phase (ts : List Task) : (s.push ts).phase = s.phase := rfl
@[simp] theorem State.push_err (ts : List Task) : (s.push ts).err = s.err := rfl
@[simp] theorem State.push_pre (ts : List Task) : (s.push ts).pre = s.pre := rfl
@[simp] theorem State.push_mvc (ts : List Task) : (s.push ts).mvc = s.mvc := rfl
@[simp] theorem State.push_pmv (ts : List Task) : (s.push ts).pmv = s.pmv := rfl
@[simp] theorem State.push_mat (ts : List Task) : (s.push ts).mat = s.mat := rfl
@[simp] theorem State.push_ring (ts : List Task) : (s.push ts).ring = s.ring := rfl
@[simp] theorem State.push_calls (ts : List Task) : (s.push ts).calls = s.calls := rfl
@[simp] theorem State.push_agenda (ts : List Task) : (s.push ts).agenda = ts ++ s.agenda := rfl
@[simp] theorem State.push_handed (ts : List Task) : (s.push ts).handed = s.handed := rfl
@[simp] theorem State.push_val (ts : List Task) : (s.push ts).val = s.val := rfl
@[simp] theorem State.push_hdrCs (ts : List Task) : (s.push ts).hdrCs = s.hdrCs := rfl
@[simp] theorem State.push_hdrVlc (ts : List Task) : (s.push ts).hdrVlc = s.hdrVlc := rfl
@[simp] theorem State.push_cbpMask (ts : List Task) : (s.push ts).cbpMask = s.cbpMask := rfl
@[simp] theorem State.push_planeDelta (ts : List Task) : (s.push ts).planeDelta = s.planeDelta := rfl
@[simp] theorem State.push_mvdx (ts : List Task) : (s.push ts).mvdx = s.mvdx := rfl
@[simp] theorem State.push_mvdy (ts : List Task) : (s.push ts).mvdy = s.mvdy := rfl
@[simp] theorem State.push_symEnd (ts : List Task) : (s.push ts).symEnd = s.symEnd := rfl
@[simp] theorem State.push_symRun (ts : List Task) : (s.push ts).symRun = s.symRun := rfl
@[simp] theorem State.push_symAmp (ts : List Task) : (s.push ts).symAmp = s.symAmp := rfl
@[simp] theorem State.push_zpos (ts : List Task) : (s.push ts).zpos = s.zpos := rfl

/-! ## `State.raise` -/

@[simp] theorem State.raise_cfg (e : ErrorKind) : (s.raise e).cfg = s.cfg := rfl
@[simp] theorem State.raise_cursor (e : ErrorKind) : (s.raise e).cursor = s.cursor := rfl
@[simp] theorem State.raise_mbi (e : ErrorKind) : (s.raise e).mbi = s.mbi := rfl
@[simp] theorem State.raise_qp (e : ErrorKind) : (s.raise e).qp = s.qp := rfl
@[simp] theorem State.raise_cs (e : ErrorKind) : (s.raise e).cs = s.cs := rfl
@[simp] theorem State.raise_vlcidx (e : ErrorKind) : (s.raise e).vlcidx = s.vlcidx := rfl
@[simp] theorem State.raise_hdrvalid (e : ErrorKind) : (s.raise e).hdrvalid = s.hdrvalid := rfl
@[simp] theorem State.raise_qidx (e : ErrorKind) : (s.raise e).qidx = s.qidx := rfl
@[simp] theorem State.raise_qsh4 (e : ErrorKind) : (s.raise e).qsh4 = s.qsh4 := rfl
@[simp] theorem State.raise_qsh8 (e : ErrorKind) : (s.raise e).qsh8 = s.qsh8 := rfl
@[simp] theorem State.raise_phase (e : ErrorKind) : (s.raise e).phase = .awaitFrame := rfl
@[simp] theorem State.raise_err (e : ErrorKind) : (s.raise e).err =
    some { kind := e, code := errorCode e, bitpos := s.cursor.bitpos, mbi := s.mbi } := rfl
@[simp] theorem State.raise_pre (e : ErrorKind) : (s.raise e).pre = s.pre := rfl
@[simp] theorem State.raise_mvc (e : ErrorKind) : (s.raise e).mvc = s.mvc := rfl
@[simp] theorem State.raise_pmv (e : ErrorKind) : (s.raise e).pmv = s.pmv := rfl
@[simp] theorem State.raise_mat (e : ErrorKind) : (s.raise e).mat = s.mat := rfl
@[simp] theorem State.raise_ring (e : ErrorKind) : (s.raise e).ring = s.ring := rfl
@[simp] theorem State.raise_calls (e : ErrorKind) : (s.raise e).calls = s.calls := rfl
@[simp] theorem State.raise_agenda (e : ErrorKind) : (s.raise e).agenda = [] := rfl
@[simp] theorem State.raise_handed (e : ErrorKind) : (s.raise e).handed = false := rfl
@[simp] theorem State.raise_val (e : ErrorKind) : (s.raise e).val = s.val := rfl
@[simp] theorem State.raise_hdrCs (e : ErrorKind) : (s.raise e).hdrCs = s.hdrCs := rfl
@[simp] theorem State.raise_hdrVlc (e : ErrorKind) : (s.raise e).hdrVlc = s.hdrVlc := rfl
@[simp] theorem State.raise_cbpMask (e : ErrorKind) : (s.raise e).cbpMask = s.cbpMask := rfl
@[simp] theorem State.raise_planeDelta (e : ErrorKind) : (s.raise e).planeDelta = s.planeDelta := rfl
@[simp] theorem State.raise_mvdx (e : ErrorKind) : (s.raise e).mvdx = s.mvdx := rfl
@[simp] theorem State.raise_mvdy (e : ErrorKind) : (s.raise e).mvdy = s.mvdy := rfl
@[simp] theorem State.raise_symEnd (e : ErrorKind) : (s.raise e).symEnd = s.symEnd := rfl
@[simp] theorem State.raise_symRun (e : ErrorKind) : (s.raise e).symRun = s.symRun := rfl
@[simp] theorem State.raise_symAmp (e : ErrorKind) : (s.raise e).symAmp = s.symAmp := rfl
@[simp] theorem State.raise_zpos (e : ErrorKind) : (s.raise e).zpos = s.zpos := rfl

/-! ## `State.storeByte` -/

@[simp] theorem State.storeByte_cfg (a : Nat) (v : Byte) : (s.storeByte a v).cfg = s.cfg := rfl
@[simp] theorem State.storeByte_cursor (a : Nat) (v : Byte) : (s.storeByte a v).cursor = s.cursor := rfl
@[simp] theorem State.storeByte_mbi (a : Nat) (v : Byte) : (s.storeByte a v).mbi = s.mbi := rfl
@[simp] theorem State.storeByte_qp (a : Nat) (v : Byte) : (s.storeByte a v).qp = s.qp := rfl
@[simp] theorem State.storeByte_cs (a : Nat) (v : Byte) : (s.storeByte a v).cs = s.cs := rfl
@[simp] theorem State.storeByte_vlcidx (a : Nat) (v : Byte) : (s.storeByte a v).vlcidx = s.vlcidx := rfl
@[simp] theorem State.storeByte_hdrvalid (a : Nat) (v : Byte) : (s.storeByte a v).hdrvalid = s.hdrvalid := rfl
@[simp] theorem State.storeByte_qidx (a : Nat) (v : Byte) : (s.storeByte a v).qidx = s.qidx := rfl
@[simp] theorem State.storeByte_qsh4 (a : Nat) (v : Byte) : (s.storeByte a v).qsh4 = s.qsh4 := rfl
@[simp] theorem State.storeByte_qsh8 (a : Nat) (v : Byte) : (s.storeByte a v).qsh8 = s.qsh8 := rfl
@[simp] theorem State.storeByte_phase (a : Nat) (v : Byte) : (s.storeByte a v).phase = s.phase := rfl
@[simp] theorem State.storeByte_err (a : Nat) (v : Byte) : (s.storeByte a v).err = s.err := rfl
@[simp] theorem State.storeByte_pre (a : Nat) (v : Byte) : (s.storeByte a v).pre = s.pre := rfl
@[simp] theorem State.storeByte_mvc (a : Nat) (v : Byte) : (s.storeByte a v).mvc = s.mvc := rfl
@[simp] theorem State.storeByte_pmv (a : Nat) (v : Byte) : (s.storeByte a v).pmv = s.pmv := rfl
@[simp] theorem State.storeByte_mat (a : Nat) (v : Byte) : (s.storeByte a v).mat = s.mat := rfl
@[simp] theorem State.storeByte_ring (a : Nat) (v : Byte) : (s.storeByte a v).ring =
    { s.ring with f0 := s.ring.f0.write s.cfg.ringInit a v } := rfl
@[simp] theorem State.storeByte_calls (a : Nat) (v : Byte) : (s.storeByte a v).calls = s.calls := rfl
@[simp] theorem State.storeByte_agenda (a : Nat) (v : Byte) : (s.storeByte a v).agenda = s.agenda := rfl
@[simp] theorem State.storeByte_handed (a : Nat) (v : Byte) : (s.storeByte a v).handed = s.handed := rfl
@[simp] theorem State.storeByte_val (a : Nat) (v : Byte) : (s.storeByte a v).val = s.val := rfl
@[simp] theorem State.storeByte_hdrCs (a : Nat) (v : Byte) : (s.storeByte a v).hdrCs = s.hdrCs := rfl
@[simp] theorem State.storeByte_hdrVlc (a : Nat) (v : Byte) : (s.storeByte a v).hdrVlc = s.hdrVlc := rfl
@[simp] theorem State.storeByte_cbpMask (a : Nat) (v : Byte) : (s.storeByte a v).cbpMask = s.cbpMask := rfl
@[simp] theorem State.storeByte_planeDelta (a : Nat) (v : Byte) : (s.storeByte a v).planeDelta = s.planeDelta := rfl
@[simp] theorem State.storeByte_mvdx (a : Nat) (v : Byte) : (s.storeByte a v).mvdx = s.mvdx := rfl
@[simp] theorem State.storeByte_mvdy (a : Nat) (v : Byte) : (s.storeByte a v).mvdy = s.mvdy := rfl
@[simp] theorem State.storeByte_symEnd (a : Nat) (v : Byte) : (s.storeByte a v).symEnd = s.symEnd := rfl
@[simp] theorem State.storeByte_symRun (a : Nat) (v : Byte) : (s.storeByte a v).symRun = s.symRun := rfl
@[simp] theorem State.storeByte_symAmp (a : Nat) (v : Byte) : (s.storeByte a v).symAmp = s.symAmp := rfl
@[simp] theorem State.storeByte_zpos (a : Nat) (v : Byte) : (s.storeByte a v).zpos = s.zpos := rfl

/-! ## `State.setMvc` -/

@[simp] theorem State.setMvc_cfg (mv : MV) : (s.setMvc mv).cfg = s.cfg := rfl
@[simp] theorem State.setMvc_cursor (mv : MV) : (s.setMvc mv).cursor = s.cursor := rfl
@[simp] theorem State.setMvc_mbi (mv : MV) : (s.setMvc mv).mbi = s.mbi := rfl
@[simp] theorem State.setMvc_qp (mv : MV) : (s.setMvc mv).qp = s.qp := rfl
@[simp] theorem State.setMvc_cs (mv : MV) : (s.setMvc mv).cs = s.cs := rfl
@[simp] theorem State.setMvc_vlcidx (mv : MV) : (s.setMvc mv).vlcidx = s.vlcidx := rfl
@[simp] theorem State.setMvc_hdrvalid (mv : MV) : (s.setMvc mv).hdrvalid = s.hdrvalid := rfl
@[simp] theorem State.setMvc_qidx (mv : MV) : (s.setMvc mv).qidx = s.qidx := rfl
@[simp] theorem State.setMvc_qsh4 (mv : MV) : (s.setMvc mv).qsh4 = s.qsh4 := rfl
@[simp] theorem State.setMvc_qsh8 (mv : MV) : (s.setMvc mv).qsh8 = s.qsh8 := rfl
@[simp] theorem State.setMvc_phase (mv : MV) : (s.setMvc mv).phase = s.phase := rfl
@[simp] theorem State.setMvc_err (mv : MV) : (s.setMvc mv).err = s.err := rfl
@[simp] theorem State.setMvc_pre (mv : MV) : (s.setMvc mv).pre = s.pre := rfl
@[simp] theorem State.setMvc_mvc (mv : MV) : (s.setMvc mv).mvc = s.mvc.set (s.mbx + 1) mv := rfl
@[simp] theorem State.setMvc_pmv (mv : MV) : (s.setMvc mv).pmv = s.pmv := rfl
@[simp] theorem State.setMvc_mat (mv : MV) : (s.setMvc mv).mat = s.mat := rfl
@[simp] theorem State.setMvc_ring (mv : MV) : (s.setMvc mv).ring = s.ring := rfl
@[simp] theorem State.setMvc_calls (mv : MV) : (s.setMvc mv).calls = s.calls := rfl
@[simp] theorem State.setMvc_agenda (mv : MV) : (s.setMvc mv).agenda = s.agenda := rfl
@[simp] theorem State.setMvc_handed (mv : MV) : (s.setMvc mv).handed = s.handed := rfl
@[simp] theorem State.setMvc_val (mv : MV) : (s.setMvc mv).val = s.val := rfl
@[simp] theorem State.setMvc_hdrCs (mv : MV) : (s.setMvc mv).hdrCs = s.hdrCs := rfl
@[simp] theorem State.setMvc_hdrVlc (mv : MV) : (s.setMvc mv).hdrVlc = s.hdrVlc := rfl
@[simp] theorem State.setMvc_cbpMask (mv : MV) : (s.setMvc mv).cbpMask = s.cbpMask := rfl
@[simp] theorem State.setMvc_planeDelta (mv : MV) : (s.setMvc mv).planeDelta = s.planeDelta := rfl
@[simp] theorem State.setMvc_mvdx (mv : MV) : (s.setMvc mv).mvdx = s.mvdx := rfl
@[simp] theorem State.setMvc_mvdy (mv : MV) : (s.setMvc mv).mvdy = s.mvdy := rfl
@[simp] theorem State.setMvc_symEnd (mv : MV) : (s.setMvc mv).symEnd = s.symEnd := rfl
@[simp] theorem State.setMvc_symRun (mv : MV) : (s.setMvc mv).symRun = s.symRun := rfl
@[simp] theorem State.setMvc_symAmp (mv : MV) : (s.setMvc mv).symAmp = s.symAmp := rfl
@[simp] theorem State.setMvc_zpos (mv : MV) : (s.setMvc mv).zpos = s.zpos := rfl

/-! ## `State.latchSymbol` -/

@[simp] theorem State.latchSymbol_cfg (n : BitVec 12) : (s.latchSymbol n).cfg = s.cfg := rfl
@[simp] theorem State.latchSymbol_cursor (n : BitVec 12) : (s.latchSymbol n).cursor = s.cursor := rfl
@[simp] theorem State.latchSymbol_mbi (n : BitVec 12) : (s.latchSymbol n).mbi = s.mbi := rfl
@[simp] theorem State.latchSymbol_qp (n : BitVec 12) : (s.latchSymbol n).qp = s.qp := rfl
@[simp] theorem State.latchSymbol_cs (n : BitVec 12) : (s.latchSymbol n).cs = s.cs := rfl
@[simp] theorem State.latchSymbol_vlcidx (n : BitVec 12) : (s.latchSymbol n).vlcidx = s.vlcidx := rfl
@[simp] theorem State.latchSymbol_hdrvalid (n : BitVec 12) : (s.latchSymbol n).hdrvalid = s.hdrvalid := rfl
@[simp] theorem State.latchSymbol_qidx (n : BitVec 12) : (s.latchSymbol n).qidx = s.qidx := rfl
@[simp] theorem State.latchSymbol_qsh4 (n : BitVec 12) : (s.latchSymbol n).qsh4 = s.qsh4 := rfl
@[simp] theorem State.latchSymbol_qsh8 (n : BitVec 12) : (s.latchSymbol n).qsh8 = s.qsh8 := rfl
@[simp] theorem State.latchSymbol_phase (n : BitVec 12) : (s.latchSymbol n).phase = s.phase := rfl
@[simp] theorem State.latchSymbol_err (n : BitVec 12) : (s.latchSymbol n).err = s.err := rfl
@[simp] theorem State.latchSymbol_pre (n : BitVec 12) : (s.latchSymbol n).pre = s.pre := rfl
@[simp] theorem State.latchSymbol_mvc (n : BitVec 12) : (s.latchSymbol n).mvc = s.mvc := rfl
@[simp] theorem State.latchSymbol_pmv (n : BitVec 12) : (s.latchSymbol n).pmv = s.pmv := rfl
@[simp] theorem State.latchSymbol_mat (n : BitVec 12) : (s.latchSymbol n).mat = s.mat := rfl
@[simp] theorem State.latchSymbol_ring (n : BitVec 12) : (s.latchSymbol n).ring = s.ring := rfl
@[simp] theorem State.latchSymbol_calls (n : BitVec 12) : (s.latchSymbol n).calls = s.calls := rfl
@[simp] theorem State.latchSymbol_agenda (n : BitVec 12) : (s.latchSymbol n).agenda = s.agenda := rfl
@[simp] theorem State.latchSymbol_handed (n : BitVec 12) : (s.latchSymbol n).handed = s.handed := rfl
@[simp] theorem State.latchSymbol_val (n : BitVec 12) : (s.latchSymbol n).val = s.val := rfl
@[simp] theorem State.latchSymbol_hdrCs (n : BitVec 12) : (s.latchSymbol n).hdrCs = s.hdrCs := rfl
@[simp] theorem State.latchSymbol_hdrVlc (n : BitVec 12) : (s.latchSymbol n).hdrVlc = s.hdrVlc := rfl
@[simp] theorem State.latchSymbol_cbpMask (n : BitVec 12) : (s.latchSymbol n).cbpMask = s.cbpMask := rfl
@[simp] theorem State.latchSymbol_planeDelta (n : BitVec 12) : (s.latchSymbol n).planeDelta = s.planeDelta := rfl
@[simp] theorem State.latchSymbol_mvdx (n : BitVec 12) : (s.latchSymbol n).mvdx = s.mvdx := rfl
@[simp] theorem State.latchSymbol_mvdy (n : BitVec 12) : (s.latchSymbol n).mvdy = s.mvdy := rfl
@[simp] theorem State.latchSymbol_symEnd (n : BitVec 12) : (s.latchSymbol n).symEnd = symbolEnd n := rfl
@[simp] theorem State.latchSymbol_symRun (n : BitVec 12) : (s.latchSymbol n).symRun = symbolRun n := rfl
@[simp] theorem State.latchSymbol_symAmp (n : BitVec 12) : (s.latchSymbol n).symAmp = symbolAmp n := rfl
@[simp] theorem State.latchSymbol_zpos (n : BitVec 12) : (s.latchSymbol n).zpos = s.zpos := rfl

/-! ## `State.submit` -/

@[simp] theorem State.submit_cfg (bytes : List Byte) : (s.submit bytes).cfg = s.cfg := rfl
@[simp] theorem State.submit_cursor (bytes : List Byte) : (s.submit bytes).cursor = s.cursor := rfl
@[simp] theorem State.submit_mbi (bytes : List Byte) : (s.submit bytes).mbi = s.mbi := rfl
@[simp] theorem State.submit_qp (bytes : List Byte) : (s.submit bytes).qp = s.qp := rfl
@[simp] theorem State.submit_cs (bytes : List Byte) : (s.submit bytes).cs = s.cs := rfl
@[simp] theorem State.submit_vlcidx (bytes : List Byte) : (s.submit bytes).vlcidx = s.vlcidx := rfl
@[simp] theorem State.submit_hdrvalid (bytes : List Byte) : (s.submit bytes).hdrvalid = s.hdrvalid := rfl
@[simp] theorem State.submit_qidx (bytes : List Byte) : (s.submit bytes).qidx = s.qidx := rfl
@[simp] theorem State.submit_qsh4 (bytes : List Byte) : (s.submit bytes).qsh4 = s.qsh4 := rfl
@[simp] theorem State.submit_qsh8 (bytes : List Byte) : (s.submit bytes).qsh8 = s.qsh8 := rfl
@[simp] theorem State.submit_phase (bytes : List Byte) : (s.submit bytes).phase = s.phase := rfl
@[simp] theorem State.submit_err (bytes : List Byte) : (s.submit bytes).err = s.err := rfl
@[simp] theorem State.submit_pre (bytes : List Byte) : (s.submit bytes).pre = s.pre := rfl
@[simp] theorem State.submit_mvc (bytes : List Byte) : (s.submit bytes).mvc = s.mvc := rfl
@[simp] theorem State.submit_pmv (bytes : List Byte) : (s.submit bytes).pmv = s.pmv := rfl
@[simp] theorem State.submit_mat (bytes : List Byte) : (s.submit bytes).mat = s.mat := rfl
@[simp] theorem State.submit_ring (bytes : List Byte) : (s.submit bytes).ring = s.ring := rfl
@[simp] theorem State.submit_calls (bytes : List Byte) : (s.submit bytes).calls = s.calls ++ [bytes] := rfl
@[simp] theorem State.submit_agenda (bytes : List Byte) : (s.submit bytes).agenda = s.agenda := rfl
@[simp] theorem State.submit_handed (bytes : List Byte) : (s.submit bytes).handed = s.handed := rfl
@[simp] theorem State.submit_val (bytes : List Byte) : (s.submit bytes).val = s.val := rfl
@[simp] theorem State.submit_hdrCs (bytes : List Byte) : (s.submit bytes).hdrCs = s.hdrCs := rfl
@[simp] theorem State.submit_hdrVlc (bytes : List Byte) : (s.submit bytes).hdrVlc = s.hdrVlc := rfl
@[simp] theorem State.submit_cbpMask (bytes : List Byte) : (s.submit bytes).cbpMask = s.cbpMask := rfl
@[simp] theorem State.submit_planeDelta (bytes : List Byte) : (s.submit bytes).planeDelta = s.planeDelta := rfl
@[simp] theorem State.submit_mvdx (bytes : List Byte) : (s.submit bytes).mvdx = s.mvdx := rfl
@[simp] theorem State.submit_mvdy (bytes : List Byte) : (s.submit bytes).mvdy = s.mvdy := rfl
@[simp] theorem State.submit_symEnd (bytes : List Byte) : (s.submit bytes).symEnd = s.symEnd := rfl
@[simp] theorem State.submit_symRun (bytes : List Byte) : (s.submit bytes).symRun = s.symRun := rfl
@[simp] theorem State.submit_symAmp (bytes : List Byte) : (s.submit bytes).symAmp = s.symAmp := rfl
@[simp] theorem State.submit_zpos (bytes : List Byte) : (s.submit bytes).zpos = s.zpos := rfl

/-! ## `State.recordMode`: every field but `pre` -/

/-- Recording a mode changes `PRE` only. -/
theorem State.recordMode_eq (b : Block) (a : Nat) : s.recordMode b a = { s with pre := (s.recordMode b a).pre } := by
  unfold State.recordMode
  dsimp only
  split <;> rfl

@[simp] theorem State.recordMode_cfg (b : Block) (a : Nat) : (s.recordMode b a).cfg = s.cfg := by rw [s.recordMode_eq b a]
@[simp] theorem State.recordMode_cursor (b : Block) (a : Nat) : (s.recordMode b a).cursor = s.cursor := by rw [s.recordMode_eq b a]
@[simp] theorem State.recordMode_mbi (b : Block) (a : Nat) : (s.recordMode b a).mbi = s.mbi := by rw [s.recordMode_eq b a]
@[simp] theorem State.recordMode_qp (b : Block) (a : Nat) : (s.recordMode b a).qp = s.qp := by rw [s.recordMode_eq b a]
@[simp] theorem State.recordMode_cs (b : Block) (a : Nat) : (s.recordMode b a).cs = s.cs := by rw [s.recordMode_eq b a]
@[simp] theorem State.recordMode_vlcidx (b : Block) (a : Nat) : (s.recordMode b a).vlcidx = s.vlcidx := by rw [s.recordMode_eq b a]
@[simp] theorem State.recordMode_hdrvalid (b : Block) (a : Nat) : (s.recordMode b a).hdrvalid = s.hdrvalid := by rw [s.recordMode_eq b a]
@[simp] theorem State.recordMode_qidx (b : Block) (a : Nat) : (s.recordMode b a).qidx = s.qidx := by rw [s.recordMode_eq b a]
@[simp] theorem State.recordMode_qsh4 (b : Block) (a : Nat) : (s.recordMode b a).qsh4 = s.qsh4 := by rw [s.recordMode_eq b a]
@[simp] theorem State.recordMode_qsh8 (b : Block) (a : Nat) : (s.recordMode b a).qsh8 = s.qsh8 := by rw [s.recordMode_eq b a]
@[simp] theorem State.recordMode_phase (b : Block) (a : Nat) : (s.recordMode b a).phase = s.phase := by rw [s.recordMode_eq b a]
@[simp] theorem State.recordMode_err (b : Block) (a : Nat) : (s.recordMode b a).err = s.err := by rw [s.recordMode_eq b a]
@[simp] theorem State.recordMode_mvc (b : Block) (a : Nat) : (s.recordMode b a).mvc = s.mvc := by rw [s.recordMode_eq b a]
@[simp] theorem State.recordMode_pmv (b : Block) (a : Nat) : (s.recordMode b a).pmv = s.pmv := by rw [s.recordMode_eq b a]
@[simp] theorem State.recordMode_mat (b : Block) (a : Nat) : (s.recordMode b a).mat = s.mat := by rw [s.recordMode_eq b a]
@[simp] theorem State.recordMode_ring (b : Block) (a : Nat) : (s.recordMode b a).ring = s.ring := by rw [s.recordMode_eq b a]
@[simp] theorem State.recordMode_calls (b : Block) (a : Nat) : (s.recordMode b a).calls = s.calls := by rw [s.recordMode_eq b a]
@[simp] theorem State.recordMode_agenda (b : Block) (a : Nat) : (s.recordMode b a).agenda = s.agenda := by rw [s.recordMode_eq b a]
@[simp] theorem State.recordMode_handed (b : Block) (a : Nat) : (s.recordMode b a).handed = s.handed := by rw [s.recordMode_eq b a]
@[simp] theorem State.recordMode_val (b : Block) (a : Nat) : (s.recordMode b a).val = s.val := by rw [s.recordMode_eq b a]
@[simp] theorem State.recordMode_hdrCs (b : Block) (a : Nat) : (s.recordMode b a).hdrCs = s.hdrCs := by rw [s.recordMode_eq b a]
@[simp] theorem State.recordMode_hdrVlc (b : Block) (a : Nat) : (s.recordMode b a).hdrVlc = s.hdrVlc := by rw [s.recordMode_eq b a]
@[simp] theorem State.recordMode_cbpMask (b : Block) (a : Nat) : (s.recordMode b a).cbpMask = s.cbpMask := by rw [s.recordMode_eq b a]
@[simp] theorem State.recordMode_planeDelta (b : Block) (a : Nat) : (s.recordMode b a).planeDelta = s.planeDelta := by rw [s.recordMode_eq b a]
@[simp] theorem State.recordMode_mvdx (b : Block) (a : Nat) : (s.recordMode b a).mvdx = s.mvdx := by rw [s.recordMode_eq b a]
@[simp] theorem State.recordMode_mvdy (b : Block) (a : Nat) : (s.recordMode b a).mvdy = s.mvdy := by rw [s.recordMode_eq b a]
@[simp] theorem State.recordMode_symEnd (b : Block) (a : Nat) : (s.recordMode b a).symEnd = s.symEnd := by rw [s.recordMode_eq b a]
@[simp] theorem State.recordMode_symRun (b : Block) (a : Nat) : (s.recordMode b a).symRun = s.symRun := by rw [s.recordMode_eq b a]
@[simp] theorem State.recordMode_symAmp (b : Block) (a : Nat) : (s.recordMode b a).symAmp = s.symAmp := by rw [s.recordMode_eq b a]
@[simp] theorem State.recordMode_zpos (b : Block) (a : Nat) : (s.recordMode b a).zpos = s.zpos := by rw [s.recordMode_eq b a]

end Sys2Proof.Machine
end

