-- ==== Sys2Proof/Laws/Memory.lean ====
section
/-! SUPPORT. What the memory operations do, once: a byte read after a write, the canonical form kept by every operation, and
the run of pixel writes `paint`. -/

namespace Sys2Proof.Machine

/-! ## Reading after writing -/

theorem cellsRead_filter_ne (blank : Nat → Byte) (a b : Nat) (h : b ≠ a) (cells : List Host.Cell) :
    cellsRead blank (cells.filter fun c => c.1 != a) b = cellsRead blank cells b := by
  induction cells with
  | nil => rfl
  | cons c rest ih =>
    obtain ⟨k, v⟩ := c
    by_cases hk : k = a
    · subst hk
      simp [cellsRead, h, ih]
    · simp [cellsRead, hk, ih]

theorem cellsRead_filter_self (blank : Nat → Byte) (a : Nat) (cells : List Host.Cell) :
    cellsRead blank (cells.filter fun c => c.1 != a) a = blank a := by
  induction cells with
  | nil => rfl
  | cons c rest ih =>
    obtain ⟨k, v⟩ := c
    by_cases hk : k = a
    · subst hk
      simp [ih]
    · simp [cellsRead, hk, Ne.symm hk, ih]

theorem cellsRead_insert_ne (blank : Nat → Byte) (a b : Nat) (v : Byte) (h : b ≠ a) (cells : List Host.Cell) :
    cellsRead blank (cellsInsert a v cells) b = cellsRead blank cells b := by
  induction cells with
  | nil => simp [cellsInsert, cellsRead, h]
  | cons c rest ih =>
    obtain ⟨k, w⟩ := c
    unfold cellsInsert
    split
    · simp [cellsRead, h]
    · simp [cellsRead, ih]

theorem cellsRead_insert_self (blank : Nat → Byte) (a : Nat) (v : Byte) (cells : List Host.Cell)
    (h : ∀ c ∈ cells, c.1 ≠ a) : cellsRead blank (cellsInsert a v cells) a = v := by
  induction cells with
  | nil => simp [cellsInsert, cellsRead]
  | cons c rest ih =>
    obtain ⟨k, w⟩ := c
    have hk : k ≠ a := h (k, w) (by simp)
    unfold cellsInsert
    split
    · simp [cellsRead]
    · simp [cellsRead, Ne.symm hk]
      exact ih fun c hc => h c (by simp [hc])

/-- Read after write: the byte written at its own address, every other byte as before. -/
theorem cellsRead_write (blank : Nat → Byte) (cells : List Host.Cell) (a b : Nat) (v : Byte) :
    cellsRead blank (cellsWrite blank cells a v) b = if b = a then v else cellsRead blank cells b := by
  unfold cellsWrite
  by_cases h : b = a
  · subst h
    by_cases hv : v = blank b
    · simp [hv, cellsRead_filter_self]
    · simp only [hv, if_false, if_true]
      exact cellsRead_insert_self blank b v _ (by simp)
  · by_cases hv : v = blank a
    · simp [hv, h, cellsRead_filter_ne blank a b h]
    · simp [hv, h, cellsRead_insert_ne blank a b v h, cellsRead_filter_ne blank a b h]

/-! ## The canonical form -/

theorem cellsSorted_mono {lo lo' : Nat} (h : lo' ≤ lo) : ∀ {cells : List Host.Cell}, cellsSorted lo cells = true →
    cellsSorted lo' cells = true
  | [], _ => rfl
  | (a, _) :: rest, hs => by
    simp only [cellsSorted, Bool.and_eq_true, decide_eq_true_eq] at hs ⊢
    exact ⟨le_trans h hs.1, hs.2⟩

theorem cellsSorted_filter (p : Host.Cell → Bool) : ∀ (lo : Nat) (cells : List Host.Cell), cellsSorted lo cells = true →
    cellsSorted lo (cells.filter p) = true
  | _, [], _ => rfl
  | lo, (a, v) :: rest, hs => by
    simp only [cellsSorted, Bool.and_eq_true, decide_eq_true_eq] at hs
    have ih := cellsSorted_filter p (a + 1) rest hs.2
    by_cases hp : p (a, v) = true
    · simp [hp, cellsSorted, hs.1, ih]
    · simp only [List.filter_cons, hp]
      exact cellsSorted_mono (by omega) ih

theorem cellsSorted_insert (a : Nat) (v : Byte) : ∀ (lo : Nat) (cells : List Host.Cell), lo ≤ a →
    cellsSorted lo cells = true → (∀ c ∈ cells, c.1 ≠ a) → cellsSorted lo (cellsInsert a v cells) = true
  | lo, [], h, _, _ => by simp [cellsInsert, cellsSorted, h]
  | lo, (b, w) :: rest, h, hs, hn => by
    simp only [cellsSorted, Bool.and_eq_true, decide_eq_true_eq] at hs
    have hb : b ≠ a := hn (b, w) (by simp)
    unfold cellsInsert
    split
    · rename_i hlt
      simp [cellsSorted, h, hs.2]
      omega
    · simp only [cellsSorted, Bool.and_eq_true, decide_eq_true_eq]
      exact ⟨hs.1, cellsSorted_insert a v (b + 1) rest (by omega) hs.2 fun c hc => hn c (by simp [hc])⟩

theorem mem_cellsInsert {a : Nat} {v : Byte} {c : Host.Cell} : ∀ {cells : List Host.Cell}, c ∈ cellsInsert a v cells →
    c = (a, v) ∨ c ∈ cells
  | [], h => by simpa [cellsInsert] using h
  | (b, w) :: rest, h => by
    unfold cellsInsert at h
    split at h
    · simpa using h
    · rcases List.mem_cons.mp h with h | h
      · simp [h]
      · rcases mem_cellsInsert h with h | h
        · simp [h]
        · simp [h]

/-- A write keeps the canonical form. -/
theorem wf_write (blank : Nat → Byte) (m : Memory) (a : Nat) (v : Byte) (h : m.wf blank = true) :
    Memory.wf blank { cells := cellsWrite blank m.cells a v } = true := by
  simp only [Memory.wf, Bool.and_eq_true, List.all_eq_true] at h ⊢
  unfold cellsWrite
  dsimp only
  have hf := cellsSorted_filter (fun c => c.1 != a) 0 m.cells h.1
  split
  · exact ⟨hf, fun c hc => h.2 c (List.mem_of_mem_filter hc)⟩
  · rename_i hv
    refine ⟨cellsSorted_insert a v 0 _ (Nat.zero_le _) hf (by simp), fun c hc => ?_⟩
    rcases mem_cellsInsert hc with rfl | hc
    · simpa using hv
    · exact h.2 c (List.mem_of_mem_filter hc)

/-- Writing a byte of a buffer keeps its canonical form. -/
theorem FrameBuf.write_wf (init : RingInit) (f : FrameBuf) (a : Nat) (v : Byte) (h : f.mem.wf (f.blank init) = true) :
    (f.write init a v).mem.wf ((f.write init a v).blank init) = true :=
  wf_write (f.blank init) f.mem a v h

/-- A cleared buffer is in canonical form. -/
theorem FrameBuf.clear_wf (init : RingInit) (f : FrameBuf) : f.clear.mem.wf (f.clear.blank init) = true := rfl

/-- An allocated buffer is in canonical form. -/
theorem FrameBuf.allocated_wf (init : RingInit) (k : Nat) :
    (FrameBuf.allocated k).mem.wf ((FrameBuf.allocated k).blank init) = true := rfl

/-- The memory of `State.reset` has the canonical form, in every slot. -/
theorem reset_memory_wf (k : Fin 6) :
    (State.reset.ring.at k).mem.wf ((State.reset.ring.at k).blank State.reset.cfg.ringInit) = true := by
  fin_cases k <;> rfl

/-- A cleared buffer reads 0 everywhere (R292). -/
@[simp] theorem FrameBuf.read_clear (init : RingInit) (f : FrameBuf) (a : Nat) : f.clear.read init a = 0 := rfl

/-- Read after write in a buffer. -/
@[simp] theorem FrameBuf.read_write (init : RingInit) (f : FrameBuf) (a b : Nat) (v : Byte) :
    (f.write init a v).read init b = if b = a then v else f.read init b :=
  cellsRead_write (f.blank init) f.mem.cells a b v

/-! ## Bytes of the ring -/

/-- Read after write in slot 0. -/
@[simp] theorem State.byteAt_storeByte (s : State) (a b : Nat) (v : Byte) :
    (s.storeByte a v).byteAt 0 b = if b = a then v else s.byteAt 0 b :=
  FrameBuf.read_write s.cfg.ringInit s.ring.f0 a b v

/-- The other slots are not written. -/
theorem State.ring_at_storeByte (s : State) (a : Nat) (v : Byte) (k : Fin 6) (h : k ≠ 0) :
    (s.storeByte a v).ring.at k = s.ring.at k := by
  fin_cases k <;> first | exact absurd rfl h | rfl

/-- Inside the plane a pixel write is a byte write at `pixAddr`; outside there is none (R62). -/
theorem State.setPix_eq (s : State) (p : Plane) (x y : Nat) (v : Byte) :
    s.setPix p x y v = if x < planeWidth s.cfg p ∧ y < planeHeight s.cfg p then some (s.storeByte (pixAddr s.cfg p x y) v)
      else none := rfl

/-- Inside the plane a pixel reads the byte at `pixAddr` (R62). -/
theorem State.pix_of_inside (s : State) (k : Fin 6) (p : Plane) (x y : Nat) (hx : x < planeWidth s.cfg p)
    (hy : y < planeHeight s.cfg p) : s.pix k p x y = some (s.byteAt k (pixAddr s.cfg p x y)) := by
  simp [State.pix, hx, hy]

/-- Two pixels of a plane with one address are one pixel. -/
theorem pixAddr_inj (cfg : Config) (p : Plane) {x y x' y' : Nat} (hx : x < planeWidth cfg p) (hx' : x' < planeWidth cfg p)
    (h : pixAddr cfg p x y = pixAddr cfg p x' y') : x = x' ∧ y = y' := by
  simp only [pixAddr] at h
  have h1 : y * planeWidth cfg p + x = y' * planeWidth cfg p + x' := by omega
  have h2 := congrArg (· % planeWidth cfg p) h1
  have h3 := congrArg (· / planeWidth cfg p) h1
  have hw : 0 < planeWidth cfg p := by omega
  simp only [Nat.add_comm (_ * _), Nat.add_mul_mod_self_right, Nat.mod_eq_of_lt hx,
    Nat.mod_eq_of_lt hx', Nat.add_mul_div_right _ _ hw, Nat.div_eq_of_lt hx, Nat.div_eq_of_lt hx', Nat.zero_add] at h2 h3
  exact ⟨h2, h3⟩

/-! ## Runs of pixel writes -/

/-- A run of pixel writes changes the memory of slot 0 and nothing else, whether it is done or stopped. -/
theorem State.paint_frame (p : Plane) (x0 y0 : Nat) (f : State → Nat → Nat → Option Byte) :
    ∀ (cs : List (Nat × Nat)) (s t : State), (State.paint p x0 y0 f cs s = .done t ∨ State.paint p x0 y0 f cs s = .bad t) →
      t = { s with ring := { s.ring with f0 := { s.ring.f0 with mem := t.ring.f0.mem } } }
  | [], s, t, h => by
    rcases h with h | h <;> simp [State.paint] at h
    subst h
    rfl
  | (x, y) :: rest, s, t, h => by
    simp only [State.paint] at h
    split at h
    · rcases h with h | h <;> simp at h
      subst h
      rfl
    · split at h
      · rcases h with h | h <;> simp at h
        subst h
        rfl
      · rename_i s' hs
        have ih := State.paint_frame p x0 y0 f rest s' t h
        simp only [State.setPix] at hs
        split at hs
        · simp only [Option.some.injEq] at hs
          subst hs
          exact ih
        · simp at hs

/-- A byte of slot 0 that is no pixel of the run is unchanged by it. -/
theorem State.paint_outside (p : Plane) (x0 y0 : Nat) (f : State → Nat → Nat → Option Byte) (a : Nat) :
    ∀ (cs : List (Nat × Nat)) (s t : State), (∀ c ∈ cs, a ≠ pixAddr s.cfg p (x0 + c.1) (y0 + c.2)) →
      (State.paint p x0 y0 f cs s = .done t ∨ State.paint p x0 y0 f cs s = .bad t) → t.byteAt 0 a = s.byteAt 0 a
  | [], s, t, _, h => by
    rcases h with h | h <;> simp [State.paint] at h
    subst h
    rfl
  | (x, y) :: rest, s, t, ha, h => by
    simp only [State.paint] at h
    split at h
    · rcases h with h | h <;> simp at h
      subst h
      rfl
    · split at h
      · rcases h with h | h <;> simp at h
        subst h
        rfl
      · rename_i v _ _ s' hs
        simp only [State.setPix] at hs
        split at hs
        · simp only [Option.some.injEq] at hs
          subst hs
          have hrest : ∀ c ∈ rest, a ≠ pixAddr (s.storeByte (pixAddr s.cfg p (x0 + x) (y0 + y)) v).cfg p (x0 + c.1)
              (y0 + c.2) := fun c hc => ha c (by simp [hc])
          rw [State.paint_outside p x0 y0 f a rest _ t hrest h]
          have := ha (x, y) (by simp)
          simp [this]
        · simp at hs

/-- A run of pixel writes whose values do not depend on the state is done when every pixel lies in the plane. -/
theorem State.paint_const_done (p : Plane) (x0 y0 : Nat) (v : Nat → Nat → Byte) :
    ∀ (cs : List (Nat × Nat)) (s : State),
      (∀ c ∈ cs, x0 + c.1 < planeWidth s.cfg p ∧ y0 + c.2 < planeHeight s.cfg p) →
      ∃ t, State.paint p x0 y0 (fun _ x y => some (v x y)) cs s = .done t
  | [], s, _ => ⟨s, rfl⟩
  | (x, y) :: rest, s, h => by
    have hxy := h (x, y) (by simp)
    simp only [State.paint, State.setPix, hxy, and_self, if_true]
    exact State.paint_const_done p x0 y0 v rest _ fun c hc => h c (by simp [hc])

/-- A run over two lists is the run over the second from where the run over the first ends, if that is done. -/
theorem State.paint_append (p : Plane) (x0 y0 : Nat) (f : State → Nat → Nat → Option Byte) (bs : List (Nat × Nat)) :
    ∀ (as : List (Nat × Nat)) (s : State), State.paint p x0 y0 f (as ++ bs) s =
      match State.paint p x0 y0 f as s with
      | .done t => State.paint p x0 y0 f bs t
      | .bad t => .bad t
  | [], s => rfl
  | (x, y) :: rest, s => by
    simp only [List.cons_append, State.paint]
    split
    · rfl
    · split
      · rfl
      · exact State.paint_append p x0 y0 f bs rest _

/-- A run that stops has done the coordinates before one that has no value or lies outside the plane. -/
theorem State.paint_bad (p : Plane) (x0 y0 : Nat) (f : State → Nat → Nat → Option Byte) :
    ∀ (cs : List (Nat × Nat)) (s t : State), State.paint p x0 y0 f cs s = .bad t →
      ∃ before c after, cs = before ++ c :: after ∧ State.paint p x0 y0 f before s = .done t
        ∧ (f t c.1 c.2 = none ∨ ¬ (x0 + c.1 < planeWidth t.cfg p ∧ y0 + c.2 < planeHeight t.cfg p))
  | [], s, t, h => by simp [State.paint] at h
  | (x, y) :: rest, s, t, h => by
    simp only [State.paint] at h
    split at h
    · rename_i hf
      cases h
      exact ⟨[], (x, y), rest, rfl, rfl, .inl hf⟩
    · rename_i v hf
      split at h
      · rename_i hs
        cases h
        refine ⟨[], (x, y), rest, rfl, rfl, .inr fun hin => ?_⟩
        simp [State.setPix_eq, hin] at hs
      · rename_i s' hs
        obtain ⟨before, c, after, rfl, hd, hc⟩ := State.paint_bad p x0 y0 f rest s' t h
        exact ⟨(x, y) :: before, c, after, rfl, by simp only [State.paint, hf, hs, hd], hc⟩

theorem mem_coords {w h x y : Nat} : (x, y) ∈ coords w h ↔ x < w ∧ y < h := by
  simp [coords]
  tauto

end Sys2Proof.Machine
end

