-- ==== Sys2Proof/Laws/Ops.lean ====
section
/-! SUPPORT. What each shared operation of the machine can do, said once; proofs cite these and do not unfold the
operations. -/

namespace Sys2Proof.Machine

/-! ## Exceptions and reading -/

/-- Taking an exception is always a next state. -/
@[simp] theorem State.trap_eq (s : State) (e : ErrorKind) : s.trap e = .next (s.raise e) := rfl

/-- A read that succeeds goes on with the cursor moved. -/
theorem State.reading_ok {α : Type} {s : State} {r : Cursor → ReadOut α} {v : α} {c : Cursor} (h : r s.cursor = .ok v c)
    (go : State → Step) : s.reading r go = go { s with cursor := c } := by
  simp only [State.reading, h]

/-- A read that fails is raised with the cursor as the read left it. -/
theorem State.reading_err {α : Type} {s : State} {r : Cursor → ReadOut α} {e : ErrorKind} {c : Cursor}
    (h : r s.cursor = .err e c) (go : State → Step) :
    s.reading r go = .next (State.raise { s with cursor := c } e) := by
  simp only [State.reading, h, State.trap_eq]

/-- Everything a read can do. -/
theorem State.reading_cases {α : Type} (s : State) (r : Cursor → ReadOut α) (go : State → Step) :
    (∃ v c, r s.cursor = .ok v c ∧ s.reading r go = go { s with cursor := c })
      ∨ ∃ e c, r s.cursor = .err e c ∧ s.reading r go = .next (State.raise { s with cursor := c } e) := by
  cases h : r s.cursor with
  | ok v c => exact .inl ⟨v, c, rfl, State.reading_ok h go⟩
  | err e c => exact .inr ⟨e, c, rfl, State.reading_err h go⟩

/-! ## Runs of pixel writes -/

/-- A run of pixel writes always ends the step in a next state. -/
theorem PixOut.step_next (o : PixOut) : ∃ t, o.step = .next t := by
  cases o with
  | done t => exact ⟨t, rfl⟩
  | bad t => exact ⟨t.raise .invalidGeometry, rfl⟩

/-- A prediction ends in a next state. -/
theorem State.predict_next (s : State) (b : Block) (f : Nat → Nat → Nat) : ∃ t, s.predict b f = .next t :=
  PixOut.step_next _

/-! ## Partition of a view (R67) -/

/-- A partition goes on with the sub-views of a size that divides, and raises `InvalidGeometry` for any other. -/
theorem State.partitioned_cases (s : State) (x y w h sw sh : Nat) (go : List (Nat × Nat × Nat) → Step) :
    (0 < sw ∧ 0 < sh ∧ w % sw = 0 ∧ h % sh = 0 ∧ s.partitioned x y w h sw sh go
        = go ((List.range (w / sw * (h / sh))).map fun k => (x + sw * (k % (w / sw)), y + sh * (k / (w / sw)), k)))
      ∨ ¬ (0 < sw ∧ 0 < sh ∧ w % sw = 0 ∧ h % sh = 0)
        ∧ s.partitioned x y w h sw sh go = .next (s.raise .invalidGeometry) := by
  by_cases hd : 0 < sw ∧ 0 < sh ∧ w % sw = 0 ∧ h % sh = 0
  · simp only [State.partitioned, partitionView, if_pos hd]
    exact .inl ⟨hd.1, hd.2.1, hd.2.2.1, hd.2.2.2, trivial⟩
  · simp only [State.partitioned, partitionView, if_neg hd, State.trap_eq]
    exact .inr ⟨hd, trivial⟩

/-- The split of an 8×8 block into 4×4 blocks. -/
theorem State.partitioned_eight (s : State) (x y : Nat) (go : List (Nat × Nat × Nat) → Step) :
    s.partitioned x y 8 8 4 4 go = go [(x, y, 0), (x + 4, y, 1), (x, y + 4, 2), (x + 4, y + 4, 3)] := rfl

/-- The four luma quadrants are the partition of the macroblock's luma into 8×8 views, each with the index of its bit. -/
theorem State.lumaBlocks_partition (s : State) (m : BlockMode) :
    ∃ views, partitionView (16 * s.mbx) (16 * s.mby) 16 16 8 8 = some views
      ∧ s.lumaBlocks m = views.map fun v => .block8 .luma v.1 v.2.1 m (Fin.ofNat 6 v.2.2) := ⟨_, rfl, rfl⟩

/-- The halves of a horizontal split of a rectangle of even height are its partition by half the height (R256). -/
theorem partitionView_halves (r : Rect) (hw : 0 < r.w) (hh : 0 < r.h / 2) (he : r.h % 2 = 0) :
    partitionView r.x r.y r.w r.h r.w (r.h / 2) = some [(r.x, r.y, 0), (r.x, r.y + r.h / 2, 1)] := by
  have h1 : r.h % (r.h / 2) = 0 := by
    rw [show r.h % (r.h / 2) = (r.h / 2 * 2) % (r.h / 2) by congr 1; omega, Nat.mul_mod_right]
  have h2 : r.h / (r.h / 2) = 2 := by
    rw [Nat.div_eq_iff hh]
    omega
  simp [partitionView, hw, hh, h1, h2, Nat.div_self hw, List.range_succ, Nat.mod_one]

/-- The halves of a vertical split of a rectangle of even width are its partition by half the width (R256). -/
theorem partitionView_sides (r : Rect) (hw : 0 < r.w / 2) (hh : 0 < r.h) (he : r.w % 2 = 0) :
    partitionView r.x r.y r.w r.h (r.w / 2) r.h = some [(r.x, r.y, 0), (r.x + r.w / 2, r.y, 1)] := by
  have h1 : r.w % (r.w / 2) = 0 := by
    rw [show r.w % (r.w / 2) = (r.w / 2 * 2) % (r.w / 2) by congr 1; omega, Nat.mul_mod_right]
  have h2 : r.w / (r.w / 2) = 2 := by
    rw [Nat.div_eq_iff hw]
    omega
  simp [partitionView, hw, hh, h1, h2, Nat.div_self hh, List.range_succ]

/-! ## Motion -/

/-- A leaf writes one cache entry and schedules its three copies. -/
theorem leaf_eq (r : Rect) (mv : MV) (k : Fin 6) (s : State) : leaf r mv k s = .next { s with
    mvc := s.mvc.set (s.mbx + 1) mv
    agenda := [.op (.copyBlock k .luma r mv), .op (.copyBlock k .chromaU (chromaRect r) (chromaMV mv)),
      .op (.copyBlock k .chromaV (chromaRect r) (chromaMV mv))] ++ s.agenda } := rfl

/-- A split schedules its two halves, or raises `UnsupportedMode` when their size has no tree. -/
theorem split_eq (a b : Rect) (s : State) : split a b s =
    if (s.cfg.mvTree? a.w a.h).isSome then .next (s.push [.mvmode a, .mvmode b])
    else .next (s.raise .unsupportedMode) := rfl

/-- The length of the motion-vector cache never changes by a write of an entry. -/
@[simp] theorem State.length_mvc_setMvc (s : State) (mv : MV) : (s.setMvc mv).mvc.length = s.mvc.length := by
  simp [State.setMvc]

/-! ## Coefficients -/

/-- `matMap` at an index: the new value below `N*N`, the old one above. -/
theorem matMap_get (m : Vector Word 64) (n : TSize) (f : Nat → Word) (i : Nat) (h : i < 64) :
    (matMap m n f)[i] = if i < n.len then f i else m[i] := by
  simp [matMap]

/-- The same through the total read. -/
theorem matAt_matMap (m : Vector Word 64) (n : TSize) (f : Nat → Word) (i : Nat) :
    matAt (matMap m n f) i = if i < n.len then f i else matAt m i := by
  by_cases h : i < 64
  · simp [matAt, h, matMap]
  · have hn : ¬ i < n.len := by cases n <;> simp [TSize.len] <;> omega
    simp [matAt, h, hn]

/-! ## The sequencer -/

/-- What a step does, by what the sequencer finds. -/
theorem step_eq (s : State) : step s = match s.fetch with
    | .run i t => exec i t
    | .trap e t => .next (t.raise e)
    | .idle => .next s
    | .lost => .fault .lostSequence
    | .refuse r => .refused r := rfl

/-- An idle block stays as it is. -/
theorem fetch_idle {s : State} (ha : s.agenda = []) (hp : s.phase = .awaitFrame) (hc : s.calls = []) :
    s.fetch = .idle := by
  simp [State.fetch, ha, hp, hc]

/-- The head of the agenda is what runs. -/
theorem fetch_run {s : State} {t : Task} {rest : List Task} {i : Instr} (ha : s.agenda = t :: rest)
    (hd : decode s.ctx s.cursor t = .instr i) : s.fetch = .run i { s with agenda := rest } := by
  simp [State.fetch, ha, hd]

end Sys2Proof.Machine
end

