-- ==== Sys2Proof/Laws/Intra.lean ====
section
/-! SUPPORT. What the neighbours of a block are, when there are none, and what writing a whole block does: the shared
operations of the nine reconstruction modes (44_intra_pred.md). -/

namespace Sys2Proof.Machine

/-! ## Neighbours (R65) -/

/-- A pixel above a block is the byte one row up. -/
theorem State.neighbour_top (s : State) (b : Block) (i : Nat) (hy : 0 < b.y) (hi : i < 2 * b.size.n)
    (hx : b.x + i < planeWidth s.cfg b.plane) (hb : b.y ≤ planeHeight s.cfg b.plane) :
    s.neighbour b i (-1) = some (s.byteAt 0 (pixAddr s.cfg b.plane (b.x + i) (b.y - 1))) := by
  have e1 : (b.x : Int) + (i : Int) = ((b.x + i : Nat) : Int) := by omega
  have e2 : (b.y : Int) + -1 = ((b.y - 1 : Nat) : Int) := by omega
  unfold State.neighbour
  rw [if_pos (by omega), e1, e2]
  exact State.pix_of_inside s 0 b.plane _ _ hx (by omega)

/-- A pixel to the left of a block is the byte one column back. -/
theorem State.neighbour_left (s : State) (b : Block) (j : Nat) (hx : 0 < b.x) (hj : j < b.size.n)
    (hw : b.x ≤ planeWidth s.cfg b.plane) (hb : b.y + j < planeHeight s.cfg b.plane) :
    s.neighbour b (-1) j = some (s.byteAt 0 (pixAddr s.cfg b.plane (b.x - 1) (b.y + j))) := by
  have e1 : (b.x : Int) + -1 = ((b.x - 1 : Nat) : Int) := by omega
  have e2 : (b.y : Int) + (j : Int) = ((b.y + j : Nat) : Int) := by omega
  unfold State.neighbour
  rw [if_pos (by omega), e1, e2]
  exact State.pix_of_inside s 0 b.plane _ _ (by omega) hb

/-- The corner of a block is the byte one column back and one row up. -/
theorem State.corner_eq (s : State) (b : Block) (hx : 0 < b.x) (hy : 0 < b.y) (hw : b.x ≤ planeWidth s.cfg b.plane)
    (hb : b.y ≤ planeHeight s.cfg b.plane) :
    s.corner b = some (s.byteAt 0 (pixAddr s.cfg b.plane (b.x - 1) (b.y - 1))) := by
  have e1 : (b.x : Int) + -1 = ((b.x - 1 : Nat) : Int) := by omega
  have e2 : (b.y : Int) + -1 = ((b.y - 1 : Nat) : Int) := by omega
  unfold State.corner State.neighbour
  rw [if_pos (by omega), e1, e2]
  exact State.pix_of_inside s 0 b.plane _ _ (by omega) (by omega)

/-- Reading a list of pixels that are all there. -/
theorem mapM_some {α β : Type} {f : α → Option β} {g : α → β} : ∀ {l : List α}, (∀ a ∈ l, f a = some (g a)) →
    l.mapM f = some (l.map g)
  | [], _ => rfl
  | a :: l, h => by
    rw [List.mapM_cons, h a (by simp), mapM_some fun q hq => h q (by simp [hq])]
    rfl

/-- Reading a list of pixels whose first is not there. -/
theorem mapM_none_head {α β : Type} {f : α → Option β} {a : α} (l : List α) (h : f a = none) : (a :: l).mapM f = none := by
  rw [List.mapM_cons, h]
  rfl

/-- The row above a block, `n` pixels of it. -/
theorem State.topRow_eq (s : State) (b : Block) (n : Nat) (hy : 0 < b.y) (hn : n ≤ 2 * b.size.n)
    (hx : b.x + n ≤ planeWidth s.cfg b.plane) (hb : b.y ≤ planeHeight s.cfg b.plane) :
    s.topRow b n = some ((List.range n).map fun i => s.byteAt 0 (pixAddr s.cfg b.plane (b.x + i) (b.y - 1))) := by
  unfold State.topRow
  refine mapM_some fun i hi => ?_
  have h := List.mem_range.mp hi
  exact State.neighbour_top s b i hy (by omega) (by omega) hb

/-- The column to the left of a block, `n` pixels of it. -/
theorem State.leftCol_eq (s : State) (b : Block) (n : Nat) (hx : 0 < b.x) (hn : n ≤ b.size.n)
    (hw : b.x ≤ planeWidth s.cfg b.plane) (hb : b.y + n ≤ planeHeight s.cfg b.plane) :
    s.leftCol b n = some ((List.range n).map fun j => s.byteAt 0 (pixAddr s.cfg b.plane (b.x - 1) (b.y + j))) := by
  unfold State.leftCol
  refine mapM_some fun j hj => ?_
  have h := List.mem_range.mp hj
  exact State.neighbour_left s b j hx (by omega) hw (by omega)

/-- At the top of the plane there is no row above. -/
theorem State.topRow_none (s : State) (b : Block) (n : Nat) (hy : b.y = 0) (hn : 0 < n) : s.topRow b n = none := by
  obtain ⟨m, rfl⟩ : ∃ m, n = m + 1 := ⟨n - 1, by omega⟩
  unfold State.topRow
  rw [List.range_succ_eq_map]
  refine mapM_none_head _ ?_
  unfold State.neighbour
  rw [if_neg (by omega)]

/-- At the left edge of the plane there is no column to the left. -/
theorem State.leftCol_none (s : State) (b : Block) (n : Nat) (hx : b.x = 0) (hn : 0 < n) : s.leftCol b n = none := by
  obtain ⟨m, rfl⟩ : ∃ m, n = m + 1 := ⟨n - 1, by omega⟩
  unfold State.leftCol
  rw [List.range_succ_eq_map]
  refine mapM_none_head _ ?_
  unfold State.neighbour
  rw [if_neg (by omega)]

/-- At either edge there is no corner. -/
theorem State.corner_none (s : State) (b : Block) (h : b.x = 0 ∨ b.y = 0) : s.corner b = none := by
  unfold State.corner State.neighbour
  rw [if_neg (by omega)]

/-! ## Writing a rectangle -/

/-- A run of writes that ends well stayed inside its plane. -/
theorem State.paint_const_inside (p : Plane) (x0 y0 : Nat) (v : Nat → Nat → Byte) :
    ∀ (cs : List (Nat × Nat)) (s t : State), State.paint p x0 y0 (fun _ x y => some (v x y)) cs s = .done t →
      ∀ c ∈ cs, x0 + c.1 < planeWidth s.cfg p ∧ y0 + c.2 < planeHeight s.cfg p
  | [], _, _, _, _, hc => by simp at hc
  | (x, y) :: rest, s, t, h, c, hc => by
    simp only [State.paint, State.setPix_eq] at h
    by_cases hin : x0 + x < planeWidth s.cfg p ∧ y0 + y < planeHeight s.cfg p
    · rw [if_pos hin] at h
      rcases List.mem_cons.mp hc with rfl | hr
      · exact hin
      · exact State.paint_const_inside p x0 y0 v rest _ t h c hr
    · rw [if_neg hin] at h
      cases h

/-- A run of writes of given values leaves each listed pixel holding its value. -/
theorem State.paint_const_value (p : Plane) (x0 y0 : Nat) (v : Nat → Nat → Byte) :
    ∀ (cs : List (Nat × Nat)) (s t : State), State.paint p x0 y0 (fun _ x y => some (v x y)) cs s = .done t →
      ∀ c ∈ cs, t.byteAt 0 (pixAddr s.cfg p (x0 + c.1) (y0 + c.2)) = v c.1 c.2
  | [], _, _, _, _, hc => by simp at hc
  | (x, y) :: rest, s, t, h, c, hc => by
    have inside := State.paint_const_inside p x0 y0 v _ s t h
    have hin := inside (x, y) (by simp)
    simp only [State.paint, State.setPix_eq, if_pos hin] at h
    by_cases hr : c ∈ rest
    · exact State.paint_const_value p x0 y0 v rest _ t h c hr
    · have hce : c = (x, y) := by simpa [hr] using hc
      subst hce
      rw [State.paint_outside p x0 y0 _ (pixAddr s.cfg p (x0 + x) (y0 + y)) rest _ t ?_ (.inl h),
        State.byteAt_storeByte, if_pos rfl]
      intro d hd e
      have e' := pixAddr_inj s.cfg p hin.1 (inside d (by simp [hd])).1 e
      exact hr ((Prod.ext (by omega) (by omega) : d = (x, y)) ▸ hd)

/-- Predicting a block inside its plane writes the value of every pixel of it and changes nothing else. -/
theorem State.predict_painted (s : State) (b : Block) (f : Nat → Nat → Nat) (h : b.inside s.cfg = true) :
    ∃ t, s.predict b f = .next t
      ∧ s.painted t b.plane b.x b.y b.size.n b.size.n fun x y => BitVec.ofNat 8 (f x y) := by
  simp only [Block.inside, Bool.and_eq_true, decide_eq_true_eq] at h
  obtain ⟨t, ht⟩ := State.paint_const_done b.plane b.x b.y (fun x y => BitVec.ofNat 8 (f x y))
    (coords b.size.n b.size.n) s fun c hc => by
      have hm := mem_coords.mp (show (c.1, c.2) ∈ _ from hc)
      omega
  refine ⟨t, by simp only [State.predict, ht, PixOut.step], State.paint_frame _ _ _ _ _ s t (.inl ht), ?_, ?_⟩
  · intro x y hx hy
    exact State.paint_const_value _ _ _ _ _ s t ht (x, y) (mem_coords.mpr ⟨hx, hy⟩)
  · intro a ha
    refine State.paint_outside _ _ _ _ a _ s t (fun c hc => ?_) (.inl ht)
    have hm := mem_coords.mp (show (c.1, c.2) ∈ _ from hc)
    exact ha c.1 c.2 hm.1 hm.2

/-! ## Recording a mode (R203) -/

/-- The entries of `PRE` after a mode is recorded. -/
theorem State.recordMode_pre (s : State) (b : Block) (a j : Nat) (h : j < 16) :
    (s.recordMode b a).pre[j]? = if j = s.modeIndex b ∨ b.size = .eight
        ∧ (j = s.modeIndex b + 1 ∨ j = s.modeIndex b + 4 ∨ j = s.modeIndex b + 5) then some (some a) else s.pre[j]? := by
  unfold State.recordMode
  dsimp only
  split <;> rename_i hb
  · simp only [Vector.getElem?_setIfInBounds, hb, true_and]
    repeat' split
    all_goals first | rfl | omega
  · simp only [Vector.getElem?_setIfInBounds, hb, false_and, or_false]
    repeat' split
    all_goals first | rfl | omega

end Sys2Proof.Machine
end

