-- ==== Sys2Proof/Tests/Slice0.lean ====
section
/-! SUPPORT. The model's own tests. The configuration is the artificial ROM set TESTROM of 95_test_vectors.md part 2, with 32×32
frames and two block sizes; every expected value is copied from the spec (the vector or rule is named), except in the
witnesses at the end, which only show that the hypotheses of an obligation can be met together. -/

namespace Sys2Proof.Slice0Tests

open Sys2Proof.Machine

-- One theorem at a time: elaborated side by side, the kernel evaluations below need more stacks than the memory limit allows.
set_option Elab.async false

/-! ## TESTROM -/

/-- The `n`-bit numeral of `v`: how a test writes bits out. -/
def w (n v : Nat) : List Bool := bitsOf n v

/-- A tree from its leaves (codeword length, codeword, value). -/
def treeOf (ls : List (Nat × Nat × Nat)) : HuffTree :=
  (HuffTree.ofLeaves (ls.map fun l => (w l.1 l.2.1, l.2.2))).getD .absent

/-- `HUFF_RES[0]` of TESTROM. -/
def tree0 : HuffTree := treeOf [(1, 1, 0x001), (2, 1, 0x801), (3, 1, 0x021), (4, 1, 0x822), (5, 1, 0x043), (8, 3, 0x000),
  (10, 0x19, 0x802)]

/-- `HUFF_RES[1]` of TESTROM. -/
def tree1 : HuffTree := treeOf [(1, 0, 0x801), (2, 2, 0x001), (3, 6, 0x000), (3, 7, 0x822)]

/-- The motion-mode tree of TESTROM. -/
def mvTree : HuffTree := treeOf [(1, 1, 0), (2, 1, 1), (4, 2, 8), (4, 3, 9), (5, 2, 6), (5, 3, 7), (6, 2, 2), (6, 3, 3),
  (7, 2, 4), (7, 3, 5)]

/-- The ROMs of residual table `t` of TESTROM. -/
def resTable (t : Nat) (tree : HuffTree) (limit : Nat) : ResTable where
  huff := { tree := tree, limit := some limit }
  escAmp := Vector.ofFn fun i => BitVec.ofNat 32 (10 * (t + 1) + 5 * (i.val / 64) + i.val % 64 % 3)
  escRun := Vector.ofFn fun i => BitVec.ofNat 32 (1 + i.val % 32 % 4 + 2 * (i.val / 32) + t)

/-- One block size with TESTROM's tree. -/
def mvSize (a b : Nat) : MvTree :=
  { w := a, h := b, plain := { tree := mvTree, limit := some 7 }, stereo := { tree := mvTree, limit := some 7 } }

/-- `QT4[2]` of TESTROM in the one row the tests use. -/
def qt4row : Vector Nat 16 := #v[13, 16, 13, 16, 16, 20, 16, 20, 13, 16, 13, 16, 16, 20, 16, 20]

/-- The point of TESTPLANE that vector V30 uses. -/
def planePoint : PlanePoint where
  size := .four
  top := [10, 20, 30, 40]
  left := [50, 60, 70, 80]
  delta := 3
  out := [33, 38, 43, 48, 38, 43, 48, 53, 43, 48, 53, 58, 48, 53, 58, 63]

/-- TESTROM with `W` = `H` = 32, `MVSIZES` cut to (16,16) and (16,8), one quantizer row for all, and `ZZ8` the identity. -/
def cfg : Config where
  w := 32
  h := 32
  stereo := false
  blockBits := .b16
  unitEndian := .little
  iframeBit := true
  qpMin := 12
  qpMax := 161
  qpAccumulates := true
  mvcIntra := .keep
  ringInit := .zero
  res0 := resTable 0 tree0 10
  res1 := resTable 1 tree1 3
  zz4 := #v[0, 4, 1, 2, 5, 8, 12, 9, 6, 3, 7, 10, 13, 14, 11, 15]
  zz8 := Vector.ofFn id
  qt4 := Vector.replicate 6 qt4row
  qt8 := Vector.replicate 6 (Vector.replicate 64 26)
  cbp := Vector.ofFn fun i => BitVec.ofNat 6 i.val
  cbp4 := Vector.ofFn fun i => BitVec.ofNat 4 (i.val + 1)
  mvTrees := [mvSize 16 16, mvSize 16 8]
  modeCode := Config.defaultModeCode
  planePoints := [planePoint]

/-! ## Helpers -/

/-- What decoding needs, table 0 in force. -/
def ctx : DecodeCtx := { cfg := cfg, vlc := false, amp := 0, cbp := 0b010001 }

/-- A state in the middle of a call with the bits `bits` ahead and the position `ts`. -/
def at' (bits : List Bool) (ts : List Sys2Proof.Task) : State :=
  { State.resetWith cfg with cursor := Cursor.start (pack cfg bits), phase := .decodeIFrame, agenda := ts }

/-- A check on the next state; false on a fault or a refusal. -/
def got (o : Step) (f : State → Bool) : Bool :=
  match o with
  | .next t => f t
  | .fault _ => false
  | .refused _ => false

/-- The error kind and the `BITPOS` a next state has recorded. -/
def raised (o : Step) (e : ErrorKind) (bitpos : Nat) : Bool :=
  got o fun t => (t.err.map fun r => (r.kind, r.bitpos)) == some (e, bitpos) && t.phase == .awaitFrame && t.agenda == []

/-- The refusal of a step. -/
def refusedAs (o : Step) (r : Refusal) : Bool :=
  match o with
  | .next _ => false
  | .fault _ => false
  | .refused q => q == r

/-- A run of pixels of one row of plane `p` in slot 0. -/
def row (s : State) (p : Plane) (x y n : Nat) : List Nat :=
  (List.range n).map fun i => (s.byteAt 0 (pixAddr s.cfg p (x + i) y)).toNat

/-- The four rows of the 4×4 block at `(x, y)` of luma. -/
def rows4 (s : State) (x y : Nat) : List (List Nat) := (List.range 4).map fun j => row s .luma x (y + j) 4

/-- Write luma pixels. -/
def draw (s : State) (ps : List (Nat × Nat × Nat)) : State :=
  ps.foldl (fun s q => s.storeByte (pixAddr s.cfg .luma q.1 q.2.1) (BitVec.ofNat 8 q.2.2)) s

/-- The neighbourhood of vector V30: the block at `(8, 8)`. -/
def v30 : State :=
  draw (at' (w 5 0b00110) []) [(7, 7, 100), (8, 7, 10), (9, 7, 20), (10, 7, 30), (11, 7, 40), (12, 7, 50), (13, 7, 60),
    (14, 7, 70), (15, 7, 80), (7, 8, 50), (7, 9, 60), (7, 10, 70), (7, 11, 80)]

/-- A 4×4 luma block. -/
def b4 (x y : Nat) : Block := { plane := .luma, x := x, y := y, size := .four }

/-- Every listed bit string decodes, at its position, to its instruction. -/
def decodesTo (x : DecodeCtx) (l : List (List Bool × Sys2Proof.Task × Instr)) : Bool :=
  l.all fun q => decode x (Cursor.start (pack x.cfg q.1)) q.2.1 == .instr q.2.2

/-! ## Decoding: a word of every constructor, written out from the encodings of 30_encoding.md -/

/-- R90, R122 to R127, vectors V1, V6, V7, V8, V9. -/
theorem test_decode_primitives : decodesTo ctx [
    (w 9 0b000100100, .read (.f 9), .readF 9 36),
    (w 12 0b111111111110, .read (.s 12), .readS 12 (-2)),
    (w 1 1, .read .b, .readB true),
    (w 7 0b0001111, .read .g, .readG 15),
    (w 13 0b0000001000000, .read .ue, .readUE 63),
    (w 7 0b0001001, .read .se, .readSE (-4)),
    (w 8 0b00000011, .read (.h (.res false)), .readH (.res false) 0),
    (w 7 0b0000011, .read (.h (.mv true 16 8)), .readH (.mv true 16 8) 5)] = true := by decide +kernel

/-- R93, R294 to R296: the header `1 1 0 011010`, and the delta `011`. -/
theorem test_decode_headers : decodesTo ctx [
    (w 1 1, .ftype, .ftypeI), (w 1 0, .ftype, .ftypeP), (w 1 1, .csbit, .csbit true), (w 1 0, .vlcbit, .vlcbit false),
    (w 6 0b011010, .qp6, .qp6 26), (w 3 0b011, .qpdelta, .qpdelta (-1)), (w 1 1, .subflag, .subflag true)] = true := by
  decide +kernel

/-- R93, R232 to R236. -/
theorem test_decode_macroblock : decodesTo ctx [
    (w 5 0b00100, .cbpidx, .cbpidx 3), (w 3 0b011, .mode3, .mode3 3), (w 3 0b100, .cmode3, .cmode3 4),
    (w 1 1, .partflag .luma 8 0 .nothing, .partflag8x8 .luma 8 0 .nothing),
    (w 3 0b011, .partflag .luma 8 0 .predicted, .partflag4x4 .luma 8 0 .predicted 2)] = true := by decide +kernel

/-- R92, R203, R208: `MPMBIT`, `REM3`, `DPDELTA`. -/
theorem test_decode_modes : decodesTo ctx [
    (w 1 1, .mpm (b4 4 4), .mpmTaken (b4 4 4)), (w 4 0b0011, .mpm (b4 4 4), .mpmRem (b4 4 4) 3),
    (w 5 0b00110, .dpdelta, .dpdelta 3)] = true := by decide +kernel

/-- R201: the nine default mode codes. -/
theorem test_decode_mode_codes : decodesTo ctx [
    ([], .predCode (b4 8 8) 0, .predV (b4 8 8)), ([], .predCode (b4 8 8) 1, .predH (b4 8 8)),
    ([], .predCode (b4 8 8) 2, .predPlane (b4 8 8)), ([], .predCode (b4 8 8) 3, .predDC (b4 8 8)),
    ([], .predCode (b4 8 8) 4, .predHU (b4 8 8)), ([], .predCode (b4 8 8) 5, .predHD (b4 8 8)),
    ([], .predCode (b4 8 8) 6, .predVR (b4 8 8)), ([], .predCode (b4 8 8) 7, .predDDR (b4 8 8)),
    ([], .predCode (b4 8 8) 8, .predVL (b4 8 8))] = true := by decide +kernel

/-- R204: a mode code outside 0..8 raises `UnsupportedMode`. -/
theorem test_decode_mode_code_9 :
    (decode ctx (Cursor.start []) (.predCode (b4 8 8) 9) == .trap .unsupportedMode (Cursor.start [])) = true := by
  decide +kernel

/-- R94, R147, R163 to R166; the symbols of TESTROM. -/
theorem test_decode_residual : decodesTo ctx [
    (w 4 0b0001, .hsym, .hsym 0x822), (w 8 0b00000011, .hsym, .hsymT0x000), (w 10 0b0000011001, .hsym, .hsymT0x802),
    (w 1 1, .form .four, .rsymAmpEsc .select .four), (w 2 0b01, .form .four, .rsymRunEsc .select .four),
    (w 2 0b00, .form .eight, .rsymRaw .eight), (w 1 1, .sign, .sign true), (w 1 1, .rawend, .rawend true),
    (w 6 0b001110, .rawrun, .rawrun 14), (w 12 0b100000000000, .rawamp, .rawamp (-2048))] = true := by decide +kernel

/-- R163: a symbol whose amplitude is not 0 has the direct form; R162: table 1 has no printed codewords. -/
theorem test_decode_direct_and_table1 :
    (decodesTo { ctx with amp := 1 } [(w 1 1, .form .four, .rsymDirect .four)]
      && decodesTo { ctx with vlc := true } [(w 3 0b110, .hsym, .hsym 0), (w 2 0b10, .hsym, .hsym 1)]) = true := by
  decide +kernel

/-- The macroblock rectangle at the origin. -/
def mb0 : Rect := { x := 0, y := 0, w := 16, h := 16 }

/-- R96, R252, R256: the motion-mode tree, its values, and the two deltas. -/
theorem test_decode_motion : decodesTo ctx [
    (w 4 0b0011, .mvmode mb0, .mvmode mb0 9), ([], .mvValue mb0 0, .mvPred mb0), ([], .mvValue mb0 1, .mvDelta1 mb0),
    ([], .mvValue mb0 2, .mvDelta2 mb0), ([], .mvValue mb0 3, .mvDelta3 mb0), ([], .mvValue mb0 4, .mvDelta4 mb0),
    ([], .mvValue mb0 5, .mvDelta5 mb0), ([], .mvValue mb0 6, .mbIntra mb0), ([], .mvValue mb0 7, .mbIntraSub mb0),
    ([], .mvValue mb0 8, .mvSplitH mb0), ([], .mvValue mb0 9, .mvSplitW mb0), (w 3 0b011, .mvdx, .mvdx (-1)),
    (w 5 0b00100, .mvdy, .mvdy 2)] = true := by decide +kernel

/-- The operations have no bits of their own (R93): each stands at its own position; an 8×8 block takes its CBP bit from the
mask, here bits 0 and 4 (the example of R232). -/
theorem test_decode_operations : decodesTo ctx ([.predNone (b4 8 8), .predPredicted (b4 8 8), .decodeFrame .finish,
      .rotateAndClear, .setQuantizer 26, .decodeIntraMB true, .decodeResidualMB, .decodeInterMB, .predictMV,
      .copyBlock 1 .luma mb0 { x := 0, y := 0 }, .residualDecode .start .four, .dequantize .four, .inverseTransform .four,
      .applyResidual .start .luma 8 8 .four, .predictBlock (b4 8 8) .nothing].map fun i => ([], .op i, i)) = true
    ∧ decodesTo ctx [
      ([], .block8 .luma 0 0 .nothing 0, .decodeBlock8 .luma 0 0 .nothing true),
      ([], .block8 .luma 8 0 .nothing 1, .decodeBlock8 .luma 8 0 .nothing false),
      ([], .block8 .chromaU 0 0 .nothing 4, .decodeBlock8 .chromaU 0 0 .nothing true)] = true := by decide +kernel

/-- Words at the positions log 10 gives them: words of spec/opcode_table.json, and the codeword `00000011` of R147 as the first
eight of ten bits. -/
theorem test_table_words :
    decodeTableWord 8 1 = some .ftypeI ∧ decodeTableWord 8 26 = some (.qp6 26)
      ∧ decodeTableWord 16 25 = some .hsymT0x802 ∧ decodeTableWord 16 12 = some .hsymT0x000
      ∧ decodeTableWord 24 0 = some (.rsymRaw .four) := by decide

/-- The next step after `withFetchWord` runs the word's instruction. -/
theorem test_fetch_word :
    got (step (State.reset.withFetchWord 8 26)) (fun t => t.qp == 26 && t.hdrvalid) = true := by decide +kernel

/-! ## Well-formedness -/

/-- TESTROM meets every check. -/
theorem test_cfg_wellFormed : cfg.wellFormed = true := by decide +kernel

/-- Ill-formed configurations, one for each check of `Config.wellFormed`. -/
theorem test_config_checks : ([
    { cfg with w := 0 }, { cfg with w := 24 }, { cfg with h := 0 }, { cfg with h := 40 }, { cfg with qpMin := 11 },
    { cfg with qpMin := 162 }, { cfg with qpMax := 192 },
    { cfg with res0 := resTable 0 tree0 9 },
    { cfg with res1 := resTable 1 (.leaf 0) 3 }, { cfg with res1 := resTable 1 (treeOf [(1, 0, 4096)]) 3 },
    { cfg with res1 := resTable 1 (.node (.leaf 0) (.node .absent .absent)) 3 }, { cfg with res1 := resTable 1 tree1 0 },
    { cfg with res0 := resTable 0 (treeOf [(10, 0x19, 0x802)]) 10 }, { cfg with res0 := resTable 0 (treeOf [(8, 3, 0)]) 10 },
    { cfg with zz4 := Vector.replicate 16 0 }, { cfg with zz8 := Vector.replicate 64 0 },
    { cfg with qt4 := Vector.replicate 6 (Vector.replicate 16 0) },
    { cfg with qt8 := Vector.replicate 6 (Vector.replicate 64 0) },
    { cfg with mvTrees := [] }, { cfg with mvTrees := [mvSize 16 16, mvSize 16 1] },
    { cfg with mvTrees := [mvSize 16 16, { mvSize 16 8 with plain := { tree := treeOf [(1, 0, 10)], limit := none } }] },
    { cfg with mvTrees := [mvSize 16 16, { mvSize 16 8 with stereo := { tree := .absent, limit := none } }] },
    { cfg with mvTrees := [mvSize 16 16, mvSize 16 16] },
    { cfg with modeCode := [.vertical] }, { cfg with modeCode := List.replicate 9 .dc },
    { cfg with planePoints := [{ size := .four, top := [], left := [], delta := 0, out := [] }] },
    { cfg with planePoints := cfg.planePoints ++ cfg.planePoints }].all fun c => !c.wellFormed) = true := by
  decide +kernel

/-- Ill-formed terms, one for each check of `Instr.wellFormed`. -/
theorem test_instr_checks : ([
    .readF 0 0, .readF 33 0, .readF 3 8, .readS 0 0, .readS 33 0, .readS 12 2048, .readG 0, .readG (2 ^ 31),
    .readUE (2 ^ 31 - 1), .readSE (2 ^ 30), .readSE (-2 ^ 30), .readH (.res false) 5, .readH (.mv false 2 2) 0,
    .qpdelta (2 ^ 30), .cbpidx (2 ^ 31 - 1), .partflag8x8 .chromaU 0 0 .predicted, .partflag4x4 .chromaU 0 0 .predicted 1,
    .partflag4x4 .luma 0 0 .nothing 0, .partflag4x4 .luma 0 0 .nothing (2 ^ 31 - 1),
    .mpmTaken { plane := .chromaU, x := 0, y := 0, size := .four },
    .mpmRem { plane := .luma, x := 0, y := 0, size := .sixteen } 0, .dpdelta (2 ^ 30),
    .predV { plane := .luma, x := 0, y := 0, size := .sixteen }, .predNone { plane := .luma, x := 0, y := 0, size := .sixteen },
    .predPredicted { plane := .chromaV, x := 0, y := 0, size := .four }, .hsym 0x802, .hsym 0x005,
    .mvmode { x := 0, y := 0, w := 16, h := 16 } 10, .mvmode { x := 0, y := 0, w := 1, h := 16 } 0,
    .mvPred { x := 0, y := 0, w := 32, h := 16 }, .mvdx (2 ^ 30), .mvdy (2 ^ 30), .setQuantizer 11, .setQuantizer 162,
    .decodeBlock8 .chromaU 0 0 .predicted true, .copyBlock 0 .luma mb0 { x := 0, y := 0 },
    .predictBlock { plane := .chromaU, x := 0, y := 0, size := .four } .predicted,
    .predictBlock { plane := .luma, x := 0, y := 0, size := .sixteen } .nothing,
    .predictBlock { plane := .luma, x := 0, y := 0, size := .sixteen } (.explicit .dc)].all fun i : Instr =>
      !i.wellFormed ctx) = true := by decide +kernel

/-- Terms whose check depends on what is in force: the residual table, the amplitude, the mode table. -/
theorem test_instr_checks_in_context :
    (!Instr.wellFormed { ctx with vlc := true } .hsymT0x000 && !Instr.wellFormed { ctx with vlc := true } .hsymT0x802
      && !Instr.wellFormed ctx (.rsymDirect .four) && !Instr.wellFormed { ctx with amp := 1 } (.rsymAmpEsc .select .four)
      && !Instr.wellFormed { ctx with amp := 1 } (.rsymRunEsc .select .four)
      && !Instr.wellFormed { ctx with amp := 1 } (.rsymRaw .four)
      && !Instr.wellFormed { ctx with cfg := { cfg with modeCode := [.vertical] } } (.predPlane (b4 8 8))) = true := by
  decide +kernel

/-- A term no position gives is refused by name, not run (log 14). -/
theorem test_illFormed_refused :
    (refusedAs (exec (.readF 33 0) (at' [] [])) .illFormed
      && refusedAs (exec (.partflag4x4 .luma 0 0 .nothing 0) (at' [] [])) .illFormed
      && refusedAs (step (at' (w 8 0) [.mvmode { x := 0, y := 0, w := 2, h := 2 }])) .illegalConfiguration
      && refusedAs (exec (.decodeFrame (.start [])) (at' [] [])) .reentrantCall) = true := by decide +kernel

/-! ## The bit reader and the trees -/

/-- R68: the packing of vector V3. -/
theorem test_pack :
    pack { cfg with blockBits := .b8 } (w 17 0b11001101001011011) = [0xcd, 0x2d, 0x80]
      ∧ pack cfg (w 17 0b11001101001011011) = [0x2d, 0xcd, 0x00, 0x80]
      ∧ pack { cfg with unitEndian := .big } (w 17 0b11001101001011011) = [0xcd, 0x2d, 0x80, 0x00]
      ∧ pack { cfg with blockBits := .b32 } (w 17 0b11001101001011011) = [0x00, 0x80, 0x2d, 0xcd] := by decide +kernel

/-- Vector V1, 16 bits little: the values, and the registers at the end. -/
theorem test_reads_v1 :
    (match Cursor.readAll cfg [1, 3, 4, 9, 12] (Cursor.start [0x12, 0x34, 0x56, 0x78, 0x9a, 0xbc, 0xde, 0xf0]) with
      | .ok vs c => vs == [0, 3, 4, 36, 3850] && c.bitpos == 29 && c.bytepos == 4 && c.nbits == 3
      | .err _ _ => false) = true := by decide +kernel

/-- Vector V5: a read that fails delivers nothing. -/
theorem test_read_fails_v5 :
    (match Cursor.readAll cfg [10, 7] (Cursor.start [0xf0, 0xf0]) with
      | .ok _ _ => false
      | .err e c => e == .endOfStream && c.bitpos == 10 && c.nbits == 6 && c.bytepos == 2) = true := by decide +kernel

/-- Vector V6: thirty-one zeros are a `FormatError` at bit 31. -/
theorem test_gamma_limit : raised (step (at' (w 40 0xff) [.cbpidx])) .formatError 31 = true := by decide +kernel

/-- Vector V10: `000001101` leaves the tree at bit 9, `0000000` at bit 7. -/
theorem test_huff_absent :
    (raised (step (at' (w 9 0b000001101) [.hsym])) .formatError 9
      && raised (step (at' (w 7 0) [.hsym])) .formatError 7) = true := by decide +kernel

/-- R141: inserting a prefix of an existing codeword, or an extension of one, fails. -/
theorem test_insert_conflicts :
    (tree0.insert (w 2 0) 5).isNone = true ∧ (tree0.insert (w 2 0b11) 5).isNone = true
      ∧ (tree0.insert (w 7 0) 5).isSome = true := by decide +kernel

/-- The example of R67: an 8×8 view into 4×4 sub-views; `(2,3)` on a 4×4 view is `InvalidGeometry`. -/
theorem test_partition :
    partitionView 0 0 8 8 4 4 = some [(0, 0, 0), (4, 0, 1), (0, 4, 2), (4, 4, 3)]
      ∧ raised ((at' [] []).partitioned 0 0 4 4 2 3 fun _ => .next (at' [] [])) .invalidGeometry 0 = true := by
  decide +kernel

/-! ## Residual, quantizer, transform -/

/-- Vector V17: the amplitude escape, from its first symbol to the write, and the second coefficient. -/
theorem test_residual_v17 :
    got (steps 11 (at' (w 16 0b0000001110010010) [.op (.residualDecode .start .four)]))
      (fun t => matAt t.mat 4 == 12 && matAt t.mat 1 == 1 && t.cursor.bitpos == 16 && t.agenda == []) = true := by
  decide +kernel

/-- Vector V19: the run escape adds `ESC_RUN[0][1][1]` = 4; the amplitude -1 lands on raster index 5. -/
theorem test_residual_v19 :
    got (steps 7 (at' (w 13 0b0000001101011) [.op (.residualDecode .start .four)]))
      (fun t => matAt t.mat 5 == -1 && t.cursor.bitpos == 13 && t.agenda == []) = true := by decide +kernel

/-- Vector V19c: the raw escape. -/
theorem test_residual_v19c :
    got (steps 7 (at' (w 29 0b00000011001000010111111111110) [.op (.residualDecode .start .four)]))
      (fun t => matAt t.mat 1 == -2 && t.cursor.bitpos == 29 && t.agenda == []) = true := by decide +kernel

/-- Vector V19f: a raw run of 16 leaves the block. -/
theorem test_residual_v19f :
    got (steps 6 (at' (w 29 0b00000011001010000000000000001) [.op (.residualDecode .start .four)]))
      (fun t => raised (step t) .formatError 29) = true := by decide +kernel

/-- Vector V13: the direct form. -/
theorem test_residual_v13 :
    got (steps 5 (at' (w 3 0b010) [.op (.residualDecode .start .four)]))
      (fun t => matAt t.mat 0 == 1 && t.cursor.bitpos == 3 && t.agenda == []) = true := by decide +kernel

/-- R299: `q` = 161 gives (5, 26, 24). -/
theorem test_setQuantizer :
    got (exec (.setQuantizer 161) (at' [] [])) (fun t => t.qidx == 5 && t.qsh4 == 26 && t.qsh8 == 24) = true := by decide

/-- A state with one coefficient, quantizer index 26. -/
def coef (i : Fin 64) (v : Word) : State :=
  { at' [] [] with mat := (Vector.replicate 64 0).set i v, qidx := 2, qsh4 := 4, qsh8 := 2 }

/-- R180: 3 at raster index 0 of a 4×4 block becomes 624. -/
theorem test_dequantize : got (exec (.dequantize .four) (coef 0 3)) (fun t => matAt t.mat 0 == 624) = true := by
  decide +kernel

/-- Vector V22: dequantised 5: 1024; the first two rows of the output. -/
theorem test_transform4_v22 :
    got (exec (.inverseTransform .four) (coef 5 1024)) (fun t => (List.range 8).map (matAt t.mat)
      == [16, 8, -8, -16, 8, 4, -4, -8]) = true := by decide +kernel

/-- Vector V24: 192 at raster index 1 of an 8×8 block: element 0 of each row. -/
theorem test_transform8_v24 :
    got (exec (.inverseTransform .eight) (coef 1 192)) (fun t => ((List.range 8).map fun r => matAt t.mat (8 * r))
      == [5, 4, 2, 1, -1, -2, -4, -4]) = true := by decide +kernel

/-- Vector V28: 250 + 9 is 255, 3 - 7 is 0, 128 - 1 is 127. -/
theorem test_addClamp : addClamp 250 9 = 255 ∧ addClamp 3 (-7) = 0 ∧ addClamp 128 (-1) = 127
    ∧ addClamp 0 (-18874368) = 0 := by decide

/-- R188: the block's first pixel and no other. -/
theorem test_addResidual :
    got (exec (.applyResidual .add .luma 8 8 .four) (coef 0 9)) (fun t => row t .luma 7 8 3 == [0, 9, 0]) = true := by
  decide +kernel

/-! ## Intra prediction: vector V30 -/

theorem test_predV : got (exec (.predV (b4 8 8)) v30) (fun t => rows4 t 8 8 == List.replicate 4 [10, 20, 30, 40]) = true := by
  decide +kernel

theorem test_predH :
    got (exec (.predH (b4 8 8)) v30) (fun t => row t .luma 8 9 4 == [60, 60, 60, 60]) = true := by decide +kernel

theorem test_predPlane :
    got (exec (.predPlane (b4 8 8)) { v30 with planeDelta := 3 }) (fun t => rows4 t 8 8
      == [[33, 38, 43, 48], [38, 43, 48, 53], [43, 48, 53, 58], [48, 53, 58, 63]]) = true := by decide +kernel

theorem test_predDC : got (exec (.predDC (b4 8 8)) v30) (fun t => rows4 t 8 8 == List.replicate 4 [45, 45, 45, 45]) = true := by
  decide +kernel

theorem test_predHU :
    got (exec (.predHU (b4 8 8)) v30) (fun t => rows4 t 8 8
      == [[55, 60, 65, 70], [65, 70, 75, 78], [75, 78, 80, 80], [80, 80, 80, 80]]) = true := by decide +kernel

theorem test_predHD :
    got (exec (.predHD (b4 8 8)) v30) (fun t => rows4 t 8 8
      == [[75, 65, 35, 20], [55, 65, 75, 65], [65, 60, 55, 65], [75, 70, 65, 60]]) = true := by decide +kernel

theorem test_predVR :
    got (exec (.predVR (b4 8 8)) v30) (fun t => rows4 t 8 8
      == [[55, 15, 25, 35], [65, 35, 20, 30], [65, 55, 15, 25], [60, 65, 35, 20]]) = true := by decide +kernel

theorem test_predDDR :
    got (exec (.predDDR (b4 8 8)) v30) (fun t => rows4 t 8 8
      == [[65, 35, 20, 30], [65, 65, 35, 20], [60, 65, 65, 35], [70, 60, 65, 65]]) = true := by decide +kernel

theorem test_predVL :
    got (exec (.predVL (b4 8 8)) v30) (fun t => rows4 t 8 8
      == [[15, 25, 35, 45], [20, 30, 40, 50], [25, 35, 45, 55], [30, 40, 50, 60]]) = true := by decide +kernel

/-- Vector V33: VerticalLeft at column 28 of 32 leaves the plane; vector V32: DC at the origin is 128. -/
theorem test_pred_edges :
    (raised (exec (.predVL (b4 28 8)) v30) .invalidGeometry 0
      && got (exec (.predDC (b4 0 0)) v30) (fun t => row t .luma 0 0 1 == [128])) = true := by decide +kernel

/-- R202: `PRE[1]` = 0, `PRE[4]` = 3: the predicted mode of block 5 is 0; of block 0 it is DC. -/
theorem test_predictedMode :
    ({ at' [] [] with pre := ((Vector.replicate 16 none).set 1 (some 0)).set 4 (some 3) } : State).predictedMode 5 = 0
      ∧ (at' [] []).predictedMode 0 = 3 := by decide +kernel

/-- Vector V34: predicted 3, bits `0 011`: the mode is 4. -/
theorem test_mpmRem :
    got (exec (.mpmRem (b4 0 0) 3) (at' (w 4 0b0011) [])) (fun t => t.pre[0] == some 4 && t.cursor.bitpos == 4
      && t.agenda == [.predCode (b4 0 0) 4]) = true := by decide +kernel

/-! ## Macroblocks, motion, frames -/

/-- R232: index 3 selects `CBP_ROM[3]`; 64 is a `FormatError` after its 13 bits. -/
theorem test_cbpidx :
    (got (exec (.cbpidx 3) (at' (w 5 0b00100) [])) (fun t => t.cbpMask == 3 && t.cursor.bitpos == 5)
      && raised (step (at' (w 13 0b0000001000001) [.cbpidx])) .formatError 13) = true := by decide +kernel

/-- R235 with TESTROM: `f` = 5 has the mask 0101: blocks 0 and 2. -/
theorem test_partflag :
    got (step (at' (w 5 0b00110) [.partflag .luma 8 8 .nothing])) (fun t => t.agenda == [
      .op (.predictBlock (b4 8 8) .nothing), .op (.applyResidual .start .luma 8 8 .four),
      .op (.predictBlock (b4 12 8) .nothing), .op (.predictBlock (b4 8 12) .nothing),
      .op (.applyResidual .start .luma 8 12 .four), .op (.predictBlock (b4 12 12) .nothing)]) = true := by decide +kernel

/-- A vector. -/
def mv (x y : Int) : MV := { x := BitVec.ofInt 32 x, y := BitVec.ofInt 32 y }

/-- R250: (2,-4), (6,0), (-1,3) have the median (2,0). -/
theorem test_predictMV :
    got (exec .predictMV { at' [] [] with mvc := [mv 2 (-4), mv 6 0, mv (-1) 3, mv 0 0] }) (fun t => t.pmv == mv 2 0)
      = true := by decide +kernel

/-- R252, R255: `PMV` = (2,0), delta (-1,2), mode 3: the vector (1,2) from slot 3, the chroma vector (0,1). -/
theorem test_mvDelta3 :
    got (exec (.mvDelta3 mb0) { at' [] [] with pmv := mv 2 0, mvdx := -1, mvdy := 2 }) (fun t =>
      t.mvc == [mv 0 0, mv 1 2, mv 0 0, mv 0 0]
        && t.agenda.head? == some (.op (.copyBlock 3 .luma mb0 (mv 1 2)))
        && t.agenda.drop 2 == [.op (.copyBlock 3 .chromaV { x := 0, y := 0, w := 8, h := 8 } (mv 0 1))]) = true := by
  decide +kernel

/-- A reference slot 1 with two samples in each of two rows at the origin. -/
def reference (a b c d : Byte) : State :=
  let s := at' [] []
  { s with ring := { s.ring with f1 := { (s.ring.f1.write .zero 0 a).write .zero 1 b with tag := .yCbCr } } } |> fun s =>
    { s with ring := { s.ring with f1 := (s.ring.f1.write .zero 32 c).write .zero 33 d } }

/-- R254: 3 and 4 give 3; 2, 2 over 0, 0 give 1 with the horizontal averages taken first. -/
theorem test_copyBlock :
    (got (exec (.copyBlock 1 .luma { x := 0, y := 0, w := 1, h := 1 } (mv 1 0)) (reference 3 4 0 0))
        (fun t => row t .luma 0 0 2 == [3, 0])
      && got (exec (.copyBlock 1 .luma { x := 0, y := 0, w := 1, h := 1 } (mv 1 1)) (reference 2 2 0 0))
        (fun t => row t .luma 0 0 2 == [1, 0])) = true := by decide +kernel

/-- R62, R318: a sample left of the plane is `InvalidGeometry`, never clamped; a copy that fails in its second row has written
its first. -/
theorem test_copyBlock_outside :
    (raised (exec (.copyBlock 1 .luma mb0 (mv (-1) 0)) (at' [] [])) .invalidGeometry 0
      && got (exec (.copyBlock 1 .luma { x := 0, y := 0, w := 2, h := 2 } (mv 0 62)) (draw (at' [] []) [(0, 0, 9), (0, 1, 7)]))
        fun t => row t .luma 0 0 1 == [0] && row t .luma 0 1 1 == [7] && t.err.isSome) = true := by decide +kernel

/-- R256, R257: the halves 16×8 have a tree in this configuration, the halves 8×16 have none. -/
theorem test_splits :
    (got (exec (.mvSplitH mb0) (at' [] [])) (fun t => t.agenda
        == [.mvmode { x := 0, y := 0, w := 16, h := 8 }, .mvmode { x := 0, y := 8, w := 16, h := 8 }])
      && raised (exec (.mvSplitW mb0) (at' [] [])) .unsupportedMode 0
      && raised (exec (.mbIntra { mb0 with h := 8 }) (at' [] [])) .unsupportedMode 0) = true := by decide +kernel

/-- Vector V60 in one rotation: the buffers by slot, and slot 0 cleared. -/
theorem test_rotate :
    got (exec .rotateAndClear v30) (fun t => (List.finRange 6).map (fun k => (t.ring.at k).buf) == [5, 0, 1, 2, 3, 4]
      && row t .luma 8 7 2 == [0, 0] && (t.byteAt 1 (pixAddr t.cfg .luma 8 7)) == 10) = true := by decide +kernel

/-- R294: the header `1 1 0 011010` leaves `CS` = 1, `VLCIDX` = 0, `QP` = 26, (`QIDX`, `QSH4`, `QSH8`) = (2, 4, 2). -/
theorem test_iframe_header :
    got (steps 7 ((State.resetWith cfg).submit (pack cfg (w 9 0b110011010)))) (fun t => t.cs == .yCbCr && !t.vlcidx
      && t.qp == 26 && t.hdrvalid && t.qidx == 2 && t.qsh4 == 4 && t.qsh8 == 2 && t.cursor.bitpos == 9) = true := by
  decide +kernel

/-- R296: carried `QP` = 26, bits `011`: 25. Without a key frame before, `FormatError`. -/
theorem test_pframe_header :
    (got (step { at' (w 3 0b011) [.qpdelta] with qp := 26, hdrvalid := true }) (fun t => t.qp == 25)
      && raised (step (at' (w 3 0b011) [.qpdelta])) .formatError 3) = true := by decide +kernel

/-- R311, R312: a call with no input raises `EndOfStream` at bit 0 in macroblock 0, code 1. -/
theorem test_endOfStream :
    got (steps 2 ((State.resetWith cfg).submit [])) (fun t =>
      t.err == some { kind := .endOfStream, code := 1, bitpos := 0, mbi := 0 } && t.phase == .awaitFrame && !t.handed
        && t.ring == Ring.allocated) = true := by decide +kernel

/-- R295, R298: the end of a frame tags slot 0 and hands it over. -/
theorem test_frame_end :
    got (steps 4 { at' [] [.op (.decodeFrame (.macroblockDone .intra))] with mbi := 3, cs := .yCbCr }) (fun t =>
      t.mbi == 4 && t.ring.f0.tag == .yCbCr && t.phase == .awaitFrame && t.handed) = true := by decide +kernel

/-! ## Witnesses: the hypotheses of each obligation, met together

One theorem per obligation with hypotheses, named after it; each clause at a boundary value of its range. -/

/-- A read succeeded. -/
def isOk {α : Type} (r : ReadOut α) : Bool :=
  match r with
  | .ok _ _ => true
  | .err _ _ => false

/-- The state with `n` bits of its input read. -/
def after (n : Nat) (s : State) : State :=
  match s.cursor.read s.cfg n with
  | .ok _ c => { s with cursor := c }
  | .err _ _ => s

/-- The state with the bits `bits` ahead. -/
def withBits (s : State) (bits : List Bool) : State := { s with cursor := Cursor.start (pack s.cfg bits) }

/-- Every listed code stands at the cursor, and its instruction is well-formed. -/
def codesStand (s : State) (l : List (List Bool × Instr)) : Bool :=
  l.all fun q =>
    let t := withBits s q.1
    t.cursor.ok t.cfg && q.2.wellFormed t.ctx && (encode t.ctx q.2).isPrefixOf (t.cursor.ahead t.cfg)

/-- Every listed code stands at the cursor of a legal machine. -/
def readsAll (s : State) (l : List (List Bool × Instr)) : Prop := ∀ q ∈ l, (withBits s q.1).reads q.2 = true

/-- The configuration is checked once for all of them. -/
theorem readsAll_of {s : State} {l : List (List Bool × Instr)} (h : codesStand s l = true) (hc : s.cfg.wellFormed = true) :
    readsAll s l := by
  intro q hq
  have h' := List.all_eq_true.mp h q hq
  simp only [Bool.and_eq_true] at h'
  simp only [State.reads, withBits, hc, Bool.true_and, Bool.and_eq_true] at h' ⊢
  exact h'

/-- A state in the middle of a call, with nothing ahead. -/
def mid : State := at' [] []

/-- The largest code of format `G`: thirty zeros and the numeral of `2^31 - 1`. -/
def longest : List Bool := List.replicate 30 false ++ List.replicate 31 true

theorem witness_ReadDeliversStreamBits :
    let c := Cursor.start (pack cfg (w 32 7))
    c.ok cfg = true ∧ 1 ≤ (c.ahead cfg).length ∧ 32 ≤ (c.ahead cfg).length
      ∧ (Cursor.start []).ok cfg = true ∧ ((Cursor.start []).ahead cfg).length < 1
      ∧ (after 1 (at' (w 32 7) [])).cursor.ok cfg = true
      ∧ ((after 1 (at' (w 32 7) [])).cursor.ahead cfg).length < 32 := by decide +kernel

theorem witness_PositionLaw :
    isOk (Cursor.readAll cfg [1, 32, 15] (Cursor.start (pack cfg (w 48 5)))) = true ∧ ∀ n ∈ [1, 32, 15], 1 ≤ n ∧ n ≤ 32 := by
  decide +kernel

theorem witness_RoundTripLaw :
    (∀ p ∈ [(1, 1), (2 ^ 32 - 1, 32), (0, 5)], p.1 < 2 ^ p.2 ∧ 1 ≤ p.2 ∧ p.2 ≤ 32)
      ∧ ([(1, 1), (2 ^ 32 - 1, 32), (0, 5)].flatMap fun p => bitsOf p.2 p.1).isPrefixOf
        (streamOf cfg (pack cfg (w 1 1 ++ w 32 (2 ^ 32 - 1) ++ w 5 0))) = true := by decide +kernel

/-- The instructions of the next theorem with their codes. -/
def primitiveCodes : List (List Bool × Instr) :=
  [(w 1 1, .readF 1 1), (w 32 7, .readF 32 7), (w 1 1, .readS 1 (-1)), (w 32 7, .readS 32 7), (w 1 0, .readB false),
    (w 1 1, .readG 1), (longest, .readG (2 ^ 31 - 1)), (w 1 1, .readUE 0), (longest, .readUE (2 ^ 31 - 2)),
    (w 1 1, .readSE 0), (longest, .readSE (-(2 ^ 30 - 1))), (w 10 0x19, .readH (.res false) 0x802),
    (w 7 3, .readH (.mv true 16 8) 5)]

theorem witness_PrimitivesReturnTheirValue :
    readsAll mid primitiveCodes ∧ (primitiveCodes.all fun q => q.2.primitiveValue.isSome) = true :=
  ⟨readsAll_of (by decide +kernel) test_cfg_wellFormed, by decide +kernel⟩

/-- The position `t` in the middle of a call, with exactly `bits` left in the input. -/
def ending (t : Sys2Proof.Task) (bits : List Bool) : State :=
  let pad := (16 - bits.length % 16) % 16
  after pad (at' (List.replicate pad false ++ bits) [t])

/-- The positions of each clause of `ReadErrorsAreTaken` with the bits left there, at the boundaries of its ranges. -/
def endings : List (Sys2Proof.Task × List Bool) :=
  [(.mvdy, w 32 1), (.read .se, List.replicate 31 false), (.cbpidx, []), (.qpdelta, List.replicate 30 false),
    (.partflag .luma 0 0 .nothing, [false, true]), (.read .g, List.replicate 30 false ++ true :: List.replicate 29 true),
    (.ftype, []), (.rawamp, w 11 0), (.read (.f 1), []), (.read (.s 32), w 31 0), (.mpm (b4 4 4), []),
    (.mpm (b4 4 4), [false]), (.mpm (b4 4 4), [false, true, true]), (.form .four, []), (.form .eight, [false]),
    (.hsym, []), (.hsym, w 9 0b000001100), (.mvmode mb0, []), (.mvmode mb0, w 6 1), (.read (.h (.res true)), [true, true])]

theorem witness_ReadErrorsAreTaken :
    (endings.all fun q =>
      let s := ending q.1 q.2
      s.agenda == [q.1] && s.cursor.ok s.cfg && s.cursor.ahead s.cfg == q.2) = true
    ∧ (ending (.form .four) []).symAmp = 0 ∧ (ending .hsym []).ctx = { ctx with cbp := 0 }
    ∧ (cfg.res0.huff.tree.at []).isNode = true ∧ (cfg.res0.huff.tree.at (w 9 0b000001100)).isNode = true
    ∧ cfg.res0.huff.limit = some 10
    ∧ ((ctx.rom (.mv cfg.stereo 16 16)).any fun r => r.limit.all (6 < ·) && (r.tree.at []).isNode
      && (r.tree.at (w 6 1)).isNode) = true
    ∧ ((ctx.rom (.res true)).any fun r => r.limit.all (2 < ·) && (r.tree.at [true, true]).isNode) = true := by
  decide +kernel

theorem witness_HuffDecodeReturnsTheLeaf :
    cfg.res0.huff.wellFormed 4096 = true ∧ (w 10 0x19, 0x802) ∈ cfg.res0.huff.tree.leaves
      ∧ (Cursor.start (pack cfg (w 10 0x19))).ok cfg = true
      ∧ (w 10 0x19).isPrefixOf ((Cursor.start (pack cfg (w 10 0x19))).ahead cfg) = true ∧ cfg.wellFormed = true := by
  decide +kernel

theorem witness_HuffDecodeOffTheTree :
    (tree0.at (w 9 0b000001100)).isNode = true ∧ tree0.at (w 9 0b000001100 ++ [false]) = .absent ∧ 9 < 10
      ∧ (w 9 0b000001100 ++ [false]).isPrefixOf ((Cursor.start (pack cfg (w 16 0b0000011000000000))).ahead cfg) = true
      ∧ (Cursor.start (pack cfg (w 16 0b0000011000000000))).ok cfg = true
      ∧ (tree0.at []).isNode = true ∧ (w 8 0b00000110).length = 8 ∧ (tree0.at (w 8 0b00000110)).isNode = true
      ∧ (w 8 0b00000110).isPrefixOf ((Cursor.start (pack cfg (w 16 0b0000011000000000))).ahead cfg) = true
      ∧ (let s := at' (w 16 0b0000011000000000) [.hsym];
        s.agenda = [.hsym] ∧ s.cursor.ok s.cfg = true ∧ s.vlcidx = false ∧ cfg.res0.huff = { tree := tree0, limit := some 10 }
          ∧ (w 9 0b000001100 ++ [false]).isPrefixOf (s.cursor.ahead s.cfg) = true)
      ∧ (let s := at' (w 16 0) [.mvmode mb0];
        s.agenda = [.mvmode mb0] ∧ s.cursor.ok s.cfg = true
          ∧ s.ctx.rom (.mv s.cfg.stereo mb0.w mb0.h) = some { tree := mvTree, limit := some 7 }
          ∧ (w 5 0 ++ [false]).isPrefixOf (s.cursor.ahead s.cfg) = true)
      ∧ (mvTree.at (w 5 0)).isNode = true ∧ mvTree.at (w 5 0 ++ [false]) = .absent ∧ (w 5 0).length < 7 := by
  decide +kernel

theorem witness_InsertAddsOneLeaf :
    (tree0.insert (w 7 0) 5).isSome = true ∧ tree0.live = true ∧ (tree0.insert (w 2 0) 5).isNone = true
      ∧ (HuffTree.empty.insert [true] 0).isSome = true := by decide +kernel

theorem witness_ResidualElementsLatched :
    readsAll mid [(w 4 1, .hsym 0x822), (w 8 3, .hsymT0x000), (w 10 0x19, .hsymT0x802), (w 1 1, .sign true),
      (w 1 0, .sign false), (w 1 1, .rawend true), (w 6 63, .rawrun 63), (w 12 0x800, .rawamp (-2048)),
      (w 12 0x7ff, .rawamp 2047)] :=
  readsAll_of (by decide +kernel) test_cfg_wellFormed

theorem witness_ResidualFormsSchedule :
    readsAll mid [(w 1 1, .rsymAmpEsc .select .four), (w 2 1, .rsymRunEsc .select .eight), (w 2 0, .rsymRaw .four)]
      ∧ State.symRun { mid with symRun := 63 } = 63 ∧ State.symAmp { mid with symAmp := 31 } = 31 :=
  ⟨readsAll_of (by decide +kernel) test_cfg_wellFormed, by decide +kernel⟩

theorem witness_RomEscapesRun :
    (w 4 1, 0x822) ∈ (cfg.res false).huff.tree.leaves ∧ cfg.wellFormed = true
      ∧ (let s := at' (w 6 0b100011) [.form .four];
        s.cursor.ok s.cfg = true ∧ s.agenda = [.form .four] ∧ s.symAmp = 0
          ∧ (true :: (w 4 1 ++ [true])).isPrefixOf (s.cursor.ahead s.cfg) = true)
      ∧ let s := at' (w 7 0b0100011) [.form .four];
        s.cursor.ok s.cfg = true ∧ s.agenda = [.form .four] ∧ s.symAmp = 0
          ∧ (false :: true :: (w 4 1 ++ [true])).isPrefixOf (s.cursor.ahead s.cfg) = true := by decide +kernel

theorem witness_RawEscapeRuns :
    let s := at' (w 21 0b001001110100000000000) [.form .four]
    s.cursor.ok s.cfg = true ∧ s.agenda = [.form .four] ∧ s.symAmp = 0
      ∧ (false :: false :: true :: (bitsOf 6 (14 : BitVec 6).toNat ++ bitsOf 12 (-2048 : BitVec 12).toNat)).isPrefixOf
        (s.cursor.ahead s.cfg) = true := by decide +kernel

theorem witness_CoefficientPut :
    0 ≤ ((0 : Word) + 0).toInt ∧ ((14 : Word) + 1).toInt < (TSize.four.len : Int)
      ∧ (TSize.four.len : Int) ≤ ((15 : Word) + 1).toInt ∧ ((63 : Word) + 0).toInt < (TSize.eight.len : Int)
      ∧ (TSize.eight.len : Int) ≤ ((1 : Word) + 63).toInt := by decide

theorem witness_NegativeZigzagCursorGoesOn :
    (State.zpos { mid with zpos := 0, symRun := -1 } + State.symRun { mid with zpos := 0, symRun := -1 }).toInt < 0 := by
  decide

theorem witness_DcOnlyBlockIsFlat : ((List.range 64).all fun i => i == 0 || matAt (coef 0 208).mat i == 0) = true := by
  decide +kernel

theorem witness_ResidualIsAddedAndClamped :
    28 + TSize.four.n ≤ planeWidth cfg .luma ∧ 8 + TSize.eight.n ≤ planeHeight cfg .chromaV := by decide

theorem witness_QuantizerRegistersDerived :
    12 ≤ (12 : Word).toInt ∧ (12 : Word).toInt ≤ 191 ∧ 12 ≤ (191 : Word).toInt ∧ (191 : Word).toInt ≤ 191 := by decide

/-- Blocks inside their planes, with and without a row above and a column to the left: the hypotheses of the eight
obligations on single modes. -/
theorem witness_predicted_blocks :
    (b4 28 1).inside cfg = true ∧ (b4 1 28).inside cfg = true ∧ (b4 0 0).inside cfg = true ∧ (b4 1 1).inside cfg = true
      ∧ ({ plane := .chromaV, x := 8, y := 8, size := .eight } : Block).inside cfg = true
      ∧ ({ plane := .luma, x := 16, y := 16, size := .sixteen } : Block).inside cfg = true := by decide

theorem witness_VerticalLeftFormula :
    (b4 25 1).inside cfg = true ∧ 25 + 4 + 4 / 2 < planeWidth cfg .luma ∧ (b4 26 1).inside cfg = true
      ∧ planeWidth cfg .luma ≤ 26 + 4 + 4 / 2 := by decide

theorem witness_UnavailableNeighbourTraps : (b4 8 0).y = 0 ∧ (b4 0 8).x = 0 ∧ (b4 0 0).x = 0 ∧ (b4 0 0).y = 0 := by decide

theorem witness_PredictBlockRunsItsRule :
    cfg.wellFormed = true ∧ IntraMode.dc ≠ .deltaPlane
      ∧ (at' [] [.op (.predictBlock (b4 8 8) (.explicit .dc))]).agenda = [.op (.predictBlock (b4 8 8) (.explicit .dc))] := by
  decide +kernel

/-- A mode cache with Vertical above block 5 and DC to its left. -/
def cached : State := { mid with pre := ((Vector.replicate 16 none).set 1 (some 0)).set 4 (some 3) }

theorem witness_PredictedModeRule :
    (cached.pre[5 - 4]?).join = some 0 ∧ (cached.pre[5 - 1]?).join = some 3
      ∧ (cached.pre[2 - 1]?).join = some 0 ∧ (cached.pre[8 - 4]?).join = some 3
      ∧ (cached.pre[15 - 4]?).join = none ∧ (cached.pre[15 - 1]?).join = none := by decide +kernel

theorem witness_ModeIsDecodedAndRecorded :
    readsAll cached [(w 1 1, .mpmTaken (b4 4 4)), (w 4 0b0000, .mpmRem (b4 12 12) 0), (w 4 0b0111, .mpmRem (b4 12 12) 7),
      (w 1 1, .mpmTaken { plane := .luma, x := 8, y := 8, size := .eight })]
      ∧ cached.predictedMode (cached.modeIndex (b4 4 4)) = 0 ∧ cached.predictedMode (cached.modeIndex (b4 12 12)) = 3 :=
  ⟨readsAll_of (by decide +kernel) test_cfg_wellFormed, by decide +kernel⟩

theorem witness_SignedElementsLatched :
    readsAll mid [(w 5 0b00110, .dpdelta 3), (longest, .mvdx (-(2 ^ 30 - 1))), (w 1 1, .mvdy 0)] :=
  readsAll_of (by decide +kernel) test_cfg_wellFormed

theorem witness_ExplicitModes :
    readsAll mid [(w 3 2, .mode3 2), (w 3 7, .mode3 7), (w 3 0, .cmode3 0)] ∧ cfg.modeCode[2]? = some .deltaPlane
      ∧ cfg.modeCode[7]? = some .diagonalDownRight ∧ cfg.modeCode[0]? = some .vertical :=
  ⟨readsAll_of (by decide +kernel) test_cfg_wellFormed, by decide +kernel⟩

theorem witness_CodedBlockPatternAndPartition :
    readsAll mid [(w 13 0b0000001000000, .cbpidx 63), (w 13 0b0000001000001, .cbpidx 64),
      (w 1 1, .partflag8x8 .luma 8 8 .predicted), (w 3 0b010, .partflag4x4 .luma 8 8 .nothing 1),
      (w 9 0b000010001, .partflag4x4 .chromaU 0 0 .nothing 16), (w 9 0b000010010, .partflag4x4 .luma 8 8 .nothing 17)]
      ∧ (at' [] [.block8 .chromaV 0 0 .nothing 5]).agenda = [.block8 .chromaV 0 0 .nothing 5]
      ∧ (at' [] [.block8 .luma 0 0 .nothing 0]).agenda = [.block8 .luma 0 0 .nothing 0] :=
  ⟨readsAll_of (by decide +kernel) test_cfg_wellFormed, by decide +kernel⟩

theorem witness_PredictedVectorIsTheMedian :
    (let s : State := { mid with mvc := [mv 2 (-4), mv 6 0, mv (-1) 3, mv 0 0] };
      s.mvc[s.mbx]? = some (mv 2 (-4)) ∧ s.mvc[s.mbx + 1]? = some (mv 6 0) ∧ s.mvc[s.mbx + 2]? = some (mv (-1) 3))
    ∧ let s : State := { mid with mbi := 3 };
      s.mvc[s.mbx]? = some (mv 0 0) ∧ s.mvc[s.mbx + 1]? = some (mv 0 0) ∧ s.mvc[s.mbx + 2]? = some (mv 0 0) := by
  decide +kernel

theorem witness_MotionModeSchedules :
    readsAll mid [(w 1 1, .mvmode mb0 0), (w 7 3, .mvmode mb0 5), (w 5 2, .mvmode mb0 6),
      (w 4 3, .mvmode { mb0 with h := 8 } 9)] ∧ (at' [] [.mvValue mb0 10]).agenda = [.mvValue mb0 10] :=
  ⟨readsAll_of (by decide +kernel) test_cfg_wellFormed, by decide +kernel⟩

theorem witness_LeafStoresItsVectorAndCopies (s : State) :
    (Instr.mvPred mb0 = .mvPred mb0 ∧ (1 : Fin 6) = 1 ∧ s.pmv = s.pmv)
      ∧ (Instr.mvDelta5 mb0 = .mvDelta5 mb0 ∧ (5 : Fin 6) = 5
        ∧ s.deltaMV = { x := s.pmv.x + s.mvdx, y := s.pmv.y + s.mvdy }) := ⟨⟨rfl, rfl, rfl⟩, rfl, rfl, rfl⟩

/-- All six hypotheses on the rectangle `r` and the vector `v`. -/
def copyFits (r : Rect) (v : MV) : Bool :=
  decide (0 ≤ r.x + v.x.toInt / 2) && decide (r.x + r.w + v.x.toInt / 2 + v.x.toInt % 2 ≤ planeWidth cfg .luma)
    && decide (0 ≤ r.y + v.y.toInt / 2) && decide (r.y + r.h + v.y.toInt / 2 + v.y.toInt % 2 ≤ planeHeight cfg .luma)
    && decide (r.x + r.w ≤ planeWidth cfg .luma) && decide (r.y + r.h ≤ planeHeight cfg .luma)

theorem witness_CopyBlockHalfPel :
    (copyFits { mb0 with x := 16, y := 16 } (mv 0 0) && copyFits { mb0 with x := 16 } (mv (-1) 32)
      && copyFits { mb0 with y := 16 } (mv 32 (-31)) && copyFits { mb0 with x := 16, y := 16 } (mv (-31) (-31))) = true := by
  decide

theorem witness_CopyBlockOutsideTraps :
    0 < mb0.w ∧ 0 < mb0.h ∧ (0 : Int) + (mv (-1) 0).x.toInt / 2 < 0
      ∧ (planeWidth cfg .luma : Int) < 16 + 16 + (mv 1 0).x.toInt / 2 + (mv 1 0).x.toInt % 2
      ∧ (0 : Int) + (mv 0 (-2)).y.toInt / 2 < 0
      ∧ (planeHeight cfg .luma : Int) < 16 + 16 + (mv 0 1).y.toInt / 2 + (mv 0 1).y.toInt % 2
      ∧ planeWidth cfg .luma < 17 + 16 ∧ planeHeight cfg .luma < 17 + 16 := by decide

theorem witness_SplitsScheduleTheirHalves :
    (cfg.mvTree? 16 (16 / 2)).isSome = true ∧ cfg.mvTree? 16 (8 / 2) = none ∧ (cfg.mvTree? (16 / 2) 16) = none
      ∧ (cfg.mvTree? (32 / 2) 16).isSome = true := by decide +kernel

theorem witness_IntraEscapes : mb0.w = 16 ∧ mb0.h = 16 ∧ ¬ (({ mb0 with h := 8 } : Rect).w = 16
    ∧ ({ mb0 with h := 8 } : Rect).h = 16) := by decide

theorem witness_ZeroVectorCopiesTheCoLocatedMacroblock :
    let s : State := { mid with mbi := 3, agenda := [.mvValue { x := 16, y := 16, w := 16, h := 16 } 0] }
    s.cfg.wellFormed = true ∧ s.mbi < s.mbTotal ∧ s.pmv = { x := 0, y := 0 } ∧ s.agenda = [.mvValue s.mbRect 0] := by
  decide +kernel

theorem witness_CallBeginsAndEnds :
    (State.resetWith cfg).phase = .awaitFrame ∧ mid.phase ≠ .awaitFrame ∧ 3 < cfg.mbw * cfg.mbh ∧ cfg.mbw * cfg.mbh ≤ 4 := by
  decide

theorem witness_FrameTypeSelects :
    readsAll mid [(w 1 1, .ftypeI), (w 1 0, .ftypeP), (w 1 1, .subflag true), (w 1 0, .subflag false)] :=
  readsAll_of (by decide +kernel) test_cfg_wellFormed

theorem witness_IFrameHeader :
    readsAll mid [(w 1 1, .csbit true), (w 1 0, .vlcbit false), (w 6 12, .qp6 12), (w 6 11, .qp6 11), (w 6 63, .qp6 63)]
      ∧ cfg.qpMin = 12 ∧ (63 : Int) ≤ cfg.qpMax
      ∧ State.reads { at' (w 6 41) [] with cfg := { cfg with qpMax := 40 } } (.qp6 41) = true :=
  ⟨readsAll_of (by decide +kernel) test_cfg_wellFormed, by decide +kernel⟩

theorem witness_PFrameHeader :
    readsAll mid [(w 3 0b011, .qpdelta (-1)), (w 3 0b010, .qpdelta 1), (w 1 1, .qpdelta 0)] ∧ mid.hdrvalid = false
      ∧ cfg.qpMin ≤ (12 : Word).toInt ∧ (12 : Word).toInt + 0 = cfg.qpMin ∧ (12 : Word).toInt + -1 < cfg.qpMin
      ∧ (161 : Word).toInt + 0 = cfg.qpMax ∧ cfg.qpMax < (161 : Word).toInt + 1 :=
  ⟨readsAll_of (by decide +kernel) test_cfg_wellFormed, by decide +kernel⟩

theorem witness_StepRunsTheDecodedInstruction :
    decode ctx (Cursor.start (pack cfg (w 1 1))) .csbit = .instr (.csbit true)
      ∧ decode ctx (Cursor.start []) .csbit = .trap .endOfStream (Cursor.start [])
      ∧ ((State.resetWith cfg).submit [1]).calls = [[1]] ∧ (State.resetWith cfg).calls = []
      ∧ (State.resetWith cfg).agenda = [] := by decide +kernel

theorem witness_DecodeUndoesEncode :
    ctx.cfg.wellFormed = true ∧ (Cursor.start (pack cfg longest)).ok cfg = true
      ∧ (Instr.cbpidx (2 ^ 31 - 2)).wellFormed ctx = true
      ∧ (encode ctx (.cbpidx (2 ^ 31 - 2))).isPrefixOf ((Cursor.start (pack cfg longest)).ahead cfg) = true
      ∧ (Instr.predVL (b4 8 8)).wellFormed ctx = true ∧ encode ctx (.predVL (b4 8 8)) = []
      ∧ (Instr.setQuantizer 161).wellFormed ctx = true := by decide +kernel

/-- The invariant holds, and the machine goes on, along an I-frame's header and into its first macroblock. -/
theorem witness_invariant_obligations :
    ([0, 7, 11].all fun k => got (steps k ((State.resetWith cfg).submit (pack cfg (w 17 0b11001101001011011))))
      fun s => s.inv && got (step s) fun _ => true) = true := by decide +kernel

theorem witness_RegistersHaveNamedWriters :
    (got (exec (.predNone (b4 8 8)) mid) (fun _ => true) && got (exec (.copyBlock 1 .luma mb0 (mv (-1) 0)) mid) fun _ => true)
      = true := by decide +kernel

theorem witness_ReferenceSlotsAreReadByCopyOnly :
    got (exec (.predDC (b4 8 8)) mid) (fun _ => true) = true ∧ Instr.predDC (b4 8 8) ≠ .rotateAndClear := by decide +kernel

theorem witness_ConfigurationFixedAndBitposForward :
    let s := at' (w 1 1) [.csbit]
    got (step s) (fun _ => true) = true ∧ s.phase ≠ .awaitFrame ∧ s.agenda ≠ [] := by decide +kernel

theorem witness_IFrameDependsOnNoReference :
    let s := at' (w 8 0) [.csbit, .vlcbit, .qp6]
    s.calls = [] ∧ s.agenda.all (intraTask s.cfg) = true := by decide +kernel

end Sys2Proof.Slice0Tests
end

section
/-! SUPPORT. Where a read leaves the cursor (40_bitcursor.md): every read operation, whether it succeeds or fails, keeps
`IN`, does not move `BITPOS` back, and keeps the cursor in order. -/

namespace Sys2Proof

/-! ## Forward moves of the cursor -/

/-- `c'` is where reading from `c` may leave the cursor. -/
structure Cursor.Forward (cfg : Config) (c c' : Cursor) : Prop where
  input : c'.input = c.input
  bitpos : c.bitpos ≤ c'.bitpos
  ok : c.ok cfg = true → c'.ok cfg = true

@[simp] theorem Cursor.Forward.refl (cfg : Config) (c : Cursor) : c.Forward cfg c := ⟨rfl, le_rfl, id⟩

theorem Cursor.Forward.trans {cfg : Config} {a b c : Cursor} (h : a.Forward cfg b) (k : b.Forward cfg c) :
    a.Forward cfg c := ⟨k.input.trans h.input, h.bitpos.trans k.bitpos, k.ok ∘ h.ok⟩

/-- The cursor a read operation ends with, whether it succeeds or fails. -/
def ReadOut.cursor {α : Type} : ReadOut α → Cursor
  | .ok _ c => c
  | .err _ c => c

/-- The read operation `r` only moves the cursor forward. -/
def ReadsForward (cfg : Config) {α : Type} (r : Cursor → ReadOut α) : Prop :=
  ∀ c : Cursor, c.Forward cfg (r c).cursor

theorem ReadsForward.of_ok {cfg : Config} {α : Type} {r : Cursor → ReadOut α} (hr : ReadsForward cfg r) {c c' : Cursor}
    {v : α} (h : r c = .ok v c') : c.Forward cfg c' := by
  have := hr c
  rwa [h] at this

theorem ReadsForward.of_err {cfg : Config} {α : Type} {r : Cursor → ReadOut α} (hr : ReadsForward cfg r) {c c' : Cursor}
    {e : ErrorKind} (h : r c = .err e c') : c.Forward cfg c' := by
  have := hr c
  rwa [h] at this

/-! ## `Refill` and the filling loop (R121, R122) -/

theorem Cursor.refill_forward (cfg : Config) (c : Cursor) (hn : c.nbits < 32) : c.Forward cfg (c.refill cfg).cursor := by
  cases h : c.refill cfg with
  | err e c' =>
    obtain ⟨rfl, -, -⟩ := c.refill_err cfg c' e h
    exact .refl cfg c'
  | ok u c' =>
    have fields : c'.input = c.input ∧ c'.bitpos = c.bitpos := by
      simp only [Cursor.refill] at h
      split at h <;> cases h
      exact ⟨rfl, rfl⟩
    exact ⟨fields.1, fields.2.ge, fun hok => (c.refill_ok cfg c' hok hn h).1⟩

/-- A refill that succeeds buffers at least one bit more. -/
theorem Cursor.refill_nbits {cfg : Config} {c c' : Cursor} (h : c.refill cfg = .ok () c') : c.nbits + 1 ≤ c'.nbits := by
  have hb := cfg.blockBits.bytes_pos
  have hB := cfg.blockBits.bits_eq
  simp only [Cursor.refill] at h
  split at h <;> cases h
  dsimp only
  omega

theorem Cursor.fill_forward (cfg : Config) (n : Nat) (hn : n ≤ 32) : ∀ k, ReadsForward cfg (Cursor.fill cfg n k)
  | 0, c => .refl cfg c
  | k + 1, c => by
    simp only [Cursor.fill]
    split
    · rename_i hlt
      have hr := c.refill_forward cfg (by omega)
      cases h : c.refill cfg with
      | err e c' => rwa [h] at hr
      | ok u c' =>
        rw [h] at hr
        exact hr.trans (Cursor.fill_forward cfg n hn k c')
    · exact .refl cfg c

/-- A filling loop with enough rounds that succeeds has buffered the `n` bits. -/
theorem Cursor.fill_nbits (cfg : Config) (n : Nat) : ∀ (k : Nat) (c c' : Cursor), n ≤ c.nbits + k →
    c.fill cfg n k = .ok () c' → n ≤ c'.nbits
  | 0, c, c', hk, h => by
    cases h
    exact hk
  | k + 1, c, c', hk, h => by
    simp only [Cursor.fill] at h
    split at h
    · cases hr : c.refill cfg with
      | err e d => simp [hr] at h
      | ok u d =>
        rw [hr] at h
        have := Cursor.refill_nbits hr
        exact Cursor.fill_nbits cfg n k d c' (by omega) h
    · cases h
      omega

/-! ## `Read(n)` (R122) -/

/-- The last bits of a numeral. -/
theorem drop_bitsOf : ∀ (k n v : Nat), (bitsOf n v).drop k = bitsOf (n - k) v
  | 0, n, v => rfl
  | k + 1, 0, v => by simp [bitsOf]
  | k + 1, n + 1, v => by rw [bitsOf, List.drop_succ_cons, drop_bitsOf k n v, Nat.add_sub_add_right]

/-- Delivering `n` buffered bits keeps the cursor in order. -/
theorem Cursor.ok_deliver {cfg : Config} {c : Cursor} {n : Nat} (hok : c.ok cfg = true) (hn : n ≤ c.nbits) :
    Cursor.ok cfg { c with
      acc := BitVec.ofNat 64 (c.acc.toNat % 2 ^ (c.nbits - n))
      nbits := c.nbits - n
      bitpos := c.bitpos + n } = true := by
  obtain ⟨hpos, hin, hunit, hbuf, -, hbits⟩ := (c.ok_iff cfg).mp hok
  have hacc : (BitVec.ofNat 64 (c.acc.toNat % 2 ^ (c.nbits - n))).toNat = c.acc.toNat % 2 ^ (c.nbits - n) := by
    rw [BitVec.toNat_ofNat, Nat.mod_eq_of_lt ((Nat.mod_le _ _).trans_lt c.acc.isLt)]
  have hahead : bitsOf (c.nbits - n) c.acc.toNat = ((c.ahead cfg).drop n).take (c.nbits - n) := by
    rw [← drop_bitsOf, hbits, List.drop_take]
  rw [Cursor.ok_iff]
  dsimp only
  rw [hacc, bitsOf_mod]
  refine ⟨by omega, hin, hunit, by omega, Nat.mod_lt _ (by positivity), ?_⟩
  rw [hahead, Cursor.ahead, Cursor.ahead, List.drop_drop]

theorem Cursor.read_forward (cfg : Config) (n : Nat) (hn : n ≤ 32) : ReadsForward cfg (Cursor.read cfg n) := by
  intro c
  have hf := Cursor.fill_forward cfg n hn n c
  simp only [Cursor.read]
  cases h : c.fill cfg n n with
  | err e c' => rwa [h] at hf
  | ok u c' =>
    rw [h] at hf
    have hbuf : n ≤ c'.nbits := Cursor.fill_nbits cfg n n c c' (by omega) h
    exact ⟨hf.input, Nat.le_add_right_of_le hf.bitpos, fun hok => Cursor.ok_deliver (hf.ok hok) hbuf⟩

/-! ## The reads made of it (R123 to R127, R146) -/

theorem Cursor.readSigned_forward (cfg : Config) (n : Nat) (hn : n ≤ 32) : ReadsForward cfg (Cursor.readSigned cfg n) := by
  intro c
  have hr := Cursor.read_forward cfg n hn c
  simp only [Cursor.readSigned]
  cases h : c.read cfg n <;> rwa [h] at hr

theorem Cursor.readBool_forward (cfg : Config) : ReadsForward cfg (Cursor.readBool cfg) := by
  intro c
  have hr := Cursor.read_forward cfg 1 (by decide) c
  simp only [Cursor.readBool]
  cases h : c.read cfg 1 <;> rwa [h] at hr

theorem Cursor.gammaZeros_forward (cfg : Config) : ∀ more k, ReadsForward cfg (Cursor.gammaZeros cfg more k)
  | 0, _, c => .refl cfg c
  | more + 1, k, c => by
    have hr := Cursor.readBool_forward cfg c
    simp only [Cursor.gammaZeros]
    cases h : c.readBool cfg with
    | err e c' => rwa [h] at hr
    | ok b c' =>
      rw [h] at hr
      cases b with
      | true => exact hr
      | false => exact hr.trans (Cursor.gammaZeros_forward cfg more (k + 1) c')

/-- The zero count is below the number of bits that may be read. -/
theorem Cursor.gammaZeros_lt (cfg : Config) : ∀ (more k : Nat) (c c' : Cursor) (z : Nat),
    c.gammaZeros cfg more k = .ok z c' → z < k + more
  | 0, _, _, _, _, h => by cases h
  | more + 1, k, c, c', z, h => by
    simp only [Cursor.gammaZeros] at h
    cases hb : c.readBool cfg with
    | err e d => simp [hb] at h
    | ok b d =>
      rw [hb] at h
      cases b with
      | true =>
        cases h
        omega
      | false =>
        have := Cursor.gammaZeros_lt cfg more (k + 1) d c' z h
        omega

theorem Cursor.readGamma_forward (cfg : Config) : ReadsForward cfg (Cursor.readGamma cfg) := by
  intro c
  have hz := Cursor.gammaZeros_forward cfg 31 0 c
  simp only [Cursor.readGamma]
  cases h : c.gammaZeros cfg 31 0 with
  | err e c' => rwa [h] at hz
  | ok z c' =>
    rw [h] at hz
    cases z with
    | zero => exact hz
    | succ k =>
      have hk := Cursor.gammaZeros_lt cfg 31 0 c c' (k + 1) h
      have hr := Cursor.read_forward cfg (k + 1) (by omega) c'
      dsimp only
      cases h' : c'.read cfg (k + 1) <;> rw [h'] at hr <;> exact hz.trans hr

theorem Cursor.readUE_forward (cfg : Config) : ReadsForward cfg (Cursor.readUE cfg) := by
  intro c
  have hr := Cursor.readGamma_forward cfg c
  simp only [Cursor.readUE]
  cases h : c.readGamma cfg <;> rwa [h] at hr

theorem Cursor.readSE_forward (cfg : Config) : ReadsForward cfg (Cursor.readSE cfg) := by
  intro c
  have hr := Cursor.readUE_forward cfg c
  simp only [Cursor.readSE]
  cases h : c.readUE cfg <;> rwa [h] at hr

theorem Cursor.walk_forward (cfg : Config) (limit : Option Nat) : ∀ (t : HuffTree) (d : Nat) (c : Cursor),
    c.Forward cfg (c.walk cfg limit t d).cursor
  | .absent, _, c => .refl cfg c
  | .leaf _, _, c => .refl cfg c
  | .node l r, d, c => by
    have hr := Cursor.readBool_forward cfg c
    simp only [Cursor.walk]
    split
    · exact .refl cfg c
    · cases h : c.readBool cfg with
      | err e c' => rwa [h] at hr
      | ok b c' =>
        rw [h] at hr
        cases b with
        | false => exact hr.trans (Cursor.walk_forward cfg limit l (d + 1) c')
        | true => exact hr.trans (Cursor.walk_forward cfg limit r (d + 1) c')

theorem Cursor.huff_forward (cfg : Config) (r : HuffRom) : ReadsForward cfg fun c => c.huff cfg r :=
  fun c => Cursor.walk_forward cfg r.limit r.tree 0 c

theorem Cursor.skipBits_forward (cfg : Config) : ∀ n, ReadsForward cfg (Cursor.skipBits cfg n)
  | 0, c => .refl cfg c
  | n + 1, c => by
    have hr := Cursor.readBool_forward cfg c
    simp only [Cursor.skipBits]
    cases h : c.readBool cfg with
    | err e c' => rwa [h] at hr
    | ok b c' =>
      rw [h] at hr
      exact hr.trans (Cursor.skipBits_forward cfg n c')

/-- The cursor a call begins with is in order (R291). -/
theorem Cursor.start_ok (cfg : Config) (input : List Byte) : (Cursor.start input).ok cfg = true := by
  simp [Cursor.ok_iff, Cursor.start, bitsOf]

end Sys2Proof
end

section
/-! SUPPORT. What every instruction leaves unchanged, in one table: the items of the state (10_state.md rule R20), the
items each instruction writes, and the relation `KeptBut` between the states before and after. -/

namespace Sys2Proof.Machine

/-! ## The items of the state and who writes them -/

/-- The parts of the state whose writers the rules name. -/
inductive Item where
  /-- `IN` and the cursor's forward motion (R22, R37). -/
  | input
  /-- The reference slots 1 to 5, and which buffer slot 0 is (R36). -/
  | refs
  /-- `CS`, `VLCIDX` and `HDRVALID` (R25, R26). -/
  | header
  /-- `QP` (R24). -/
  | qp
  /-- `QIDX`, `QSH4` and `QSH8` (R27). -/
  | quantizer
  /-- `PRE` (R31). -/
  | pre
  /-- `MVC` (R32). -/
  | mvc
  /-- `PMV` (R33). -/
  | pmv
  /-- `MAT` (R34). -/
  | mat
  /-- `MBI`, `PHASE` and the agenda (R22, R23, R28). -/
  | position
  deriving DecidableEq

/-- Slots 1 to 5 are the same, and slot 0 is the same buffer, in canonical form if it was. -/
structure Ring.SameRefs (init : RingInit) (r r' : Ring) : Prop where
  f1 : r'.f1 = r.f1
  f2 : r'.f2 = r.f2
  f3 : r'.f3 = r.f3
  f4 : r'.f4 = r.f4
  f5 : r'.f5 = r.f5
  buf : r'.f0.buf = r.f0.buf
  wf : r.f0.mem.wf (r.f0.blank init) = true → r'.f0.mem.wf (r'.f0.blank init) = true

@[simp] theorem Ring.SameRefs.refl (init : RingInit) (r : Ring) : r.SameRefs init r := ⟨rfl, rfl, rfl, rfl, rfl, rfl, id⟩

theorem Ring.SameRefs.trans {init : RingInit} {a b c : Ring} (h : a.SameRefs init b) (k : b.SameRefs init c) :
    a.SameRefs init c :=
  ⟨k.f1.trans h.f1, k.f2.trans h.f2, k.f3.trans h.f3, k.f4.trans h.f4, k.f5.trans h.f5, k.buf.trans h.buf, k.wf ∘ h.wf⟩

/-- The item `x` is in `t` as it was in `s`. -/
def Item.kept (s t : State) : Item → Prop
  | .input => s.cursor.Forward s.cfg t.cursor
  | .refs => s.ring.SameRefs s.cfg.ringInit t.ring
  | .header => t.cs = s.cs ∧ t.vlcidx = s.vlcidx ∧ t.hdrvalid = s.hdrvalid
  | .qp => t.qp = s.qp
  | .quantizer => t.qidx = s.qidx ∧ t.qsh4 = s.qsh4 ∧ t.qsh8 = s.qsh8
  | .pre => t.pre = s.pre
  | .mvc => t.mvc = s.mvc
  | .pmv => t.pmv = s.pmv
  | .mat => t.mat = s.mat
  | .position => t.mbi = s.mbi ∧ t.phase = s.phase ∧ t.agenda = s.agenda

/-- Only the entry of `DecodeFrame` binds a new input (R291). -/
def frameStageWrites : FrameStage → List Item
  | .start _ => [.input]
  | _ => []

/-- The items an instruction writes, its own scheduling and the exception it may take aside. -/
def writtenBy : Instr → List Item
  | .qp6 _ => [.header, .qp]
  | .qpdelta _ => [.qp, .mvc]
  | .setQuantizer _ => [.quantizer]
  | .mpmTaken _ => [.pre]
  | .mpmRem _ _ => [.pre]
  | .decodeIntraMB _ => [.pre]
  | .mvPred _ => [.mvc]
  | .mvDelta1 _ => [.mvc]
  | .mvDelta2 _ => [.mvc]
  | .mvDelta3 _ => [.mvc]
  | .mvDelta4 _ => [.mvc]
  | .mvDelta5 _ => [.mvc]
  | .mbIntra _ => [.mvc]
  | .mbIntraSub _ => [.mvc]
  | .predictMV => [.pmv]
  | .residualDecode _ _ => [.mat]
  | .dequantize _ => [.mat]
  | .inverseTransform _ => [.mat]
  | .rotateAndClear => [.refs]
  | .decodeFrame st => frameStageWrites st
  | _ => []

@[simp] theorem mem_frameStageWrites {x : Item} {st : FrameStage} :
    x ∈ frameStageWrites st ↔ x = .input ∧ ∃ bytes, st = .start bytes := by
  cases st <;> simp [frameStageWrites]

/-- An instruction of the frame level (R290 to R298): it moves `MBI`, `PHASE` or the frame's own agenda. -/
def frameLevel : Instr → Bool
  | .ftypeI => true
  | .ftypeP => true
  | .qp6 _ => true
  | .qpdelta _ => true
  | .decodeFrame _ => true
  | _ => false

/-! ## States that agree but for some items -/

/-- `t` has the configuration of `s` and every item of `s` but those of `W`. -/
structure KeptBut (W : List Item) (s t : State) : Prop where
  cfg : t.cfg = s.cfg
  kept : ∀ x, x ∉ W → x.kept s t

variable {W : List Item} {s s' t : State}

theorem Item.kept_refl (x : Item) (s : State) : x.kept s s := by
  cases x with
  | input => exact .refl s.cfg s.cursor
  | refs => exact .refl s.cfg.ringInit s.ring
  | header => exact ⟨rfl, rfl, rfl⟩
  | quantizer => exact ⟨rfl, rfl, rfl⟩
  | position => exact ⟨rfl, rfl, rfl⟩
  | _ => exact rfl

theorem Item.kept_trans (x : Item) (hc : s'.cfg = s.cfg) (h : x.kept s s') (k : x.kept s' t) : x.kept s t := by
  cases x with
  | input => exact Cursor.Forward.trans h (by simpa [Item.kept, hc] using k)
  | refs => exact Ring.SameRefs.trans h (by simpa [Item.kept, hc] using k)
  | header => exact ⟨k.1.trans h.1, k.2.1.trans h.2.1, k.2.2.trans h.2.2⟩
  | quantizer => exact ⟨k.1.trans h.1, k.2.1.trans h.2.1, k.2.2.trans h.2.2⟩
  | position => exact ⟨k.1.trans h.1, k.2.1.trans h.2.1, k.2.2.trans h.2.2⟩
  | _ => exact Eq.trans k h

theorem KeptBut.refl (W : List Item) (s : State) : KeptBut W s s := ⟨rfl, fun x _ => x.kept_refl s⟩

theorem KeptBut.trans (h : KeptBut W s s') (k : KeptBut W s' t) : KeptBut W s t :=
  ⟨k.cfg.trans h.cfg, fun x hx => x.kept_trans h.cfg (h.kept x hx) (k.kept x hx)⟩

theorem KeptBut.mono {W' : List Item} (h : KeptBut W s t) (hW : W ⊆ W') : KeptBut W' s t :=
  ⟨h.cfg, fun x hx => h.kept x fun m => hx (hW m)⟩

/-- The state with the fields that are no item blanked: the model's own locals, latches and lists, and `ERR`. -/
def State.items (s : State) : State :=
  { s with
    err := none, calls := [], handed := false, val := 0, hdrCs := .yCoCg, hdrVlc := false, cbpMask := 0
    planeDelta := 0, mvdx := 0, mvdy := 0, symEnd := false, symRun := 0, symAmp := 0, zpos := 0 }

/-- A state that differs in locals and latches only. -/
theorem KeptBut.locals (h : s'.items = s.items) : KeptBut W s s' := by
  have same : ∀ {α : Type} (f : State → α), f s'.items = f s.items := fun f => congrArg f h
  have hcursor : s'.cursor = s.cursor := same State.cursor
  have hring : s'.ring = s.ring := same State.ring
  refine ⟨same State.cfg, fun x _ => ?_⟩
  cases x with
  | input => simp [Item.kept, hcursor]
  | refs => simp [Item.kept, hring]
  | header => exact ⟨same State.cs, same State.vlcidx, same State.hdrvalid⟩
  | qp => exact same State.qp
  | quantizer => exact ⟨same State.qidx, same State.qsh4, same State.qsh8⟩
  | pre => exact same State.pre
  | mvc => exact same State.mvc
  | pmv => exact same State.pmv
  | mat => exact same State.mat
  | position => exact ⟨same State.mbi, same State.phase, same State.agenda⟩

/-- A cursor moved forward. -/
theorem KeptBut.cursor {c : Cursor} (h : s.cursor.Forward s.cfg c) : KeptBut W s { s with cursor := c } := by
  refine ⟨rfl, fun x _ => ?_⟩
  cases x <;> simp [Item.kept, h]

/-- A byte written to slot 0. -/
theorem KeptBut.storeByte (a : Nat) (v : Byte) : KeptBut W s (s.storeByte a v) := by
  refine ⟨rfl, fun x _ => ?_⟩
  cases x with
  | refs => exact ⟨rfl, rfl, rfl, rfl, rfl, rfl, FrameBuf.write_wf s.cfg.ringInit s.ring.f0 a v⟩
  | _ => simp [Item.kept]

/-- The tag of slot 0 written. -/
theorem KeptBut.tag (c : ColourSpace) :
    KeptBut W s { s with ring := { s.ring with f0 := { s.ring.f0 with tag := c } } } := by
  refine ⟨rfl, fun x _ => ?_⟩
  cases x with
  | refs => exact ⟨rfl, rfl, rfl, rfl, rfl, rfl, id⟩
  | _ => simp [Item.kept]

/-- An exception writes the position only. -/
theorem KeptBut.raise (e : ErrorKind) : KeptBut (.position :: W) s (s.raise e) := by
  refine ⟨rfl, fun x hx => ?_⟩
  cases x <;> simp_all [Item.kept]

/-- Scheduling writes the position only. -/
theorem KeptBut.push (ts : List Task) : KeptBut (.position :: W) s (s.push ts) := by
  refine ⟨rfl, fun x hx => ?_⟩
  cases x <;> simp_all [Item.kept]

/-- A run of pixel writes writes no item, whether it is done or stopped. -/
theorem KeptBut.paint (p : Plane) (x0 y0 : Nat) (f : State → Nat → Nat → Option Byte) :
    ∀ (cs : List (Nat × Nat)) (s t : State),
      (State.paint p x0 y0 f cs s = .done t ∨ State.paint p x0 y0 f cs s = .bad t) → KeptBut W s t
  | [], s, t, h => by
    simp only [State.paint, PixOut.done.injEq, reduceCtorEq, or_false] at h
    exact h ▸ .refl W s
  | (x, y) :: rest, s, t, h => by
    simp only [State.paint] at h
    split at h
    · simp only [PixOut.bad.injEq, reduceCtorEq, false_or] at h
      exact h ▸ .refl W s
    · rename_i v _
      rw [State.setPix_eq] at h
      split at h
      · simp only [PixOut.bad.injEq, reduceCtorEq, false_or] at h
        exact h ▸ .refl W s
      · rename_i s' hs
        split at hs <;> cases hs
        exact (KeptBut.storeByte _ v).trans (KeptBut.paint p x0 y0 f rest _ t h)

end Sys2Proof.Machine
end

section
/-! SUPPORT. What every instruction can do, said once: below the frame level it writes its own items and then schedules
positions below the frame level, or takes an exception; at the frame level it writes its own items and the position. -/

namespace Sys2Proof.Machine

/-! ## What every next state of an outcome meets -/

/-- Every next state the outcome answers meets `P`. -/
def Ensures (P : State → Prop) (o : Step) : Prop := ∀ t, o = .next t → P t

section
variable {P : State → Prop} {s t : State}

theorem Ensures.next (h : P t) : Ensures P (.next t) := by
  intro u hu
  cases hu
  exact h

theorem Ensures.refused (r : Refusal) : Ensures P (.refused r) := fun _ h => nomatch h

theorem Ensures.trap {e : ErrorKind} (h : P (s.raise e)) : Ensures P (s.trap e) := .next h

theorem Ensures.mono {Q : State → Prop} {o : Step} (h : Ensures P o) (hPQ : ∀ t, P t → Q t) : Ensures Q o :=
  fun t ht => hPQ t (h t ht)

/-- A read ends as what follows it does, from a cursor moved forward, or in the exception of the read. -/
theorem Ensures.reading {α : Type} {r : Cursor → ReadOut α} {go : State → Step} (hr : ReadsForward s.cfg r)
    (hgo : ∀ c, s.cursor.Forward s.cfg c → Ensures P (go { s with cursor := c }))
    (herr : ∀ e c, s.cursor.Forward s.cfg c → P (State.raise { s with cursor := c } e)) :
    Ensures P (s.reading r go) := by
  rcases s.reading_cases r go with ⟨v, c, h, heq⟩ | ⟨e, c, h, heq⟩
  · exact heq ▸ hgo c (hr.of_ok h)
  · exact heq ▸ .next (herr e c (hr.of_err h))

end

/-! ## Below the frame level -/

/-- In a legal configuration each of the positions is one the sequencer can stand at, and none is a step of the frame
level. -/
def Below (cfg : Config) (ts : List Task) : Prop :=
  cfg.wellFormed = true → (ts.all fun x => legalTask cfg x && !frameTask x) = true

/-- `t` comes from `s` by writing items of `W` and then scheduling below the frame level, or taking an exception. -/
def Follows (W : List Item) (s t : State) : Prop :=
  ∃ u, KeptBut W s u ∧ ((∃ e, t = u.raise e) ∨ ∃ ts, Below s.cfg ts ∧ t = u.push ts)

theorem Follows.keptBut {W : List Item} {s t : State} (h : Follows W s t) : KeptBut (.position :: W) s t := by
  obtain ⟨u, hu, ⟨e, rfl⟩ | ⟨ts, -, rfl⟩⟩ := h
  · exact (hu.mono (List.subset_cons_self _ W)).trans (.raise e)
  · exact (hu.mono (List.subset_cons_self _ W)).trans (.push ts)

section
variable {W : List Item} {s u : State}

/-- Scheduling nothing. -/
theorem follows_next (h : KeptBut W s u) : Ensures (Follows W s) (.next u) :=
  .next ⟨u, h, .inr ⟨[], fun _ => rfl, rfl⟩⟩

theorem follows_push {ts : List Task} (h : KeptBut W s u) (hts : Below s.cfg ts) :
    Ensures (Follows W s) (.next (u.push ts)) := .next ⟨u, h, .inr ⟨ts, hts, rfl⟩⟩

theorem follows_trap {e : ErrorKind} (h : KeptBut W s u) : Ensures (Follows W s) (u.trap e) :=
  .next ⟨u, h, .inl ⟨e, rfl⟩⟩

theorem follows_reading {α : Type} {r : Cursor → ReadOut α} {go : State → Step} (hr : ReadsForward s.cfg r)
    (hgo : ∀ c, Ensures (Follows W { s with cursor := c }) (go { s with cursor := c })) :
    Ensures (Follows W s) (s.reading r go) := by
  refine .reading hr (fun c hc => (hgo c).mono fun t ht => ?_) fun e c hc => ⟨_, .cursor hc, .inl ⟨e, rfl⟩⟩
  obtain ⟨u, hu, hend⟩ := ht
  exact ⟨u, (KeptBut.cursor hc).trans hu, hend⟩

theorem follows_paint (p : Plane) (x0 y0 : Nat) (f : State → Nat → Nat → Option Byte) (cs : List (Nat × Nat)) :
    Ensures (Follows W s) (State.paint p x0 y0 f cs s).step := by
  cases h : State.paint p x0 y0 f cs s with
  | done t => exact follows_next (.paint p x0 y0 f cs s t (.inl h))
  | bad t => exact follows_trap (.paint p x0 y0 f cs s t (.inr h))

theorem follows_predict (b : Block) (f : Nat → Nat → Nat) : Ensures (Follows W s) (s.predict b f) :=
  follows_paint _ _ _ _ _

end

/-! ## The writers -/

section
variable (s : State)

theorem keptBut_pre (v : Vector (Option Nat) 16) : KeptBut [.pre] s { s with pre := v } := by
  refine ⟨rfl, fun x hx => ?_⟩
  cases x <;> simp_all [Item.kept]

theorem keptBut_recordMode (b : Block) (a : Nat) : KeptBut [.pre] s (s.recordMode b a) := by
  rw [s.recordMode_eq b a]
  exact keptBut_pre s _

theorem keptBut_setMvc (mv : MV) : KeptBut [.mvc] s (s.setMvc mv) := by
  refine ⟨rfl, fun x hx => ?_⟩
  cases x <;> simp_all [Item.kept]

theorem keptBut_pmv (mv : MV) : KeptBut [.pmv] s { s with pmv := mv } := by
  refine ⟨rfl, fun x hx => ?_⟩
  cases x <;> simp_all [Item.kept]

theorem keptBut_mat (m : Vector Word 64) : KeptBut [.mat] s { s with mat := m } := by
  refine ⟨rfl, fun x hx => ?_⟩
  cases x <;> simp_all [Item.kept]

theorem keptBut_quantizer (i : Fin 6) (a b : Word) : KeptBut [.quantizer] s { s with qidx := i, qsh4 := a, qsh8 := b } := by
  refine ⟨rfl, fun x hx => ?_⟩
  cases x <;> simp_all [Item.kept]

theorem keptBut_header (cs : ColourSpace) (vlc valid : Bool) (q : Word) :
    KeptBut [.header, .qp] s { s with cs := cs, vlcidx := vlc, qp := q, hdrvalid := valid } := by
  refine ⟨rfl, fun x hx => ?_⟩
  cases x <;> simp_all [Item.kept]

theorem keptBut_qp_mvc (q : Word) (c : List MV) : KeptBut [.qp, .mvc] s { s with qp := q, mvc := c } := by
  refine ⟨rfl, fun x hx => ?_⟩
  cases x <;> simp_all [Item.kept]

theorem keptBut_mbi_phase (k : Nat) (p : Phase) : KeptBut [.position] s { s with mbi := k, phase := p } := by
  refine ⟨rfl, fun x hx => ?_⟩
  cases x <;> simp_all [Item.kept]

/-- The rotation writes the ring only (R292). -/
theorem keptBut_ring (r : Ring) : KeptBut [.refs] s { s with ring := r } := by
  refine ⟨rfl, fun x hx => ?_⟩
  cases x <;> simp_all [Item.kept]

end

/-! ## Positions the operations schedule -/

section
variable (cfg : Config)

theorem below_predTasks (b : Block) (a : Nat) : Below cfg (predTasks cfg b a) := by
  intro _
  unfold predTasks
  split <;> rfl

theorem below_mvTasks (r : Rect) (v : Nat) : Below cfg (mvTasks r v) := by
  intro _
  unfold mvTasks
  split <;> split <;> rfl

theorem below_subBlockTasks (p : Plane) (m : BlockMode) (mask : BitVec 4) (views : List (Nat × Nat × Nat)) :
    Below cfg (views.flatMap (subBlockTasks p m mask)) := by
  intro _
  rw [List.all_flatMap, List.all_eq_true]
  intro v _
  unfold subBlockTasks
  dsimp only
  split <;> rfl

/-- In a legal configuration the macroblock's own size has a motion-mode tree (R257). -/
theorem mvTree_macroblock {cfg : Config} (h : cfg.wellFormed = true) : (cfg.mvTree? 16 16).isSome = true := by
  simp only [Config.wellFormed, Bool.and_eq_true] at h
  tauto

end

/-! ## Operations shared by several instructions -/

section
variable (s : State)

theorem leaf_follows (r : Rect) (mv : MV) (k : Fin 6) : Ensures (Follows [.mvc] s) (leaf r mv k s) :=
  follows_push (keptBut_setMvc s mv) fun _ => rfl

/-- A split into halves of one size. -/
theorem split_follows (a b : Rect) (hw : b.w = a.w) (hh : b.h = a.h) : Ensures (Follows [] s) (split a b s) := by
  rw [split_eq]
  split
  · rename_i htree
    refine follows_push (.refl [] s) fun _ => ?_
    simp [legalTask, frameTask, hw, hh, htree]
  · exact follows_trap (.refl [] s)

theorem intraEscape_follows (r : Rect) (f : Bool) : Ensures (Follows [.mvc] s) (intraEscape r f s) := by
  unfold intraEscape
  split
  · cases s.cfg.mvcIntra with
    | keep => exact follows_push (.refl _ s) fun _ => rfl
    | zero => exact follows_push (keptBut_setMvc s _) fun _ => rfl
  · exact follows_trap (.refl _ s)

theorem putCoefficient_follows (n : TSize) : Ensures (Follows [.mat] s) (putCoefficient n s) := by
  have written : ∀ m z, KeptBut [.mat] s { s with mat := m, zpos := z } := fun m z =>
    KeptBut.trans (s' := { s with zpos := z }) (.locals rfl) (keptBut_mat _ m)
  unfold putCoefficient
  dsimp only
  split
  · exact follows_trap (.locals rfl)
  · split
    · exact follows_next (written _ _)
    · exact follows_push (written _ _) fun _ => rfl

theorem partflag4x4_follows (p : Plane) (x y : Nat) (m : BlockMode) (f : Nat) :
    Ensures (Follows [] s) (execPartflag4x4 p x y m f s) := by
  unfold execPartflag4x4
  split
  · exact .refused _
  · refine follows_reading (Cursor.readUE_forward s.cfg) fun c => ?_
    dsimp only
    split
    · rw [State.partitioned_eight]
      exact follows_push (.refl _ _) (below_subBlockTasks s.cfg p m _ _)
    · exact follows_trap (.refl _ _)

/-- Luma modes (R233). -/
theorem mode3_follows (m : BitVec 3) : Ensures (Follows [] s) (execMode3 m s) := by
  refine follows_reading (Cursor.read_forward s.cfg 3 (by decide)) fun c => ?_
  dsimp only
  split
  · exact follows_trap (.refl _ _)
  · split
    · exact follows_push (.refl _ _) fun _ => rfl
    · exact follows_push (.refl _ _) fun _ => rfl

/-- Chroma modes (R236). -/
theorem cmode3_follows (m : BitVec 3) : Ensures (Follows [] s) (execCmode3 m s) := by
  refine follows_reading (Cursor.read_forward s.cfg 3 (by decide)) fun c => ?_
  dsimp only
  split
  · exact follows_trap (.refl _ _)
  · exact follows_push (.refl _ _) fun _ => rfl

end

/-! ## Every instruction -/

/-- The reconstruction modes write no item: they predict the block, or take `InvalidGeometry` where a neighbour is
missing. -/
theorem predInstr_follows (b : Block) (m : IntraMode) (s : State) : Ensures (Follows [] s) (exec (predInstr b m) s) := by
  cases m <;> simp only [predInstr, exec]
  case vertical =>
    unfold execPredV
    split
    · exact follows_trap (.refl _ s)
    · exact follows_predict b _
  case horizontal =>
    unfold execPredH
    split
    · exact follows_trap (.refl _ s)
    · exact follows_predict b _
  case deltaPlane =>
    unfold execPredPlane
    split
    · exact follows_predict b _
    · exact follows_trap (.refl _ s)
    · exact follows_trap (.refl _ s)
  case dc =>
    unfold execPredDC
    split
    · exact follows_predict b _
    · exact follows_trap (.refl _ s)
    · exact follows_trap (.refl _ s)
  case horizontalUp =>
    unfold execPredHU
    split
    · exact follows_trap (.refl _ s)
    · exact follows_predict b _
  case horizontalDown =>
    unfold execPredHD
    split
    · exact follows_predict b _
    · exact follows_trap (.refl _ s)
  case verticalRight =>
    unfold execPredVR
    split
    · exact follows_predict b _
    · exact follows_trap (.refl _ s)
  case diagonalDownRight =>
    unfold execPredDDR
    split
    · exact follows_predict b _
    · exact follows_trap (.refl _ s)
  case verticalLeft =>
    unfold execPredVL
    split
    · exact follows_trap (.refl _ s)
    · exact follows_predict b _

/-- Below the frame level an instruction writes its own items and then schedules below the frame level, or takes an
exception. -/
theorem exec_follows (i : Instr) (s : State) (h : frameLevel i = false) :
    Ensures (Follows (writtenBy i) s) (exec i s) := by
  have bit := Cursor.readBool_forward s.cfg
  have ue := Cursor.readUE_forward s.cfg
  have se := Cursor.readSE_forward s.cfg
  cases i <;> dsimp only [exec, writtenBy]
  case ftypeI | ftypeP | qp6 | qpdelta | decodeFrame => cases h
  case readF n v =>
    unfold execReadF
    split
    · exact .refused _
    · exact follows_reading (Cursor.read_forward s.cfg n (by omega)) fun c => follows_next (.locals rfl)
  case readS n v =>
    unfold execReadS
    split
    · exact .refused _
    · exact follows_reading (Cursor.readSigned_forward s.cfg n (by omega)) fun c => follows_next (.locals rfl)
  case readB v => exact follows_reading bit fun c => follows_next (.locals rfl)
  case readG g => exact follows_reading (Cursor.readGamma_forward s.cfg) fun c => follows_next (.locals rfl)
  case readUE u => exact follows_reading ue fun c => follows_next (.locals rfl)
  case readSE d => exact follows_reading se fun c => follows_next (.locals rfl)
  case readH t v =>
    unfold execReadH
    split
    · exact .refused _
    · exact follows_reading (Cursor.huff_forward s.cfg _) fun c => follows_next (.locals rfl)
  case csbit c => exact follows_reading bit fun c => follows_next (.locals rfl)
  case vlcbit t => exact follows_reading bit fun c => follows_next (.locals rfl)
  case setQuantizer q => exact follows_next (keptBut_quantizer s _ _ _)
  case subflag f => exact follows_reading bit fun c => follows_push (.refl _ _) fun _ => rfl
  case cbpidx i =>
    refine follows_reading ue fun c => ?_
    split
    · exact follows_next (.locals rfl)
    · exact follows_trap (.refl _ _)
  case mode3 m => exact mode3_follows s m
  case cmode3 m => exact cmode3_follows s m
  case partflag8x8 p x y m => exact follows_reading ue fun c => follows_push (.refl _ _) fun _ => rfl
  case partflag4x4 p x y m f => exact partflag4x4_follows s p x y m f
  case mpmTaken b => exact follows_reading bit fun c => follows_push (keptBut_recordMode _ b _) (below_predTasks s.cfg b _)
  case mpmRem b r =>
    exact follows_reading bit fun c => follows_reading (Cursor.read_forward s.cfg 3 (by decide)) fun c =>
      follows_push (keptBut_recordMode _ b _) (below_predTasks s.cfg b _)
  case dpdelta d => exact follows_reading se fun c => follows_next (.locals rfl)
  case predV b => exact predInstr_follows b .vertical s
  case predH b => exact predInstr_follows b .horizontal s
  case predPlane b => exact predInstr_follows b .deltaPlane s
  case predDC b => exact predInstr_follows b .dc s
  case predHU b => exact predInstr_follows b .horizontalUp s
  case predHD b => exact predInstr_follows b .horizontalDown s
  case predVR b => exact predInstr_follows b .verticalRight s
  case predDDR b => exact predInstr_follows b .diagonalDownRight s
  case predVL b => exact predInstr_follows b .verticalLeft s
  case predNone b => exact follows_next (.refl _ s)
  case predPredicted b => exact follows_push (.refl _ s) fun _ => rfl
  case hsym n => exact follows_reading (Cursor.huff_forward s.cfg _) fun c => follows_next (.locals rfl)
  case hsymT0x000 => exact follows_reading (Cursor.skipBits_forward s.cfg 8) fun c => follows_next (.locals rfl)
  case hsymT0x802 => exact follows_reading (Cursor.skipBits_forward s.cfg 10) fun c => follows_next (.locals rfl)
  case rsymDirect n => exact follows_push (.refl _ s) fun _ => rfl
  case rsymAmpEsc st n =>
    cases st <;> dsimp only [execRsymAmpEsc]
    case select => exact follows_reading (Cursor.skipBits_forward s.cfg 1) fun c => follows_push (.refl _ _) fun _ => rfl
    case lookup => exact follows_push (.locals rfl) fun _ => rfl
  case rsymRunEsc st n =>
    cases st <;> dsimp only [execRsymRunEsc]
    case select => exact follows_reading (Cursor.skipBits_forward s.cfg 2) fun c => follows_push (.refl _ _) fun _ => rfl
    case lookup => exact follows_push (.locals rfl) fun _ => rfl
  case rsymRaw n => exact follows_reading (Cursor.skipBits_forward s.cfg 2) fun c => follows_push (.refl _ _) fun _ => rfl
  case sign f => exact follows_reading bit fun c => follows_next (.locals rfl)
  case rawend e => exact follows_reading bit fun c => follows_next (.locals rfl)
  case rawrun r => exact follows_reading (Cursor.read_forward s.cfg 6 (by decide)) fun c => follows_next (.locals rfl)
  case rawamp a => exact follows_reading (Cursor.readSigned_forward s.cfg 12 (by decide)) fun c => follows_next (.locals rfl)
  case mvmode r v =>
    unfold execMvmode
    split
    · exact .refused _
    · exact follows_reading (Cursor.huff_forward s.cfg _) fun c => follows_push (.refl _ _) (below_mvTasks s.cfg r v)
  case mvPred r => exact leaf_follows s r _ 1
  case mvDelta1 r => exact leaf_follows s r _ 1
  case mvDelta2 r => exact leaf_follows s r _ 2
  case mvDelta3 r => exact leaf_follows s r _ 3
  case mvDelta4 r => exact leaf_follows s r _ 4
  case mvDelta5 r => exact leaf_follows s r _ 5
  case mbIntra r => exact intraEscape_follows s r false
  case mbIntraSub r => exact intraEscape_follows s r true
  case mvSplitH r => exact split_follows s _ _ rfl rfl
  case mvSplitW r => exact split_follows s _ _ rfl rfl
  case mvdx d => exact follows_reading se fun c => follows_next (.locals rfl)
  case mvdy d => exact follows_reading se fun c => follows_next (.locals rfl)
  case rotateAndClear => exact follows_next (keptBut_ring s _)
  case decodeIntraMB f =>
    cases f with
    | true => exact follows_push (keptBut_pre s _) fun _ => rfl
    | false => exact follows_push (keptBut_pre s _) fun _ => rfl
  case decodeBlock8 p x y m c =>
    cases c with
    | true => exact follows_push (.refl _ s) fun _ => rfl
    | false => exact follows_push (.refl _ s) fun _ => rfl
  case decodeResidualMB => exact follows_push (.refl _ s) fun _ => rfl
  case decodeInterMB =>
    refine follows_push (.refl _ s) fun hcfg => ?_
    have legal : legalTask s.cfg (.mvmode s.mbRect) = true := mvTree_macroblock hcfg
    rw [List.all_cons, List.all_cons, legal]
    rfl
  case predictMV => exact follows_next (keptBut_pmv s _)
  case copyBlock k p r mv => exact follows_paint _ _ _ _ _
  case residualDecode st n =>
    cases st with
    | start =>
      exact follows_push (KeptBut.trans (keptBut_mat s (matMap s.mat n fun _ => 0)) (.locals rfl)) fun _ => rfl
    | put => exact putCoefficient_follows s n
  case dequantize n => exact follows_next (keptBut_mat s _)
  case inverseTransform n => exact follows_next (keptBut_mat s _)
  case applyResidual st p x y n =>
    cases st with
    | start => exact follows_push (.refl _ s) fun _ => rfl
    | add => exact follows_paint _ _ _ _ _
  case predictBlock b m =>
    cases m with
    | explicit m => exact follows_push (.refl _ s) (below_predTasks s.cfg b _)
    | nothing => exact follows_push (.refl _ s) fun _ => rfl
    | predicted => exact follows_push (.refl _ s) fun _ => rfl

/-! ## What every instruction keeps -/

theorem keptBut_reading {α : Type} {W : List Item} {s : State} {r : Cursor → ReadOut α} {go : State → Step}
    (hr : ReadsForward s.cfg r)
    (hgo : ∀ c, Ensures (KeptBut (.position :: W) { s with cursor := c }) (go { s with cursor := c })) :
    Ensures (KeptBut (.position :: W) s) (s.reading r go) :=
  .reading hr (fun c hc => (hgo c).mono fun _ ht => (KeptBut.cursor hc).trans ht)
    fun e _ hc => (KeptBut.cursor hc).trans (.raise e)

theorem frameLevel_keptBut (i : Instr) (s : State) (h : frameLevel i = true) :
    Ensures (KeptBut (.position :: writtenBy i) s) (exec i s) := by
  have phase : ∀ (t : State) p, KeptBut [.position] t { t with phase := p } := fun t p => keptBut_mbi_phase t t.mbi p
  cases i <;> cases h <;> dsimp only [exec, writtenBy]
  case ftypeI => exact keptBut_reading (Cursor.readBool_forward s.cfg) fun c => .next ((phase _ _).trans (.push _))
  case ftypeP => exact keptBut_reading (Cursor.readBool_forward s.cfg) fun c => .next ((phase _ _).trans (.push _))
  case qp6 q =>
    refine keptBut_reading (Cursor.read_forward s.cfg 6 (by decide)) fun c => ?_
    dsimp only
    split
    · exact .next (((keptBut_header _ _ _ _ _).mono (List.subset_cons_self _ _)).trans (.push _))
    · exact .trap (.raise _)
  case qpdelta d =>
    refine keptBut_reading (Cursor.readSE_forward s.cfg) fun c => ?_
    dsimp only
    split
    · exact .trap (.raise _)
    · split
      · exact .next (((keptBut_qp_mvc _ _ _).mono (List.subset_cons_self _ _)).trans (.push _))
      · exact .trap (.raise _)
  case decodeFrame st =>
    cases st with
    | start bytes =>
      dsimp only [execDecodeFrame, beginCall]
      split
      · refine .next ⟨rfl, fun x hx => ?_⟩
        cases x <;> simp_all [Item.kept]
      · exact .refused _
    | macroblocks k =>
      dsimp only [execDecodeFrame, nextMacroblock]
      split
      · cases k <;> exact .next (.push _)
      · exact .next (.push _)
    | macroblockDone k => exact .next ((keptBut_mbi_phase s _ s.phase).trans (.push _))
    | finish => exact .next ((KeptBut.tag s.cs).trans ((phase _ _).trans (.push _)))
    | handOver => exact .next ((phase s _).trans (.locals rfl))

/-- Every instruction writes, besides the position, only its own items. -/
theorem exec_keptBut {i : Instr} {s t : State} (h : exec i s = .next t) : KeptBut (.position :: writtenBy i) s t := by
  cases hf : frameLevel i with
  | true => exact frameLevel_keptBut i s hf t h
  | false => exact (exec_follows i s hf t h).keptBut

/-- An item other than the position that an instruction does not write is kept. -/
theorem exec_kept {i : Instr} {s t : State} {x : Item} (h : exec i s = .next t) (hp : x ≠ .position)
    (hx : x ∉ writtenBy i) : x.kept s t :=
  (exec_keptBut h).kept x (by simp [hp, hx])

end Sys2Proof.Machine
end

section
/-! ## Who writes an item: the table read backwards -/

namespace Sys2Proof.Machine

section
variable {i : Instr}

theorem of_input_written (h : .input ∈ writtenBy i) : ∃ bytes, i = .decodeFrame (.start bytes) := by
  cases i <;> dsimp only [writtenBy] at h <;> simp at h ⊢
  exact h

theorem of_refs_written (h : .refs ∈ writtenBy i) : i = .rotateAndClear := by
  cases i <;> dsimp only [writtenBy] at h <;> simp at h ⊢

theorem of_header_written (h : .header ∈ writtenBy i) : ∃ q, i = .qp6 q := by
  cases i <;> dsimp only [writtenBy] at h <;> simp at h ⊢

theorem of_qp_written (h : .qp ∈ writtenBy i) : (∃ q, i = .qp6 q) ∨ ∃ d, i = .qpdelta d := by
  cases i <;> dsimp only [writtenBy] at h <;> simp at h ⊢

theorem of_quantizer_written (h : .quantizer ∈ writtenBy i) : ∃ q, i = .setQuantizer q := by
  cases i <;> dsimp only [writtenBy] at h <;> simp at h ⊢

theorem of_pre_written (h : .pre ∈ writtenBy i) :
    (∃ b, i = .mpmTaken b) ∨ (∃ b r, i = .mpmRem b r) ∨ ∃ f, i = .decodeIntraMB f := by
  cases i <;> dsimp only [writtenBy] at h <;> simp at h ⊢

theorem of_mvc_written (h : .mvc ∈ writtenBy i) : (∃ d, i = .qpdelta d) ∨ (∃ r, i = .mvPred r)
    ∨ (∃ r, i = .mvDelta1 r) ∨ (∃ r, i = .mvDelta2 r) ∨ (∃ r, i = .mvDelta3 r) ∨ (∃ r, i = .mvDelta4 r)
    ∨ (∃ r, i = .mvDelta5 r) ∨ (∃ r, i = .mbIntra r) ∨ ∃ r, i = .mbIntraSub r := by
  cases i <;> dsimp only [writtenBy] at h <;> simp at h ⊢

theorem of_pmv_written (h : .pmv ∈ writtenBy i) : i = .predictMV := by
  cases i <;> dsimp only [writtenBy] at h <;> simp at h ⊢

theorem of_mat_written (h : .mat ∈ writtenBy i) :
    (∃ st n, i = .residualDecode st n) ∨ (∃ n, i = .dequantize n) ∨ ∃ n, i = .inverseTransform n := by
  cases i <;> dsimp only [writtenBy] at h <;> simp at h ⊢

theorem position_not_written (i : Instr) : .position ∉ writtenBy i := by
  intro h
  cases i <;> dsimp only [writtenBy] at h <;> simp at h

end

/-! ## Who writes the registers (R24 to R27, R31 to R34) -/

/-- Settles O57: each register is an item of the table, and the table read backwards names its writers. -/
theorem registersHaveNamedWriters : Obligations.RegistersHaveNamedWriters := by
  intro i s t h
  have kept : ∀ x : Item, x ≠ .position → x ∉ writtenBy i → x.kept s t := fun x => exec_kept h
  refine ⟨fun hi => ?header, fun hq hd => ?qp, fun hi => ?quantizer, fun ht hr hf => ?pre,
    fun hd h0 h1 h2 h3 h4 h5 h6 h7 => ?mvc, fun hi => ?pmv, fun hr hd hv => ?mat⟩
  case header => exact kept .header (by decide) fun m => (of_header_written m).elim hi
  case qp =>
    refine kept .qp (by decide) fun m => ?_
    exact (of_qp_written m).elim (fun ⟨q, e⟩ => hq q e) fun ⟨d, e⟩ => hd d e
  case quantizer => exact kept .quantizer (by decide) fun m => (of_quantizer_written m).elim hi
  case pre =>
    refine kept .pre (by decide) fun m => ?_
    rcases of_pre_written m with ⟨b, e⟩ | ⟨b, r, e⟩ | ⟨f, e⟩
    exacts [ht b e, hr b r e, hf f e]
  case mvc =>
    refine kept .mvc (by decide) fun m => ?_
    rcases of_mvc_written m with ⟨d, e⟩ | ⟨r, e⟩ | ⟨r, e⟩ | ⟨r, e⟩ | ⟨r, e⟩ | ⟨r, e⟩ | ⟨r, e⟩ | ⟨r, e⟩ | ⟨r, e⟩
    exacts [hd d e, h0 r e, h1 r e, h2 r e, h3 r e, h4 r e, h5 r e, h6 r e, h7 r e]
  case pmv => exact kept .pmv (by decide) fun m => hi (of_pmv_written m)
  case mat =>
    refine kept .mat (by decide) fun m => ?_
    rcases of_mat_written m with ⟨st, n, e⟩ | ⟨n, e⟩ | ⟨n, e⟩
    exacts [hr st n e, hd n e, hv n e]

end Sys2Proof.Machine
end

section
/-! ## The reference slots (R35, R36)

An instruction other than the rotation and the copy does the same whatever the reference slots hold: every reading goes to
slot 0, and slots 1 to 5 are carried along. -/

namespace Sys2Proof.Machine

/-- The outcome is the same, the reference slots aside. -/
def SameButRefs (r : Ring) (o o' : Step) : Prop := o' = mapNext (fun t => t.withRefs r) o

section
variable (s : State) (r : Ring)

/-! ### What is read of slot 0 -/

@[simp] theorem State.withRefs_cfg : (s.withRefs r).cfg = s.cfg := rfl

theorem State.withRefs_topRow (b : Block) (n : Nat) : (s.withRefs r).topRow b n = s.topRow b n := rfl

theorem State.withRefs_leftCol (b : Block) (n : Nat) : (s.withRefs r).leftCol b n = s.leftCol b n := rfl

theorem State.withRefs_corner (b : Block) : (s.withRefs r).corner b = s.corner b := rfl

theorem State.withRefs_recordMode (b : Block) (a : Nat) :
    (s.withRefs r).recordMode b a = (s.recordMode b a).withRefs r := by
  unfold State.recordMode
  dsimp only
  split <;> rfl

/-! ### Shared operations -/

variable {s r}

theorem same_reading {α : Type} {f : Cursor → ReadOut α} {go : State → Step}
    (h : ∀ c, SameButRefs r (go { s with cursor := c }) (go (State.withRefs { s with cursor := c } r))) :
    SameButRefs r (s.reading f go) ((s.withRefs r).reading f go) := by
  rcases s.reading_cases f go with ⟨v, c, hr, heq⟩ | ⟨e, c, hr, heq⟩
  · have heq' : (s.withRefs r).reading f go = go (State.withRefs { s with cursor := c } r) :=
      State.reading_ok (s := s.withRefs r) hr go
    rw [heq, heq']
    exact h c
  · have heq' := State.reading_err (s := s.withRefs r) hr go
    rw [heq, heq']
    rfl

theorem same_ite {P : Prop} [Decidable P] {a b a' b' : Step} (ha : SameButRefs r a a') (hb : SameButRefs r b b') :
    SameButRefs r (if P then a else b) (if P then a' else b') := by
  split
  · exact ha
  · exact hb

/-- A run of pixel writes whose values do not depend on the reference slots. -/
theorem paint_withRefs (p : Plane) (x0 y0 : Nat) (f : State → Nat → Nat → Option Byte) (r : Ring)
    (hf : ∀ (t : State) x y, f (t.withRefs r) x y = f t x y) : ∀ (cs : List (Nat × Nat)) (s : State),
    SameButRefs r (State.paint p x0 y0 f cs s).step (State.paint p x0 y0 f cs (s.withRefs r)).step
  | [], s => rfl
  | (x, y) :: rest, s => by
    simp only [State.paint, hf]
    cases f s x y with
    | none => rfl
    | some v =>
      dsimp only
      rw [State.setPix_eq, State.setPix_eq, State.withRefs_cfg]
      by_cases hin : x0 + x < planeWidth s.cfg p ∧ y0 + y < planeHeight s.cfg p
      · rw [if_pos hin, if_pos hin]
        exact paint_withRefs p x0 y0 f r hf rest _
      · rw [if_neg hin, if_neg hin]
        rfl

theorem same_predict (b : Block) (f : Nat → Nat → Nat) :
    SameButRefs r (s.predict b f) ((s.withRefs r).predict b f) :=
  paint_withRefs _ _ _ _ r (fun _ _ _ => rfl) _ s

theorem same_addResidual (p : Plane) (x y : Nat) (n : TSize) :
    SameButRefs r (addResidual p x y n s) (addResidual p x y n (s.withRefs r)) :=
  paint_withRefs _ _ _ _ r (fun _ _ _ => rfl) _ s

theorem same_predInstr (b : Block) (m : IntraMode) :
    SameButRefs r (exec (predInstr b m) s) (exec (predInstr b m) (s.withRefs r)) := by
  cases m <;> dsimp only [predInstr, exec]
  case vertical =>
    unfold execPredV
    rw [State.withRefs_topRow]
    split
    · rfl
    · exact same_predict b _
  case horizontal =>
    unfold execPredH
    rw [State.withRefs_leftCol]
    split
    · rfl
    · exact same_predict b _
  case deltaPlane =>
    unfold execPredPlane
    rw [State.withRefs_topRow, State.withRefs_leftCol]
    split
    · exact same_predict b _
    · rfl
    · rfl
  case dc =>
    unfold execPredDC
    rw [State.withRefs_topRow, State.withRefs_leftCol]
    split
    · exact same_predict b _
    · rfl
    · rfl
  case horizontalUp =>
    unfold execPredHU
    rw [State.withRefs_leftCol]
    split
    · rfl
    · exact same_predict b _
  case horizontalDown =>
    unfold execPredHD
    rw [State.withRefs_topRow, State.withRefs_leftCol, State.withRefs_corner]
    split
    · exact same_predict b _
    · rfl
  case verticalRight =>
    unfold execPredVR
    rw [State.withRefs_topRow, State.withRefs_leftCol, State.withRefs_corner]
    split
    · exact same_predict b _
    · rfl
  case diagonalDownRight =>
    unfold execPredDDR
    rw [State.withRefs_topRow, State.withRefs_leftCol, State.withRefs_corner]
    split
    · exact same_predict b _
    · rfl
  case verticalLeft =>
    unfold execPredVL
    rw [State.withRefs_topRow]
    split
    · rfl
    · exact same_predict b _

theorem same_intraEscape (b : Rect) (f : Bool) :
    SameButRefs r (intraEscape b f s) (intraEscape b f (s.withRefs r)) := by
  unfold intraEscape
  refine same_ite ?_ rfl
  dsimp only [State.withRefs_cfg]
  cases s.cfg.mvcIntra <;> rfl

theorem same_split (a b : Rect) : SameButRefs r (split a b s) (split a b (s.withRefs r)) := same_ite rfl rfl

theorem same_putCoefficient (n : TSize) : SameButRefs r (putCoefficient n s) (putCoefficient n (s.withRefs r)) :=
  same_ite rfl (same_ite rfl rfl)

theorem same_decodeFrame (st : FrameStage) :
    SameButRefs r (execDecodeFrame st s) (execDecodeFrame st (s.withRefs r)) := by
  cases st with
  | start bytes => exact same_ite rfl rfl
  | macroblocks k => exact same_ite (by cases k <;> rfl) rfl
  | _ => rfl

end

/-- An instruction other than the rotation and the copy does the same whatever slots 1 to 5 hold. -/
theorem exec_sameButRefs (i : Instr) (s : State) (r : Ring) (hr : i ≠ .rotateAndClear)
    (hc : ∀ k p c v, i ≠ .copyBlock k p c v) : SameButRefs r (exec i s) (exec i (s.withRefs r)) := by
  cases i <;> dsimp only [exec]
  case rotateAndClear => exact absurd rfl hr
  case copyBlock k p c v => exact absurd rfl (hc k p c v)
  case readF n v =>
    unfold execReadF
    split
    · rfl
    · exact same_reading fun _ => rfl
  case readS n v =>
    unfold execReadS
    split
    · rfl
    · exact same_reading fun _ => rfl
  case readB | readG | readUE | readSE => exact same_reading fun _ => rfl
  case readH t v =>
    have hrom : (s.withRefs r).ctx.rom t = s.ctx.rom t := rfl
    unfold execReadH
    rw [hrom]
    split
    · rfl
    · exact same_reading fun _ => rfl
  case ftypeI | ftypeP | csbit | vlcbit | subflag => exact same_reading fun _ => rfl
  case qp6 q => exact same_reading fun _ => same_ite rfl rfl
  case qpdelta d => exact same_reading fun _ => same_ite rfl (same_ite rfl rfl)
  case cbpidx i =>
    refine same_reading fun c => ?_
    dsimp only [State.withRefs_cfg]
    split <;> rfl
  case mode3 m =>
    refine same_reading fun c => ?_
    dsimp only [State.withRefs_cfg]
    split
    · rfl
    · split <;> rfl
  case cmode3 m =>
    refine same_reading fun c => ?_
    dsimp only [State.withRefs_cfg]
    split <;> rfl
  case partflag8x8 => exact same_reading fun _ => rfl
  case partflag4x4 p x y m f =>
    unfold execPartflag4x4
    split
    · rfl
    · refine same_reading fun c => ?_
      dsimp only [State.withRefs_cfg, State.partitioned_eight]
      split <;> rfl
  case mpmTaken b =>
    refine same_reading fun c => ?_
    dsimp only
    rw [State.withRefs_recordMode]
    rfl
  case mpmRem b m =>
    refine same_reading fun c => same_reading fun c => ?_
    dsimp only
    rw [State.withRefs_recordMode]
    rfl
  case dpdelta => exact same_reading fun _ => rfl
  case predV b => exact same_predInstr b .vertical
  case predH b => exact same_predInstr b .horizontal
  case predPlane b => exact same_predInstr b .deltaPlane
  case predDC b => exact same_predInstr b .dc
  case predHU b => exact same_predInstr b .horizontalUp
  case predHD b => exact same_predInstr b .horizontalDown
  case predVR b => exact same_predInstr b .verticalRight
  case predDDR b => exact same_predInstr b .diagonalDownRight
  case predVL b => exact same_predInstr b .verticalLeft
  case hsym | hsymT0x000 | hsymT0x802 => exact same_reading fun _ => rfl
  case rsymAmpEsc st n =>
    cases st <;> dsimp only [execRsymAmpEsc]
    case select => exact same_reading fun _ => rfl
    case lookup => rfl
  case rsymRunEsc st n =>
    cases st <;> dsimp only [execRsymRunEsc]
    case select => exact same_reading fun _ => rfl
    case lookup => rfl
  case rsymRaw | sign | rawend | rawrun | rawamp => exact same_reading fun _ => rfl
  case mvmode b v =>
    have hrom : (s.withRefs r).ctx.rom (.mv (s.withRefs r).cfg.stereo b.w b.h) = s.ctx.rom (.mv s.cfg.stereo b.w b.h) := rfl
    unfold execMvmode
    rw [hrom]
    split
    · rfl
    · exact same_reading fun _ => rfl
  case mbIntra b => exact same_intraEscape b false
  case mbIntraSub b => exact same_intraEscape b true
  case mvSplitH b => exact same_split _ _
  case mvSplitW b => exact same_split _ _
  case mvdx | mvdy => exact same_reading fun _ => rfl
  case decodeFrame st => exact same_decodeFrame st
  case decodeIntraMB f => cases f <;> rfl
  case decodeBlock8 p x y m c => cases c <;> rfl
  case residualDecode st n =>
    cases st with
    | start => rfl
    | put => exact same_putCoefficient n
  case applyResidual st p x y n =>
    cases st with
    | start => rfl
    | add => exact same_addResidual p x y n
  case predictBlock b m => cases m <;> rfl
  all_goals rfl

/-- Settles O58: slots 1 to 5 are an item that the rotation alone writes, and `exec_sameButRefs` says that only the copy
reads them. -/
theorem referenceSlotsAreReadByCopyOnly : Obligations.ReferenceSlotsAreReadByCopyOnly := by
  refine ⟨fun i s t hi h => ?_, fun i s r hr hc => exec_sameButRefs i s r hr hc⟩
  have kept : s.ring.SameRefs s.cfg.ringInit t.ring :=
    exec_kept (x := .refs) h (by decide) fun m => hi (of_refs_written m)
  exact ⟨kept.f1, kept.f2, kept.f3, kept.f4, kept.f5, kept.buf⟩

end Sys2Proof.Machine
end

section
/-! ## What a step can do (R22) -/

namespace Sys2Proof

/-- An error met while decoding the value of a read leaves the cursor where the read left it. -/
theorem ReadsForward.decoded_trap {cfg : Config} {α : Type} {r : Cursor → ReadOut α} (hr : ReadsForward cfg r)
    {f : α → Instr} {c c' : Cursor} {e : ErrorKind} (h : (r c).decoded f = .trap e c') : c.Forward cfg c' := by
  cases hc : r c with
  | ok v d => simp [hc, ReadOut.decoded] at h
  | err e' d =>
    rw [hc] at h
    cases h
    exact hr.of_err hc

section
variable {x : DecodeCtx} {c c' : Cursor} {e : ErrorKind}

theorem decodePrimitive_trap_forward {f : ReadFmt} (h : decodePrimitive x c f = .trap e c') : c.Forward x.cfg c' := by
  cases f <;> simp only [decodePrimitive] at h
  case f n =>
    split at h
    · cases h
    · exact (Cursor.read_forward x.cfg n (by omega)).decoded_trap h
  case s n =>
    split at h
    · cases h
    · exact (Cursor.readSigned_forward x.cfg n (by omega)).decoded_trap h
  case b => exact (Cursor.readBool_forward x.cfg).decoded_trap h
  case g => exact (Cursor.readGamma_forward x.cfg).decoded_trap h
  case ue => exact (Cursor.readUE_forward x.cfg).decoded_trap h
  case se => exact (Cursor.readSE_forward x.cfg).decoded_trap h
  case h t =>
    split at h
    · exact (Cursor.huff_forward x.cfg _).decoded_trap h
    · split at h <;> cases h

theorem decodeMpm_trap_forward {b : Block} (h : decodeMpm x c b = .trap e c') : c.Forward x.cfg c' := by
  have bit := Cursor.readBool_forward x.cfg
  unfold decodeMpm at h
  split at h
  · rename_i hb
    cases h
    exact bit.of_err hb
  · cases h
  · rename_i hb
    exact (bit.of_ok hb).trans ((Cursor.read_forward x.cfg 3 (by decide)).decoded_trap h)

theorem decodeForm_trap_forward {n : TSize} (h : decodeForm x c n = .trap e c') : c.Forward x.cfg c' := by
  have bit := Cursor.readBool_forward x.cfg
  unfold decodeForm at h
  split at h
  · cases h
  · split at h
    · rename_i hb
      cases h
      exact bit.of_err hb
    · cases h
    · rename_i hb
      exact (bit.of_ok hb).trans (bit.decoded_trap h)

theorem decodeHsym_trap_forward (h : decodeHsym x c = .trap e c') : c.Forward x.cfg c' := by
  unfold decodeHsym at h
  split at h
  · cases h
  · split at h
    · cases h
    · exact (Cursor.huff_forward x.cfg _).decoded_trap h

theorem decodeMvmode_trap_forward {r : Rect} (h : decodeMvmode x c r = .trap e c') : c.Forward x.cfg c' := by
  unfold decodeMvmode at h
  split at h
  · exact (Cursor.huff_forward x.cfg _).decoded_trap h
  · cases h

/-- A dispatch on a value already read moves nothing. -/
theorem decodeMvValue_trap {r : Rect} {v : Nat} (h : decodeMvValue c r v = .trap e c') : c' = c := by
  unfold decodeMvValue at h
  split at h <;> cases h
  rfl

theorem decodePredCode_trap {b : Block} {code : Nat} (h : decodePredCode x c b code = .trap e c') : c' = c := by
  unfold decodePredCode at h
  split at h <;> cases h
  rfl

/-- An error met while decoding leaves the cursor moved forward, or where it was. -/
theorem decode_trap_forward {t : Sys2Proof.Task} (h : decode x c t = .trap e c') : c.Forward x.cfg c' := by
  have bit := Cursor.readBool_forward x.cfg
  have se := Cursor.readSE_forward x.cfg
  have ue := Cursor.readUE_forward x.cfg
  have three := Cursor.read_forward x.cfg 3 (by decide)
  have six := Cursor.read_forward x.cfg 6 (by decide)
  cases t <;> simp only [decode] at h
  case read f => exact decodePrimitive_trap_forward h
  case ftype | csbit | vlcbit | subflag | sign | rawend => exact bit.decoded_trap h
  case qp6 | rawrun => exact six.decoded_trap h
  case qpdelta | dpdelta | mvdx | mvdy => exact se.decoded_trap h
  case cbpidx | partflag => exact ue.decoded_trap h
  case mode3 | cmode3 => exact three.decoded_trap h
  case mpm b => exact decodeMpm_trap_forward h
  case predCode b code => exact decodePredCode_trap h ▸ .refl x.cfg c
  case hsym => exact decodeHsym_trap_forward h
  case form n => exact decodeForm_trap_forward h
  case rawamp => exact (Cursor.readSigned_forward x.cfg 12 (by decide)).decoded_trap h
  case mvmode r => exact decodeMvmode_trap_forward h
  case mvValue r v => exact decodeMvValue_trap h ▸ .refl x.cfg c
  case block8 => cases h
  case op => cases h

end

namespace Machine

/-- Settles O51: the four positions `State.fetch` tells apart. -/
theorem stepRunsTheDecodedInstruction : Obligations.StepRunsTheDecodedInstruction := by
  intro s
  refine ⟨fun t rest i ha hd => ?run, fun t rest e c ha hd => ?trap, fun bytes rest ha hp hc => ?call,
    fun ha hp hc => ?idle⟩
  case run => simp only [step_eq, fetch_run ha hd]
  case trap =>
    simp only [step_eq, State.fetch, ha, hd]
    rfl
  case call => simp only [step_eq, State.fetch, ha, hp, hc, if_true]
  case idle => simp only [step_eq, fetch_idle ha hp hc]

/-- Everything a step that goes on can do: run the instruction decoded, take the error of the decoding, begin the caller's
next call, or idle. -/
theorem step_next_cases {s t : State} (h : step s = .next t) :
    (∃ x rest i, s.agenda = x :: rest ∧ decode s.ctx s.cursor x = .instr i ∧ exec i { s with agenda := rest } = .next t)
      ∨ (∃ x rest e c, s.agenda = x :: rest ∧ decode s.ctx s.cursor x = .trap e c
        ∧ t = State.raise { s with cursor := c } e)
      ∨ (∃ bytes rest, s.agenda = [] ∧ s.phase = .awaitFrame ∧ s.calls = bytes :: rest
        ∧ exec (.decodeFrame (.start bytes)) { s with calls := rest } = .next t)
      ∨ s.agenda = [] ∧ t = s := by
  obtain ⟨run, trap, call, idle⟩ := stepRunsTheDecodedInstruction s
  cases ha : s.agenda with
  | cons x rest =>
    cases hd : decode s.ctx s.cursor x with
    | instr i => exact .inl ⟨x, rest, i, rfl, hd, (run x rest i ha hd).symm.trans h⟩
    | trap e c =>
      have heq := (trap x rest e c ha hd).symm.trans h
      cases heq
      exact .inr (.inl ⟨x, rest, e, c, rfl, hd, rfl⟩)
    | rejected r =>
      simp only [step_eq, State.fetch, ha, hd] at h
      cases h
  | nil =>
    by_cases hp : s.phase = .awaitFrame
    · cases hc : s.calls with
      | cons bytes rest => exact .inr (.inr (.inl ⟨bytes, rest, rfl, hp, rfl, (call bytes rest ha hp hc).symm.trans h⟩))
      | nil =>
        have heq := (idle ha hp hc).symm.trans h
        cases heq
        exact .inr (.inr (.inr ⟨rfl, rfl⟩))
    · simp only [step_eq, State.fetch, ha, hp, if_false] at h
      cases h

/-- Outside `AwaitFrame` no call begins (R347, log 12). -/
theorem exec_start_refused {s : State} (bytes : List Byte) (h : s.phase ≠ .awaitFrame) :
    exec (.decodeFrame (.start bytes)) s = .refused .reentrantCall :=
  if_neg h

/-- Settles O59: no instruction writes the configuration, and only the entry of a call, which is refused while one runs,
writes the input. -/
theorem configurationFixedAndBitposForward : Obligations.ConfigurationFixedAndBitposForward := by
  intro s t h
  rcases step_next_cases h with ⟨x, rest, i, ha, hd, he⟩ | ⟨x, rest, e, c, ha, hd, rfl⟩ | ⟨bytes, rest, ha, -, -, he⟩
    | ⟨ha, rfl⟩
  case inl =>
    refine ⟨(exec_keptBut he).cfg, fun hp _ => ?_⟩
    have forward : Item.kept { s with agenda := rest } t .input := by
      refine exec_kept he (by decide) fun m => ?_
      obtain ⟨bytes, rfl⟩ := of_input_written m
      have refused := exec_start_refused (s := { s with agenda := rest }) bytes hp
      cases he.symm.trans refused
    exact ⟨forward.input, forward.bitpos⟩
  case inr.inl =>
    have forward : s.cursor.Forward s.cfg c := decode_trap_forward hd
    exact ⟨rfl, fun _ _ => ⟨forward.input, forward.bitpos⟩⟩
  case inr.inr.inl => exact ⟨(exec_keptBut he).cfg, fun _ hn => absurd ha hn⟩
  case inr.inr.inr => exact ⟨rfl, fun _ hn => absurd ha hn⟩

/-! ## The quantizer registers (R27, R299) -/

theorem toInt_ofInt_small {z : Int} (h0 : 0 ≤ z) (h1 : z < 2 ^ 31) : (BitVec.ofInt 32 z).toInt = z := by
  rw [BitVec.toInt_ofInt, Int.bmod_eq_of_le (by omega) (by omega)]

/-- The derived registers of an index for which they are small numbers. -/
theorem quantizer_registers {q : Word} (h0 : 12 ≤ q.toInt) (h1 : q.toInt ≤ 191) :
    ((qidxOf q).val : Int) = q.toInt % 6 ∧ (qsh4Of q).toInt = q.toInt / 6 ∧ (qsh8Of q).toInt = q.toInt / 6 - 2 := by
  refine ⟨?_, toInt_ofInt_small (by omega) (by omega), toInt_ofInt_small (by omega) (by omega)⟩
  have hval : (qidxOf q).val = (q.toInt % 6).toNat % 6 := rfl
  omega

/-- Settles O21: the step writes exactly the three derived registers. -/
theorem quantizerRegistersDerived : Obligations.QuantizerRegistersDerived :=
  fun _ q h0 h1 => ⟨qidxOf q, qsh4Of q, qsh8Of q, rfl, quantizer_registers h0 h1⟩

end Machine

end Sys2Proof
end

section
/-! ## The invariant: its parts, and what keeps each (R21, R23, R27, R28, R31, R253, R314) -/

namespace Sys2Proof.Machine

/-! ### Facts of a legal configuration -/

section
variable {cfg : Config} (h : cfg.wellFormed = true)
include h

theorem mbw_pos : 0 < cfg.mbw := by
  simp only [Config.wellFormed, Bool.and_eq_true, decide_eq_true_eq, beq_iff_eq] at h
  have hw : 0 < cfg.w ∧ cfg.w % 16 = 0 := by tauto
  unfold Config.mbw
  omega

/-- A quantizer index in range is in the range the shifts of R180 allow (log 27). -/
theorem qp_bounds {q : Int} (hq : qpInRange cfg q = true) : 12 ≤ q ∧ q ≤ 191 := by
  simp only [Config.wellFormed, Bool.and_eq_true, decide_eq_true_eq] at h
  have hb : 12 ≤ cfg.qpMin ∧ cfg.qpMax ≤ 191 := by tauto
  simp only [qpInRange, Bool.and_eq_true, decide_eq_true_eq] at hq
  omega

/-- The mode codes are 0 to 8 (R201). -/
theorem codeOf_le (m : IntraMode) : cfg.codeOf m ≤ 8 := by
  simp only [Config.wellFormed, Bool.and_eq_true, beq_iff_eq, List.all_eq_true] at h
  have hlen : cfg.modeCode.length = 9 := by tauto
  have hall : ∀ m ∈ allModes, cfg.modeCode.contains m = true := by tauto
  have hmem : m ∈ cfg.modeCode := by
    have := hall m (by cases m <;> decide)
    simpa using this
  have hlt : cfg.codeOf m < cfg.modeCode.length := List.idxOf_lt_length_iff.mpr hmem
  omega

end

/-! ### The motion-vector cache (R253) -/

theorem State.mvcOk_iff (s : State) : s.mvcOk = true ↔ s.mvc.length = s.cfg.mbw + 2
    ∧ s.mvc[0]? = some { x := 0, y := 0 } ∧ s.mvc[s.cfg.mbw + 1]? = some { x := 0, y := 0 } := by
  simp only [State.mvcOk, Bool.and_eq_true, beq_iff_eq, and_assoc, List.head?_eq_getElem?, List.getLast?_eq_getElem?]
  constructor
  · rintro ⟨hl, h0, h1⟩
    exact ⟨hl, h0, by simpa [hl] using h1⟩
  · rintro ⟨hl, h0, h1⟩
    exact ⟨hl, h0, by simpa [hl] using h1⟩

theorem mvcOk_cleared (s : State) (h : s.mvc = List.replicate (s.cfg.mbw + 2) { x := 0, y := 0 }) : s.mvcOk = true := by
  rw [State.mvcOk_iff, h]
  simp

/-- A write at the macroblock's own column leaves the two sentinels. -/
theorem mvcOk_setMvc {s : State} (hcfg : s.cfg.wellFormed = true) (h : s.mvcOk = true) (mv : MV) :
    (s.setMvc mv).mvcOk = true := by
  have hx : s.mbx < s.cfg.mbw := Nat.mod_lt _ (mbw_pos hcfg)
  rw [State.mvcOk_iff] at h ⊢
  obtain ⟨hl, h0, h1⟩ := h
  simp only [State.setMvc_cfg, State.setMvc_mvc, List.length_set]
  exact ⟨hl, by rw [List.getElem?_set_ne (by omega), h0], by rw [List.getElem?_set_ne (by omega), h1]⟩

theorem intraEscape_mvcOk {s : State} (hcfg : s.cfg.wellFormed = true) (h : s.mvcOk = true) (r : Rect) (f : Bool) :
    Ensures (fun t => t.mvcOk = true) (intraEscape r f s) := by
  unfold intraEscape
  split
  · cases s.cfg.mvcIntra with
    | keep => exact .next h
    | zero => exact .next (mvcOk_setMvc hcfg h _)
  · exact .trap h

theorem qpdelta_mvcOk {s : State} (h : s.mvcOk = true) (d : Int) :
    Ensures (fun t => t.mvcOk = true) (execQpdelta d s) := by
  refine .reading (Cursor.readSE_forward s.cfg) (fun c _ => ?_) fun _ _ _ => h
  dsimp only
  split
  · exact .trap h
  · split
    · exact .next (mvcOk_cleared _ rfl)
    · exact .trap h

theorem exec_mvcOk {i : Instr} {s t : State} (hcfg : s.cfg.wellFormed = true) (h : s.mvcOk = true)
    (he : exec i s = .next t) : t.mvcOk = true := by
  by_cases hx : .mvc ∈ writtenBy i
  · have leafOk : ∀ r mv k, Ensures (fun t => t.mvcOk = true) (leaf r mv k s) := fun r mv k =>
      .next (mvcOk_setMvc hcfg h mv)
    rcases of_mvc_written hx with ⟨d, rfl⟩ | ⟨r, rfl⟩ | ⟨r, rfl⟩ | ⟨r, rfl⟩ | ⟨r, rfl⟩ | ⟨r, rfl⟩ | ⟨r, rfl⟩ | ⟨r, rfl⟩
      | ⟨r, rfl⟩
    · exact qpdelta_mvcOk h d t he
    · exact leafOk r _ _ t he
    · exact leafOk r _ _ t he
    · exact leafOk r _ _ t he
    · exact leafOk r _ _ t he
    · exact leafOk r _ _ t he
    · exact leafOk r _ _ t he
    · exact intraEscape_mvcOk hcfg h r false t he
    · exact intraEscape_mvcOk hcfg h r true t he
  · have hmvc : t.mvc = s.mvc := exec_kept (x := .mvc) he (by decide) hx
    rw [State.mvcOk_iff] at h ⊢
    rwa [hmvc, (exec_keptBut he).cfg]

/-! ### The recorded modes (R31, R203) -/

theorem State.preOk_iff (s : State) : s.preOk = true ↔ ∀ (k a : Nat), s.pre[k]? = some (some a) → a ≤ 8 := by
  simp only [State.preOk, Vector.all_eq_true]
  constructor
  · intro h k a hk
    obtain ⟨hlt, hget⟩ := Vector.getElem?_eq_some_iff.mp hk
    simpa [hget] using h k hlt
  · intro h k hlt
    cases hget : s.pre[k] with
    | none => rfl
    | some a => exact decide_eq_true (h k a (Vector.getElem?_eq_some_iff.mpr ⟨hlt, hget⟩))

theorem preOk_cleared (s : State) (h : s.pre = Vector.replicate 16 none) : s.preOk = true := by
  rw [State.preOk_iff, h]
  intro k a hk
  rw [Vector.getElem?_replicate] at hk
  split at hk <;> cases hk

theorem preAt_le {s : State} (h : s.preOk = true) {k a : Nat} (hk : s.preAt k = some a) : a ≤ 8 :=
  s.preOk_iff.mp h k a (Option.join_eq_some_iff.mp hk)

/-- The predicted mode is a mode code (R202). -/
theorem predictedMode_le {s : State} (hcfg : s.cfg.wellFormed = true) (h : s.preOk = true) (k : Nat) :
    s.predictedMode k ≤ 8 := by
  have side : ∀ (p : Prop) [Decidable p] (j a : Nat), (if p then s.preAt j else none) = some a → a ≤ 8 := by
    intro p _ j a hja
    split at hja
    · exact preAt_le h hja
    · cases hja
  unfold State.predictedMode
  dsimp only
  split
  · rename_i ha _
    exact (Nat.min_le_left _ _).trans (side _ _ _ ha)
  · rename_i ha _
    exact side _ _ _ ha
  · rename_i _ hl
    exact side _ _ _ hl
  · exact codeOf_le hcfg _

theorem preOk_recordMode {s : State} (h : s.preOk = true) (b : Block) {a : Nat} (ha : a ≤ 8) :
    (s.recordMode b a).preOk = true := by
  rw [State.preOk_iff] at h ⊢
  intro k m hk
  have hlt : k < 16 := (Vector.getElem?_eq_some_iff.mp hk).1
  rw [State.recordMode_pre s b a k hlt] at hk
  split at hk
  · cases hk
    exact ha
  · exact h k m hk

theorem exec_preOk {i : Instr} {s t : State} (hcfg : s.cfg.wellFormed = true) (h : s.preOk = true)
    (he : exec i s = .next t) : t.preOk = true := by
  by_cases hx : .pre ∈ writtenBy i
  · have bit := Cursor.readBool_forward s.cfg
    have recorded : ∀ (u : State) (b : Block), u.cfg.wellFormed = true → u.preOk = true →
        (u.recordMode b (u.predictedMode (u.modeIndex b))).preOk = true := fun u b hu hp =>
      preOk_recordMode hp b (predictedMode_le hu hp _)
    suffices hs : Ensures (fun t => t.preOk = true) (exec i s) from hs t he
    rcases of_pre_written hx with ⟨b, rfl⟩ | ⟨b, r, rfl⟩ | ⟨f, rfl⟩ <;> dsimp only [exec]
    · exact .reading bit (fun c _ => .next (recorded { s with cursor := c } b hcfg h)) fun _ _ _ => h
    · refine .reading bit (fun c _ => ?_) fun _ _ _ => h
      refine .reading (Cursor.read_forward s.cfg 3 (by decide)) (fun c _ => .next ?_) fun _ _ _ => h
      refine preOk_recordMode (s := { s with cursor := c }) h b ?_
      have hpm := predictedMode_le (s := { s with cursor := c }) hcfg h (State.modeIndex { s with cursor := c } b)
      have hr : r.toNat < 8 := r.isLt
      split <;> omega
    · cases f <;> exact .next (preOk_cleared _ rfl)
  · have hpre : t.pre = s.pre := exec_kept (x := .pre) he (by decide) hx
    rw [State.preOk_iff] at h ⊢
    rwa [hpre]

/-! ### The quantizer index and its shifts (R27, R314) -/

theorem toInt_setWidth_six (q : BitVec 6) : (q.setWidth 32 : Word).toInt = (q.toNat : Int) := by
  have hlt : q.toNat < 64 := q.isLt
  have hnat : (q.setWidth 32 : Word).toNat = q.toNat := by
    rw [BitVec.toNat_setWidth, Nat.mod_eq_of_lt (by omega)]
  rw [BitVec.toInt_eq_toNat_of_lt (by omega), hnat]

theorem qpOk_of_inRange {s : State} (h : qpInRange s.cfg s.qp.toInt = true) : s.qpOk = true := by
  rw [State.qpOk, h, Bool.or_true]

theorem qp6_qpOk {s : State} (h : s.qpOk = true) (q : BitVec 6) : Ensures (fun t => t.qpOk = true) (execQp6 q s) := by
  refine .reading (Cursor.read_forward s.cfg 6 (by decide)) (fun c _ => ?_) fun _ _ _ => h
  dsimp only
  split
  · rename_i hq
    refine .next (qpOk_of_inRange ?_)
    dsimp only [State.push_cfg, State.push_qp]
    rwa [toInt_setWidth_six]
  · exact .trap h

theorem qpdelta_qpOk {s : State} (h : s.qpOk = true) (d : Int) :
    Ensures (fun t => t.qpOk = true) (execQpdelta d s) := by
  refine .reading (Cursor.readSE_forward s.cfg) (fun c _ => ?_) fun _ _ _ => h
  dsimp only
  split
  · exact .trap h
  · split
    · rename_i hq
      cases s.cfg.qpAccumulates with
      | true => exact .next (qpOk_of_inRange hq)
      | false => exact .next h
    · exact .trap h

theorem exec_qpOk {i : Instr} {s t : State} (h : s.qpOk = true) (he : exec i s = .next t) : t.qpOk = true := by
  by_cases hx : .qp ∈ writtenBy i
  · rcases of_qp_written hx with ⟨q, rfl⟩ | ⟨d, rfl⟩
    · exact qp6_qpOk h q t he
    · exact qpdelta_qpOk h d t he
  · have hqp : t.qp = s.qp := exec_kept (x := .qp) he (by decide) hx
    have hheader : Item.kept s t .header := by
      refine exec_kept he (by decide) fun m => ?_
      obtain ⟨q, rfl⟩ := of_header_written m
      exact hx (.tail _ (.head _))
    have hcfg := (exec_keptBut he).cfg
    rw [State.qpOk, hcfg, hqp, hheader.2.2]
    exact h

theorem exec_shiftsOk {i : Instr} {s t : State} (hcfg : s.cfg.wellFormed = true) (h : s.shiftsOk = true)
    (hq : ∀ q, i = .setQuantizer q → qpInRange s.cfg q.toInt = true) (he : exec i s = .next t) : t.shiftsOk = true := by
  by_cases hx : .quantizer ∈ writtenBy i
  · obtain ⟨q, rfl⟩ := of_quantizer_written hx
    obtain ⟨h12, h191⟩ := qp_bounds hcfg (hq q rfl)
    obtain ⟨-, h4, h8⟩ := quantizer_registers h12 h191
    cases he
    simp only [State.shiftsOk, h4, h8, Bool.and_eq_true, decide_eq_true_eq]
    omega
  · have hk : Item.kept s t .quantizer := exec_kept he (by decide) hx
    rw [State.shiftsOk, hk.2.1, hk.2.2]
    exact h

/-! ### The frame memories (log 8) and the cursor (R21) -/

theorem exec_ringCanonical {i : Instr} {s t : State} (h : s.ringCanonical = true) (he : exec i s = .next t) :
    t.ringCanonical = true := by
  simp only [State.ringCanonical, List.all_cons, List.all_nil, Bool.and_eq_true, Bool.and_true] at h ⊢
  obtain ⟨h0, h1, h2, h3, h4, h5⟩ := h
  by_cases hx : .refs ∈ writtenBy i
  · obtain rfl := of_refs_written hx
    cases he
    exact ⟨FrameBuf.clear_wf _ _, h0, h1, h2, h3, h4⟩
  · have hk : Item.kept s t .refs := exec_kept he (by decide) hx
    rw [(exec_keptBut he).cfg, hk.f1, hk.f2, hk.f3, hk.f4, hk.f5]
    exact ⟨hk.wf h0, h1, h2, h3, h4, h5⟩

theorem exec_cursorOk {i : Instr} {s t : State} (h : s.cursor.ok s.cfg = true) (he : exec i s = .next t) :
    t.cursor.ok t.cfg = true := by
  rw [(exec_keptBut he).cfg]
  by_cases hx : .input ∈ writtenBy i
  · obtain ⟨bytes, rfl⟩ := of_input_written hx
    dsimp only [exec, execDecodeFrame, beginCall] at he
    split at he <;> cases he
    exact Cursor.start_ok s.cfg bytes
  · have hk : Item.kept s t .input := exec_kept he (by decide) hx
    exact hk.ok h

/-! ### All but the position -/

/-- The invariant without the sequencer's position. -/
structure State.RegistersOk (s : State) : Prop where
  cfg : s.cfg.wellFormed = true
  cursor : s.cursor.ok s.cfg = true
  ring : s.ringCanonical = true
  mvc : s.mvcOk = true
  pre : s.preOk = true
  qp : s.qpOk = true
  shifts : s.shiftsOk = true

theorem State.inv_iff (s : State) : s.inv = true ↔ s.RegistersOk ∧ s.sequenced = true := by
  simp only [State.inv, Bool.and_eq_true]
  constructor
  · rintro ⟨⟨⟨⟨⟨⟨⟨h1, h2⟩, h3⟩, h4⟩, h5⟩, h6⟩, h7⟩, h8⟩
    exact ⟨⟨h1, h2, h3, h4, h5, h6, h7⟩, h8⟩
  · rintro ⟨⟨h1, h2, h3, h4, h5, h6, h7⟩, h8⟩
    exact ⟨⟨⟨⟨⟨⟨⟨h1, h2⟩, h3⟩, h4⟩, h5⟩, h6⟩, h7⟩, h8⟩

theorem exec_registersOk {i : Instr} {s t : State} (h : s.RegistersOk)
    (hq : ∀ q, i = .setQuantizer q → qpInRange s.cfg q.toInt = true) (he : exec i s = .next t) : t.RegistersOk where
  cfg := by rw [(exec_keptBut he).cfg, h.cfg]
  cursor := exec_cursorOk h.cursor he
  ring := exec_ringCanonical h.ring he
  mvc := exec_mvcOk h.cfg h.mvc he
  pre := exec_preOk h.cfg h.pre he
  qp := exec_qpOk h.qp he
  shifts := exec_shiftsOk h.cfg h.shifts hq he

end Sys2Proof.Machine
end

section
/-! ## The sequencer's position (R22, R23, R28) -/

namespace Sys2Proof

/-- What decoding gives is made of the value read. -/
theorem ReadOut.decoded_instr {α : Type} {r : ReadOut α} {f : α → Instr} {i : Instr} (h : r.decoded f = .instr i) :
    ∃ v, i = f v := by
  cases r with
  | ok v c =>
    cases h
    exact ⟨v, rfl⟩
  | err e c => cases h

namespace Machine

/-! ### What an instruction's position is -/

/-- An instruction that no bits and no code value stand for, and that moves the quantizer or the frame. -/
def neverDecoded : Instr → Bool
  | .setQuantizer _ => true
  | .decodeFrame _ => true
  | _ => false

/-- `i` is on the same side of the frame level as the position `t`, and bits stand for it. -/
def DecodedAt (t : Sys2Proof.Task) (i : Instr) : Prop := frameLevel i = frameTask t ∧ neverDecoded i = false

section
variable {x : DecodeCtx} {c : Cursor} {i : Instr}

theorem decodedAt_of_read {α : Type} {r : ReadOut α} {f : α → Instr} {t : Sys2Proof.Task}
    (hf : ∀ v, DecodedAt t (f v)) (h : r.decoded f = .instr i) : DecodedAt t i := by
  obtain ⟨v, rfl⟩ := ReadOut.decoded_instr h
  exact hf v

theorem decodedAt_primitive {f : ReadFmt} (h : decodePrimitive x c f = .instr i) : DecodedAt (.read f) i := by
  cases f <;> simp only [decodePrimitive] at h
  case f n =>
    split at h
    · cases h
    · exact decodedAt_of_read (fun _ => ⟨rfl, rfl⟩) h
  case s n =>
    split at h
    · cases h
    · exact decodedAt_of_read (fun _ => ⟨rfl, rfl⟩) h
  case h t =>
    split at h
    · exact decodedAt_of_read (fun _ => ⟨rfl, rfl⟩) h
    · split at h <;> cases h
  all_goals exact decodedAt_of_read (fun _ => ⟨rfl, rfl⟩) h

/-- A position that is no operation decodes to an instruction of its own side of the frame level. -/
theorem decodedAt_of_decode {t : Sys2Proof.Task} (ht : ∀ j, t ≠ .op j) (h : decode x c t = .instr i) : DecodedAt t i := by
  cases t <;> simp only [decode] at h
  case op j => exact absurd rfl (ht j)
  case read f => exact decodedAt_primitive h
  case ftype => exact decodedAt_of_read (fun b => by split <;> exact ⟨rfl, rfl⟩) h
  case partflag => exact decodedAt_of_read (fun v => by cases v <;> exact ⟨rfl, rfl⟩) h
  case mpm b =>
    unfold decodeMpm at h
    split at h
    · cases h
    · cases h
      exact ⟨rfl, rfl⟩
    · exact decodedAt_of_read (fun _ => ⟨rfl, rfl⟩) h
  case predCode b code =>
    unfold decodePredCode at h
    split at h
    · cases h
      rename_i m _
      cases m <;> exact ⟨rfl, rfl⟩
    · cases h
  case hsym =>
    unfold decodeHsym at h
    split at h
    · cases h
      exact ⟨rfl, rfl⟩
    · split at h
      · cases h
        exact ⟨rfl, rfl⟩
      · exact decodedAt_of_read (fun _ => ⟨rfl, rfl⟩) h
  case form n =>
    unfold decodeForm at h
    split at h
    · cases h
      exact ⟨rfl, rfl⟩
    · split at h
      · cases h
      · cases h
        exact ⟨rfl, rfl⟩
      · exact decodedAt_of_read (fun b => by cases b <;> exact ⟨rfl, rfl⟩) h
  case mvmode r =>
    unfold decodeMvmode at h
    split at h
    · exact decodedAt_of_read (fun _ => ⟨rfl, rfl⟩) h
    · cases h
  case mvValue r v =>
    unfold decodeMvValue at h
    split at h <;> cases h <;> exact ⟨rfl, rfl⟩
  case block8 =>
    cases h
    exact ⟨rfl, rfl⟩
  all_goals exact decodedAt_of_read (fun _ => ⟨rfl, rfl⟩) h

/-- An operation the sequencer schedules is on the side of the frame level its position is on. -/
theorem frameLevel_of_scheduled {cfg : Config} (h : scheduled cfg i = true) : frameLevel i = frameTask (.op i) := by
  cases i with
  | ftypeI | ftypeP | qp6 | qpdelta => cases h
  | _ => rfl

/-- At a legal position the instruction decoded is on the side of the frame level the position is on. -/
theorem frameLevel_of_decode {t : Sys2Proof.Task} (hl : legalTask x.cfg t = true) (h : decode x c t = .instr i) :
    frameLevel i = frameTask t := by
  by_cases ht : ∃ j, t = .op j
  · obtain ⟨j, rfl⟩ := ht
    cases h
    exact frameLevel_of_scheduled hl
  · exact (decodedAt_of_decode (fun j e => ht ⟨j, e⟩) h).1

/-- The sequencer's own instructions stand on the agenda as they are. -/
theorem op_of_decode {t : Sys2Proof.Task} (hn : neverDecoded i = true) (h : decode x c t = .instr i) : t = .op i := by
  by_cases ht : ∃ j, t = .op j
  · obtain ⟨j, rfl⟩ := ht
    cases h
    rfl
  · have hd := (decodedAt_of_decode (fun j e => ht ⟨j, e⟩) h).2
    cases hn.symm.trans hd

/-- A quantizer index that is about to be used has passed its check (R314). -/
theorem qpInRange_of_decode {t : Sys2Proof.Task} {q : Word} (hl : legalTask x.cfg t = true)
    (h : decode x c t = .instr (.setQuantizer q)) : qpInRange x.cfg q.toInt = true := by
  obtain rfl := op_of_decode rfl h
  exact hl

end

/-! ### The agenda -/

theorem sequenced_nil_iff {s : State} (h : s.agenda = []) :
    s.sequenced = true ↔ s.mbi ≤ s.mbTotal ∧ s.phase = .awaitFrame := by
  simp [State.sequenced, h]

/-- An agenda that ends in `last` is in order when `last` is the one step of the frame level. -/
theorem sequenced_concat_iff {s : State} {us : List Sys2Proof.Task} {last : Sys2Proof.Task} (h : s.agenda = us ++ [last]) :
    s.sequenced = true ↔ s.mbi ≤ s.mbTotal ∧ s.phase ≠ .awaitFrame
      ∧ (us.all fun x => legalTask s.cfg x && !frameTask x) = true ∧ legalTask s.cfg last = true
      ∧ frameTask last = true ∧ (endsMacroblock last = true → s.mbi < s.mbTotal) := by
  have himp : (!endsMacroblock last || decide (s.mbi < s.mbTotal)) = true
      ↔ (endsMacroblock last = true → s.mbi < s.mbTotal) := by
    cases endsMacroblock last <;> simp
  simp only [State.sequenced, h, List.getLast?_concat, List.dropLast_concat, List.all_append, List.all_cons, List.all_nil,
    Bool.and_true, Bool.and_eq_true, decide_eq_true_eq, bne_iff_ne, ne_eq, himp, List.all_eq_true]
  constructor
  · rintro ⟨⟨hm, hus, hl⟩, ⟨⟨hp, hf⟩, hn⟩, he⟩
    exact ⟨hm, hp, fun x hx => ⟨hus x hx, hn x hx⟩, hl, hf, he⟩
  · rintro ⟨hm, hp, hus, hl, hf, he⟩
    exact ⟨⟨hm, fun x hx => (hus x hx).1, hl⟩, ⟨⟨hp, hf⟩, fun x hx => (hus x hx).2⟩, he⟩

theorem mbi_le_of_sequenced {s : State} (h : s.sequenced = true) : s.mbi ≤ s.mbTotal := by
  simp only [State.sequenced, Bool.and_eq_true, decide_eq_true_eq] at h
  tauto

theorem raise_sequenced {s : State} (h : s.mbi ≤ s.mbTotal) (e : ErrorKind) : (s.raise e).sequenced = true :=
  (sequenced_nil_iff rfl).mpr ⟨h, rfl⟩

/-- What an agenda in order says of its head: a step of the frame level is all there is, and any other position leaves an
agenda in order. -/
theorem sequenced_cons {s : State} {x : Sys2Proof.Task} {rest : List Sys2Proof.Task} (h : s.sequenced = true)
    (ha : s.agenda = x :: rest) : s.phase ≠ .awaitFrame ∧ legalTask s.cfg x = true
      ∧ (frameTask x = true → rest = [] ∧ (endsMacroblock x = true → s.mbi < s.mbTotal))
      ∧ (frameTask x = false → rest ≠ [] ∧ State.sequenced { s with agenda := rest } = true) := by
  obtain ⟨us, last, hus⟩ : ∃ us last, s.agenda = us ++ [last] := by
    rcases List.eq_nil_or_concat s.agenda with hnil | ⟨us, last, hus⟩
    · rw [ha] at hnil
      cases hnil
    · exact ⟨us, last, by simpa using hus⟩
  obtain ⟨hm, hp, hall, hl, hf, he⟩ := (sequenced_concat_iff hus).mp h
  rw [ha] at hus
  cases us with
  | nil =>
    cases hus
    exact ⟨hp, hl, fun _ => ⟨rfl, he⟩, fun hn => by simp [hf] at hn⟩
  | cons u us =>
    cases hus
    simp only [List.all_cons, Bool.and_eq_true, Bool.not_eq_true'] at hall
    obtain ⟨⟨hlx, hfx⟩, hall⟩ := hall
    exact ⟨hp, hlx, fun hn => by simp [hfx] at hn,
      fun _ => ⟨by simp, (sequenced_concat_iff rfl).mpr ⟨hm, hp, hall, hl, hf, he⟩⟩⟩

/-! ### Below the frame level -/

theorem push_sequenced {s : State} {ts : List Sys2Proof.Task} (hcfg : s.cfg.wellFormed = true) (h : s.sequenced = true)
    (hne : s.agenda ≠ []) (hts : Below s.cfg ts) : (s.push ts).sequenced = true := by
  obtain ⟨us, last, hus⟩ : ∃ us last, s.agenda = us ++ [last] := ⟨_, _, (List.dropLast_append_getLast hne).symm⟩
  obtain ⟨hm, hp, hall, hl, hf, he⟩ := (sequenced_concat_iff hus).mp h
  have hagenda : (s.push ts).agenda = (ts ++ us) ++ [last] := by simp [hus]
  refine (sequenced_concat_iff hagenda).mpr ⟨hm, hp, ?_, hl, hf, he⟩
  rw [List.all_append, Bool.and_eq_true]
  exact ⟨hts hcfg, hall⟩

/-- Writing items other than the position does not move it. -/
theorem KeptBut.sequenced_eq {W : List Item} {s t : State} (h : KeptBut W s t) (hW : .position ∉ W) :
    t.sequenced = s.sequenced := by
  obtain ⟨hmbi, hphase, hagenda⟩ : Item.kept s t .position := h.kept _ hW
  rw [State.sequenced, State.sequenced, State.mbTotal, State.mbTotal, h.cfg, hmbi, hphase, hagenda]

theorem Follows.sequenced {W : List Item} {s t : State} (hf : Follows W s t) (hW : .position ∉ W)
    (hcfg : s.cfg.wellFormed = true) (h : s.sequenced = true) (hne : s.agenda ≠ []) : t.sequenced = true := by
  obtain ⟨u, hu, hend⟩ := hf
  have hposition : Item.kept s u .position := hu.kept _ hW
  have hseq : u.sequenced = true := (hu.sequenced_eq hW).trans h
  rcases hend with ⟨e, rfl⟩ | ⟨ts, hts, rfl⟩
  · exact raise_sequenced (mbi_le_of_sequenced hseq) e
  · exact push_sequenced (by rw [hu.cfg, hcfg]) hseq (by rwa [hposition.2.2]) (by rwa [hu.cfg])

/-! ### At the frame level -/

/-- The frame's own agenda after a step of the frame level: positions below it, then one step of it. -/
theorem schedule_sequenced {s : State} {us : List Sys2Proof.Task} {last : Sys2Proof.Task} (ha : s.agenda = [])
    (hp : s.phase ≠ .awaitFrame) (hm : s.mbi ≤ s.mbTotal)
    (hus : (us.all fun x => legalTask s.cfg x && !frameTask x) = true) (hl : legalTask s.cfg last = true)
    (hf : frameTask last = true) (he : endsMacroblock last = true → s.mbi < s.mbTotal) :
    (s.push (us ++ [last])).sequenced = true := by
  have hagenda : (s.push (us ++ [last])).agenda = us ++ [last] := by simp [ha]
  exact (sequenced_concat_iff hagenda).mpr ⟨hm, hp, hus, hl, hf, he⟩

section
variable {s : State} (ha : s.agenda = []) (hp : s.phase ≠ .awaitFrame) (hm : s.mbi ≤ s.mbTotal)
include ha hp hm

theorem qp6_sequenced (q : BitVec 6) : Ensures (fun t => t.sequenced = true) (execQp6 q s) := by
  refine .reading (Cursor.read_forward s.cfg 6 (by decide)) (fun c _ => ?_) fun e c _ => raise_sequenced hm e
  dsimp only
  split
  · rename_i hq
    have hset : legalTask s.cfg (.op (.setQuantizer (q.setWidth 32))) = true := by
      rw [← toInt_setWidth_six] at hq
      exact hq
    refine .next (schedule_sequenced (us := [.op (.setQuantizer _)]) ha hp hm ?_ rfl rfl nofun)
    rw [List.all_cons, hset]
    rfl
  · exact .trap (raise_sequenced hm .formatError)

theorem qpdelta_sequenced (d : Int) : Ensures (fun t => t.sequenced = true) (execQpdelta d s) := by
  refine .reading (Cursor.readSE_forward s.cfg) (fun c _ => ?_) fun e c _ => raise_sequenced hm e
  dsimp only
  split
  · exact .trap (raise_sequenced hm .formatError)
  · split
    · rename_i hq
      have hset : legalTask s.cfg (.op (.setQuantizer (s.qp + BitVec.ofInt 32 d))) = true := hq
      refine .next (schedule_sequenced (us := [.op (.setQuantizer _)]) ha hp hm ?_ rfl rfl nofun)
      rw [List.all_cons, hset]
      rfl
    · exact .trap (raise_sequenced hm .formatError)

theorem macroblocks_sequenced (k : FrameKind) :
    Ensures (fun t => t.sequenced = true) (nextMacroblock k s) := by
  unfold nextMacroblock
  split
  · rename_i hlt
    cases k with
    | intra => exact .next (schedule_sequenced (us := [.subflag]) ha hp hm rfl rfl rfl fun _ => hlt)
    | inter => exact .next (schedule_sequenced (us := [.op .decodeInterMB]) ha hp hm rfl rfl rfl fun _ => hlt)
  · exact .next (schedule_sequenced (us := []) ha hp hm rfl rfl rfl nofun)

/-- A step of the frame level during a call leaves the frame's agenda in order; the end of a macroblock has one to count. -/
theorem frameLevel_sequenced {i : Instr} (hi : frameLevel i = true)
    (hstart : ∀ bytes, i ≠ .decodeFrame (.start bytes))
    (hdone : ∀ k, i = .decodeFrame (.macroblockDone k) → s.mbi < s.mbTotal) :
    Ensures (fun t => t.sequenced = true) (exec i s) := by
  cases i <;> cases hi <;> dsimp only [exec]
  case ftypeI =>
    refine .reading (Cursor.readBool_forward s.cfg) (fun c _ => .next ?_) fun e c _ => raise_sequenced hm e
    exact schedule_sequenced (us := [.op .rotateAndClear, .csbit, .vlcbit]) ha nofun hm rfl rfl rfl nofun
  case ftypeP =>
    refine .reading (Cursor.readBool_forward s.cfg) (fun c _ => .next ?_) fun e c _ => raise_sequenced hm e
    exact schedule_sequenced (us := [.op .rotateAndClear]) ha nofun hm rfl rfl rfl nofun
  case qp6 q => exact qp6_sequenced ha hp hm q
  case qpdelta d => exact qpdelta_sequenced ha hp hm d
  case decodeFrame st =>
    cases st with
    | start bytes => exact absurd rfl (hstart bytes)
    | macroblocks k => exact macroblocks_sequenced ha hp hm k
    | macroblockDone k =>
      exact .next (schedule_sequenced (us := []) ha hp (hdone k rfl) rfl rfl rfl nofun)
    | finish => exact .next (schedule_sequenced (us := []) ha nofun hm rfl rfl rfl nofun)
    | handOver => exact .next ((sequenced_nil_iff (s := { s with phase := .awaitFrame, handed := true }) ha).mpr ⟨hm, rfl⟩)

end

/-- A call begins with the frame type as its one position (R291). -/
theorem start_sequenced {s t : State} {bytes : List Byte} (h : exec (.decodeFrame (.start bytes)) s = .next t) :
    t.sequenced = true := by
  dsimp only [exec, execDecodeFrame, beginCall] at h
  split at h <;> cases h
  exact (sequenced_concat_iff (us := []) rfl).mpr ⟨Nat.zero_le _, nofun, rfl, rfl, rfl, nofun⟩

/-! ## The invariant is kept (R21, R23, R27, R28, R31, R120, R253, R314) -/

/-- Running the decoded head of an agenda in order leaves it in order. -/
theorem run_sequenced {s t : State} {x : Sys2Proof.Task} {rest : List Sys2Proof.Task} {i : Instr}
    (hcfg : s.cfg.wellFormed = true) (h : s.sequenced = true) (ha : s.agenda = x :: rest)
    (hd : decode s.ctx s.cursor x = .instr i) (he : exec i { s with agenda := rest } = .next t) :
    t.sequenced = true := by
  obtain ⟨hp, hl, hframe, hbelow⟩ := sequenced_cons h ha
  have hm : s.mbi ≤ s.mbTotal := mbi_le_of_sequenced h
  have hlevel : frameLevel i = frameTask x := frameLevel_of_decode hl hd
  cases hx : frameTask x with
  | false =>
    obtain ⟨hne, hseq⟩ := hbelow hx
    exact (exec_follows i _ (hlevel.trans hx) t he).sequenced (position_not_written i) hcfg hseq hne
  | true =>
    obtain ⟨rfl, hends⟩ := hframe hx
    refine frameLevel_sequenced (s := { s with agenda := [] }) rfl hp hm (hlevel.trans hx)
      (fun bytes e => ?_) (fun k e => ?_) t he
    · subst e
      cases op_of_decode rfl hd
      cases hl
    · subst e
      cases op_of_decode rfl hd
      exact hends rfl

/-- Settles O54: by what a step can do, with every part of the invariant kept by its own lemma. -/
theorem everyStepKeepsTheInvariant : Obligations.EveryStepKeepsTheInvariant := by
  intro s t h hstep
  obtain ⟨hregs, hseq⟩ := s.inv_iff.mp h
  rw [State.inv_iff]
  rcases step_next_cases hstep with ⟨x, rest, i, ha, hd, he⟩ | ⟨x, rest, e, c, ha, hd, rfl⟩ | ⟨bytes, rest, ha, hp, -, he⟩
    | ⟨-, rfl⟩
  case inl =>
    obtain ⟨-, hl, -, -⟩ := sequenced_cons hseq ha
    have hregs' : State.RegistersOk { s with agenda := rest } := { hregs with }
    refine ⟨exec_registersOk hregs' (fun q e => ?_) he, run_sequenced hregs.cfg hseq ha hd he⟩
    subst e
    exact qpInRange_of_decode hl hd
  case inr.inl =>
    have forward : s.cursor.Forward s.cfg c := decode_trap_forward hd
    exact ⟨{ hregs with cursor := forward.ok hregs.cursor }, raise_sequenced (mbi_le_of_sequenced hseq) e⟩
  case inr.inr.inl =>
    have hregs' : State.RegistersOk { s with calls := rest } := { hregs with }
    exact ⟨exec_registersOk hregs' (fun _ e => by cases e) he, start_sequenced he⟩
  case inr.inr.inr => exact ⟨hregs, hseq⟩

/-- Settles O55: at reset every register holds its reset value and the agenda is empty; a submitted call touches nothing the
invariant reads. -/
theorem invariantAtReset : Obligations.InvariantAtReset := by
  refine ⟨State.reset.inv_iff.mpr ⟨?registers, ?position⟩, fun s bytes h => h⟩
  case registers =>
    exact {
      cfg := Config.constructed_wellFormed
      cursor := Cursor.start_ok _ _
      ring := rfl
      mvc := mvcOk_cleared _ rfl
      pre := preOk_cleared _ rfl
      qp := rfl
      shifts := rfl }
  case position => exact (sequenced_nil_iff rfl).mpr ⟨Nat.zero_le _, rfl⟩

end Machine

end Sys2Proof
end

section
/-! SUPPORT. Packing bits into `IN`: a refill unit's bytes give its value back (R68), a bit string is the bits of its
numeral (R9), and `STREAM` (R120) is read off `IN` one unit at a time. -/

namespace Sys2Proof

/-! ## A bit string and its numeral (R9) -/

theorem numeral_concat (bs : List Bool) (b : Bool) : numeral (bs ++ [b]) = 2 * numeral bs + b.toNat := by
  simp [numeral]

/-- Writing out the numeral of a bit string gives the string back. -/
theorem bitsOf_numeral (bs : List Bool) : bitsOf bs.length (numeral bs) = bs := by
  induction bs using List.reverseRecOn with
  | nil => rfl
  | append_singleton bs b ih =>
    have hbit : bitsOf 1 b.toNat = [b] := by cases b <;> rfl
    have happ := bitsOf_append bs.length 1 (numeral bs) b.toNat b.toNat_lt
    rw [List.length_append, List.length_singleton, numeral_concat]
    rwa [pow_one, ih, hbit] at happ

theorem numeral_lt (bs : List Bool) : numeral bs < 2 ^ bs.length := by
  induction bs using List.reverseRecOn with
  | nil => exact Nat.one_pos
  | append_singleton bs b ih =>
    have hb := b.toNat_lt
    rw [numeral_concat, List.length_append, List.length_singleton, pow_succ]
    omega

/-! ## A refill unit and its bytes (R68) -/

@[simp] theorem length_unitBytes (e : Endian) (k u : Nat) : (unitBytes e k u).length = k := by
  cases e <;> simp [unitBytes]

/-- A big-endian unit is read as the little-endian unit of the reversed bytes. -/
theorem unitValue_big_reverse (bs : List Byte) : unitValue .big bs.reverse = unitValue .little bs := by
  simp [unitValue, Nat.add_comm]

/-- The low `k` bytes of `u`, lowest first, have the value of `u` in base 256 cut to `k` digits. -/
theorem unitValue_little_unitBytes (k : Nat) : ∀ u, unitValue .little (unitBytes .little k u) = u % 256 ^ k := by
  induction k with
  | zero => intro u; simp [unitBytes, unitValue, Nat.mod_one]
  | succ k ih =>
    intro u
    have hcons : unitBytes .little (k + 1) u = BitVec.ofNat 8 u :: unitBytes .little k (u / 256) := by
      simp [unitBytes, List.range_succ_eq_map, Nat.div_div_eq_div_mul, pow_succ']
    have hvalue : unitValue .little (unitBytes .little (k + 1) u)
        = u % 256 + 256 * unitValue .little (unitBytes .little k (u / 256)) := by
      rw [hcons]
      rfl
    rw [hvalue, ih, pow_succ', Nat.mod_mul]

/-- A unit's bytes have the value they were made from, in either byte order. -/
theorem unitValue_unitBytes (e : Endian) {k u : Nat} (hu : u < 2 ^ (8 * k)) : unitValue e (unitBytes e k u) = u := by
  have hlittle : unitValue .little (unitBytes .little k u) = u := by
    rw [unitValue_little_unitBytes, Nat.mod_eq_of_lt]
    rwa [pow_mul] at hu
  cases e with
  | little => exact hlittle
  | big => exact (unitValue_big_reverse (unitBytes .little k u)).trans hlittle

/-! ## `STREAM`, one unit at a time (R120) -/

@[simp] theorem streamOf_nil (cfg : Config) : streamOf cfg [] = [] := by simp [streamOf]

theorem streamOf_unit_append (cfg : Config) {unit : List Byte} (rest : List Byte)
    (h : unit.length = cfg.blockBits.bytes) :
    streamOf cfg (unit ++ rest) = bitsOf cfg.blockBits.bits (unitValue cfg.unitEndian unit) ++ streamOf cfg rest := by
  have hunits : (unit ++ rest).length / cfg.blockBits.bytes = rest.length / cfg.blockBits.bytes + 1 := by
    rw [List.length_append, h, Nat.add_div_left _ cfg.blockBits.bytes_pos]
  have hlater (j : Nat) : (unit ++ rest).drop ((j + 1) * cfg.blockBits.bytes) = rest.drop (j * cfg.blockBits.bytes) := by
    rw [Nat.succ_mul, Nat.add_comm, ← h, List.drop_length_add_append]
  simp only [streamOf, hunits, List.range_succ_eq_map, List.flatMap_cons, List.flatMap_map, Nat.succ_eq_add_one, hlater]
  rw [Nat.zero_mul, List.drop_zero, List.take_left' h]

/-- A unit packed from `BLOCK_BITS` bits puts exactly those bits at the front of `STREAM`. -/
theorem streamOf_packedUnit_append (cfg : Config) {bits : List Bool} (rest : List Byte)
    (h : bits.length = cfg.blockBits.bits) :
    streamOf cfg (unitBytes cfg.unitEndian cfg.blockBits.bytes (numeral bits) ++ rest) = bits ++ streamOf cfg rest := by
  have hlt : numeral bits < 2 ^ (8 * cfg.blockBits.bytes) := by
    rw [← cfg.blockBits.bits_eq, ← h]
    exact numeral_lt bits
  rw [streamOf_unit_append cfg rest (length_unitBytes _ _ _), unitValue_unitBytes _ hlt, ← h, bitsOf_numeral]

/-! ## Packing (R101) -/

/-- `STREAM` of packed units is the bit string and the padding of its last unit, when there are units enough for it. -/
theorem streamOf_packUnits (cfg : Config) (more : Nat) : ∀ bs : List Bool, bs.length ≤ more →
    ∃ k < cfg.blockBits.bits, streamOf cfg (packUnits cfg more bs) = bs ++ List.replicate k false := by
  have hbits : 0 < cfg.blockBits.bits := by
    have := cfg.blockBits.bits_eq
    have := cfg.blockBits.bytes_pos
    omega
  have hnil : ∃ k < cfg.blockBits.bits, streamOf cfg [] = [] ++ List.replicate k false := ⟨0, hbits, by simp⟩
  induction more with
  | zero =>
    intro bs hlen
    cases List.length_eq_zero_iff.mp (Nat.le_zero.mp hlen)
    exact hnil
  | succ more ih =>
    intro bs hlen
    rcases eq_or_ne bs [] with rfl | hne
    case inl => exact hnil
    have hpos : 0 < bs.length := List.length_pos_iff.mpr hne
    have hcons : streamOf cfg (packUnits cfg (more + 1) bs)
        = bs.take cfg.blockBits.bits
          ++ List.replicate (cfg.blockBits.bits - (bs.take cfg.blockBits.bits).length) false
          ++ streamOf cfg (packUnits cfg more (bs.drop cfg.blockBits.bits)) := by
      rw [packUnits, if_neg (by simpa using hne)]
      exact streamOf_packedUnit_append cfg _ (by simp)
    rw [hcons]
    rcases Nat.le_total cfg.blockBits.bits bs.length with hfull | hlast
    · obtain ⟨k, hk, hrest⟩ := ih (bs.drop cfg.blockBits.bits) (by simp; omega)
      refine ⟨k, hk, ?_⟩
      rw [hrest, List.length_take_of_le hfull, Nat.sub_self, List.replicate_zero, List.append_nil, ← List.append_assoc,
        List.take_append_drop]
    · refine ⟨cfg.blockBits.bits - bs.length, by omega, ?_⟩
      have hdone : packUnits cfg more [] = [] := by cases more <;> rfl
      rw [List.take_of_length_le hlast, List.drop_of_length_le hlast, hdone, streamOf_nil, List.append_nil]

/-- Settles O4: `pack` allows one unit per bit, which is enough. -/
theorem packedBitsAreTheStream : Obligations.PackedBitsAreTheStream :=
  fun cfg bs => streamOf_packUnits cfg bs.length bs le_rfl

end Sys2Proof
end

section
/-! SUPPORT. What a read operation delivers (40_bitcursor.md, 30_encoding.md R90): with the code of a value at the cursor,
the operation returns that value and leaves the cursor right after the code. -/

namespace Sys2Proof

/-! ## Numerals (R9) -/

theorem numeral_cons (b : Bool) (bs : List Bool) : numeral (b :: bs) = 2 ^ bs.length * b.toNat + numeral bs := by
  induction bs using List.reverseRecOn with
  | nil => cases b <;> rfl
  | append_singleton bs d ih =>
    rw [← List.cons_append, numeral_concat, numeral_concat, ih, List.length_append, List.length_singleton, pow_succ]
    ring

/-- The numeral of `n` bits is the number's low `n` bits. -/
theorem numeral_bitsOf (n v : Nat) : numeral (bitsOf n v) = v % 2 ^ n := by
  induction n with
  | zero => simp [bitsOf, numeral, Nat.mod_one]
  | succ n ih => rw [bitsOf, numeral_cons, length_bitsOf, ih, Nat.mod_pow_succ, Nat.toNat_testBit, Nat.add_comm]

/-- The first bits of a numeral. -/
theorem take_bitsOf {k n : Nat} (h : k ≤ n) (v : Nat) : (bitsOf n v).take k = bitsOf k (v >>> (n - k)) := by
  have hsplit : bitsOf (k + (n - k)) v = bitsOf k (v >>> (n - k)) ++ bitsOf (n - k) (v % 2 ^ (n - k)) := by
    rw [← bitsOf_append _ _ _ _ (Nat.mod_lt _ (by positivity)), Nat.shiftRight_eq_div_pow, Nat.div_add_mod]
  rw [Nat.add_sub_cancel' h] at hsplit
  rw [hsplit, List.take_left' (length_bitsOf _ _)]

/-- `sext` is the two's-complement reading (R8). -/
theorem sext_toNat {n : Nat} (b : BitVec n) : sext n b.toNat = b.toInt := by
  rw [sext, BitVec.toInt_eq_msb_cond, BitVec.msb_eq_getLsbD_last, BitVec.getLsbD]
  push_cast
  rfl

/-! ## Reading a code -/

/-- `c'` stands right after the bits `bs` read from `c`: same input, `BITPOS` advanced by their number (R22), in order. -/
structure Cursor.Past (cfg : Config) (bs : List Bool) (c c' : Cursor) : Prop where
  input : c'.input = c.input
  bitpos : c'.bitpos = c.bitpos + bs.length
  ok : c'.ok cfg = true

/-- Where the bits `bs` are next, the read operation `r` returns `v` and consumes exactly them. -/
def ReadsCode (cfg : Config) {α : Type} (r : Cursor → ReadOut α) (bs : List Bool) (v : α) : Prop :=
  ∀ c : Cursor, c.ok cfg = true → bs <+: c.ahead cfg → ∃ c', r c = .ok v c' ∧ Cursor.Past cfg bs c c'

section
variable {cfg : Config} {c c' : Cursor} {bs : List Bool}

theorem Cursor.Past.ahead (h : Cursor.Past cfg bs c c') : c'.ahead cfg = (c.ahead cfg).drop bs.length := by
  rw [Cursor.ahead, Cursor.ahead, h.input, h.bitpos, List.drop_drop]

theorem Cursor.Past.append {bs' : List Bool} {c'' : Cursor} (h : Cursor.Past cfg bs c c')
    (k : Cursor.Past cfg bs' c' c'') : Cursor.Past cfg (bs ++ bs') c c'' :=
  ⟨k.input.trans h.input, by rw [k.bitpos, h.bitpos, List.length_append, Nat.add_assoc], k.ok⟩

variable {α β γ : Type} {r : Cursor → ReadOut α} {v : α}

/-- With two codes next, a read takes the first and the second is next. -/
theorem ReadsCode.next_code {bs' : List Bool} (hr : ReadsCode cfg r bs v) (hok : c.ok cfg = true)
    (hpre : bs ++ bs' <+: c.ahead cfg) : ∃ c', r c = .ok v c' ∧ Cursor.Past cfg bs c c' ∧ bs' <+: c'.ahead cfg := by
  obtain ⟨rest, hrest⟩ := hpre
  obtain ⟨c', hc', hpast⟩ := hr c hok ⟨bs' ++ rest, by rw [← hrest, List.append_assoc]⟩
  exact ⟨c', hc', hpast, rest, by rw [hpast.ahead, ← hrest, List.append_assoc, List.drop_left]⟩

/-- Two reads in sequence: `s` is `r`, then `k`. -/
theorem ReadsCode.andThen {k : Cursor → ReadOut β} {s : Cursor → ReadOut γ} {bs' : List Bool} {w : β} {u : γ}
    (hr : ReadsCode cfg r bs v) (hk : ReadsCode cfg k bs' w)
    (hs : ∀ c c' c'', r c = .ok v c' → k c' = .ok w c'' → s c = .ok u c'') : ReadsCode cfg s (bs ++ bs') u := by
  intro c hok hpre
  obtain ⟨c', hc', hpast, hnext⟩ := hr.next_code hok hpre
  obtain ⟨c'', hc'', hpast'⟩ := hk c' hpast.ok hnext
  exact ⟨c'', hs c c' c'' hc' hc'', hpast.append hpast'⟩

/-- A read whose value is made of the value of another. -/
theorem ReadsCode.of_value {s : Cursor → ReadOut β} {w : β} (hr : ReadsCode cfg r bs v)
    (hs : ∀ c c', r c = .ok v c' → s c = .ok w c') : ReadsCode cfg s bs w := by
  intro c hok hpre
  obtain ⟨c', hc', hpast⟩ := hr c hok hpre
  exact ⟨c', hs c c' hc', hpast⟩

/-- A read operation takes one code only: of two that stand at the cursor, both are the same. -/
theorem ReadsCode.unique {bs' : List Bool} {v' : α} (hr : ReadsCode cfg r bs v) (hr' : ReadsCode cfg r bs' v')
    (hok : c.ok cfg = true) (hpre : bs <+: c.ahead cfg) (hpre' : bs' <+: c.ahead cfg) : bs = bs' ∧ v = v' := by
  obtain ⟨d, hd, hpast⟩ := hr c hok hpre
  obtain ⟨d', hd', hpast'⟩ := hr' c hok hpre'
  cases hd.symm.trans hd'
  have hlen : bs.length = bs'.length := Nat.add_left_cancel (hpast.bitpos.symm.trans hpast'.bitpos)
  exact ⟨(List.prefix_of_prefix_length_le hpre hpre' hlen.le).eq_of_length hlen, rfl⟩

theorem ReadsCode.decoded (hr : ReadsCode cfg r bs v) (hok : c.ok cfg = true) (hpre : bs <+: c.ahead cfg)
    (f : α → Instr) : (r c).decoded f = .instr (f v) := by
  obtain ⟨c', hc', -⟩ := hr c hok hpre
  rw [hc']
  rfl

end

/-! ## `Read(n)` (R122) -/

/-- A refill fails only when every bit of `STREAM` ahead is buffered already (R121). -/
theorem Cursor.ahead_le_of_refill_err {cfg : Config} {c c' : Cursor} {e : ErrorKind} (hok : c.ok cfg = true)
    (h : c.refill cfg = .err e c') : (c.ahead cfg).length ≤ c.nbits := by
  obtain ⟨hpos, -, hunit, -⟩ := (c.ok_iff cfg).mp hok
  obtain ⟨-, -, hshort⟩ := c.refill_err cfg c' e h
  have hbits := cfg.blockBits.bits_eq
  obtain ⟨j, hj⟩ := Nat.dvd_of_mod_eq_zero hunit
  have hunits : c.input.length / cfg.blockBits.bytes ≤ j := by
    rw [← Nat.lt_succ_iff, Nat.div_lt_iff_lt_mul cfg.blockBits.bytes_pos, Nat.succ_mul, Nat.mul_comm j, ← hj]
    exact hshort
  have hstream : (streamOf cfg c.input).length ≤ 8 * c.bytepos := by
    rw [length_streamOf, hbits, hj]
    calc c.input.length / cfg.blockBits.bytes * (8 * cfg.blockBits.bytes) ≤ j * (8 * cfg.blockBits.bytes) :=
          Nat.mul_le_mul_right _ hunits
      _ = 8 * (cfg.blockBits.bytes * j) := by ring
  rw [Cursor.ahead, List.length_drop]
  omega

/-- With `n` bits of `STREAM` ahead the filling loop succeeds. -/
theorem Cursor.fill_succeeds (cfg : Config) (n : Nat) (hn : n ≤ 32) : ∀ (k : Nat) (c : Cursor), c.ok cfg = true →
    n ≤ (c.ahead cfg).length → ∃ c', c.fill cfg n k = .ok () c'
  | 0, c, _, _ => ⟨c, rfl⟩
  | k + 1, c, hok, hlen => by
    by_cases hlt : c.nbits < n
    · simp only [Cursor.fill, if_pos hlt]
      cases hr : c.refill cfg with
      | err e d =>
        have := Cursor.ahead_le_of_refill_err hok hr
        omega
      | ok u d =>
        obtain ⟨hd, hin, hpos, -⟩ := c.refill_ok cfg d hok (by omega) hr
        exact Cursor.fill_succeeds cfg n hn k d hd (by rwa [Cursor.ahead, hin, hpos])
    · exact ⟨c, by simp only [Cursor.fill, if_neg hlt]⟩

/-- `Read(n)` returns the number whose numeral the next `n` bits are. -/
theorem Cursor.read_reads (cfg : Config) (bs : List Bool) (hn : bs.length ≤ 32) :
    ReadsCode cfg (Cursor.read cfg bs.length) bs (numeral bs) := by
  intro c hok hpre
  obtain ⟨d, hd⟩ := Cursor.fill_succeeds cfg bs.length hn bs.length c hok hpre.length_le
  obtain ⟨hdok, hin, hpos⟩ := Cursor.fill_keeps cfg bs.length hn bs.length c hok d (.inl hd)
  have hbuf : bs.length ≤ d.nbits := Cursor.fill_nbits cfg bs.length bs.length c d (by omega) hd
  have hbits : bitsOf bs.length (d.acc.toNat >>> (d.nbits - bs.length)) = bs := by
    obtain ⟨-, -, -, -, -, hacc⟩ := (d.ok_iff cfg).mp hdok
    rw [← take_bitsOf hbuf, hacc, List.take_take, Nat.min_eq_left hbuf, Cursor.ahead, hin, hpos]
    exact (List.prefix_iff_eq_take.mp hpre).symm
  have hvalue : d.acc.toNat >>> (d.nbits - bs.length) % 2 ^ bs.length = numeral bs := by rw [← numeral_bitsOf, hbits]
  refine ⟨_, by simp only [Cursor.read, hd, hvalue]; rfl, ?_⟩
  exact ⟨hin, congrArg (· + bs.length) hpos, Cursor.ok_deliver hdok hbuf⟩

/-- `Read(n)` succeeds only where `n` bits are ahead. -/
theorem Cursor.le_ahead_of_read {cfg : Config} {n v : Nat} {c c' : Cursor} (hn : n ≤ 32) (hok : c.ok cfg = true)
    (h : c.read cfg n = .ok v c') : n ≤ (c.ahead cfg).length := by
  simp only [Cursor.read] at h
  cases hf : c.fill cfg n n with
  | err e d => simp [hf] at h
  | ok u d =>
    obtain ⟨hdok, hin, hpos⟩ := Cursor.fill_keeps cfg n hn n c hok d (.inl hf)
    obtain ⟨-, -, -, -, -, hacc⟩ := (d.ok_iff cfg).mp hdok
    have hbuf : n ≤ d.nbits := Cursor.fill_nbits cfg n n c d (by omega) hf
    have hlen := congrArg List.length hacc
    rw [length_bitsOf, List.length_take, Cursor.ahead, hin, hpos, ← Cursor.ahead] at hlen
    omega

/-- `startsWith` says which bits are next. -/
theorem Cursor.startsWith_iff {cfg : Config} {c : Cursor} {bs : List Bool} (hn : bs.length ≤ 32) (hok : c.ok cfg = true) :
    c.startsWith cfg bs = true ↔ bs <+: c.ahead cfg := by
  constructor
  · intro h
    simp only [Cursor.startsWith] at h
    split at h
    · rename_i v c' hv
      have hlen : ((c.ahead cfg).take bs.length).length = bs.length :=
        List.length_take_of_le (Cursor.le_ahead_of_read hn hok hv)
      have hr := Cursor.read_reads cfg ((c.ahead cfg).take bs.length) (hlen.trans_le hn)
      obtain ⟨d, hd, -⟩ := hr c hok (List.take_prefix _ _)
      rw [hlen, hv] at hd
      cases hd
      have hbits := bitsOf_numeral ((c.ahead cfg).take bs.length)
      rw [hlen, beq_iff_eq.mp h, bitsOf_numeral] at hbits
      exact hbits ▸ List.take_prefix _ _
    · cases h
  · intro h
    obtain ⟨c', hc', -⟩ := Cursor.read_reads cfg bs hn c hok h
    simp only [Cursor.startsWith, hc', beq_self_eq_true]

theorem Cursor.read_reads_bitsOf (cfg : Config) {n : Nat} (hn : n ≤ 32) (v : Nat) :
    ReadsCode cfg (Cursor.read cfg n) (bitsOf n v) (v % 2 ^ n) := by
  have hr := Cursor.read_reads cfg (bitsOf n v) (by rwa [length_bitsOf])
  rwa [length_bitsOf, numeral_bitsOf] at hr

/-! ## The reads made of it (R123 to R127) -/

theorem Cursor.readSigned_reads (cfg : Config) {n : Nat} (hn : n ≤ 32) (v : Nat) :
    ReadsCode cfg (Cursor.readSigned cfg n) (bitsOf n v) (BitVec.ofNat n v).toInt :=
  (Cursor.read_reads_bitsOf cfg hn v).of_value fun c c' h => by
    simp only [Cursor.readSigned, h, ← sext_toNat, BitVec.toNat_ofNat]

theorem Cursor.readBool_reads (cfg : Config) (b : Bool) : ReadsCode cfg (Cursor.readBool cfg) [b] b :=
  (Cursor.read_reads cfg [b] (by simp)).of_value fun c c' h => by
    have hb : (numeral [b] == 1) = b := by cases b <;> rfl
    rw [List.length_singleton] at h
    simp only [Cursor.readBool, h, hb]

/-- `z` zeros and a 1 are counted as `z` (R125). -/
theorem Cursor.gammaZeros_reads (cfg : Config) : ∀ (z more k : Nat), z < more →
    ReadsCode cfg (Cursor.gammaZeros cfg more k) (List.replicate z false ++ [true]) (k + z)
  | 0, more + 1, k, _ =>
    (Cursor.readBool_reads cfg true).of_value fun c c' h => by simp only [Cursor.gammaZeros, h, Nat.add_zero]
  | z + 1, more + 1, k, hz => by
    have hrest := Cursor.gammaZeros_reads cfg z more (k + 1) (by omega)
    rw [show k + 1 + z = k + (z + 1) by omega] at hrest
    exact (Cursor.readBool_reads cfg false).andThen hrest fun c c' c'' h h' => by
      simp only [Cursor.gammaZeros, h, h']

/-- The code of format `G` with its leading 1 written out (R90). -/
theorem gammaBits_eq {g : Nat} (hg : g ≠ 0) :
    gammaBits g = List.replicate g.log2 false ++ [true] ++ bitsOf g.log2 g := by
  rw [gammaBits, bitsOf, Nat.testBit_log2 hg, List.append_assoc, List.singleton_append]

/-- A number is its leading 1 and the bits below it. -/
theorem two_pow_log2_add_mod {g : Nat} (hg : g ≠ 0) : 2 ^ g.log2 + g % 2 ^ g.log2 = g := by
  have hlow : 2 ^ g.log2 ≤ g := Nat.log2_self_le hg
  have hhigh : g < 2 ^ g.log2 * 2 := by rw [← pow_succ]; exact Nat.lt_log2_self
  have hquot : g / 2 ^ g.log2 = 1 := Nat.div_eq_of_lt_le (by omega) (by omega)
  have hdiv := Nat.div_add_mod g (2 ^ g.log2)
  rwa [hquot, Nat.mul_one] at hdiv

theorem Cursor.readGamma_reads (cfg : Config) {g : Nat} (hg : g ≠ 0) (hlt : g < 2 ^ 31) :
    ReadsCode cfg (Cursor.readGamma cfg) (gammaBits g) g := by
  have hk : g.log2 < 31 := (Nat.log2_lt hg).mpr hlt
  have hzeros := Cursor.gammaZeros_reads cfg g.log2 31 0 hk
  have hlow := Cursor.read_reads_bitsOf cfg (n := g.log2) (by omega) g
  have hvalue := two_pow_log2_add_mod hg
  rw [gammaBits_eq hg]
  generalize g.log2 = k at *
  rw [Nat.zero_add] at hzeros
  cases k with
  | zero =>
    rw [bitsOf, List.append_nil]
    exact hzeros.of_value fun c c' h => by
      simp only [Cursor.readGamma, h]
      rw [← hvalue, pow_zero, Nat.mod_one]
  | succ k =>
    exact hzeros.andThen hlow fun c c' c'' h h' => by simp only [Cursor.readGamma, h, h', hvalue]

theorem Cursor.readUE_reads (cfg : Config) {u : Nat} (hu : ueValue u = true) :
    ReadsCode cfg (Cursor.readUE cfg) (ueBits u) u :=
  (Cursor.readGamma_reads cfg u.succ_ne_zero (of_decide_eq_true hu)).of_value fun c c' h => by
    simp only [Cursor.readUE, h, Nat.succ_sub_one]

/-- R127's map undoes the encoder's. -/
theorem seOfUE_ueOfSE (d : Int) : seOfUE (ueOfSE d) = d := by
  unfold seOfUE ueOfSE
  split <;> split <;> omega

theorem ueValue_ueOfSE {d : Int} (hd : seValue d = true) : ueValue (ueOfSE d) = true := by
  simp only [seValue, Bool.and_eq_true, decide_eq_true_eq] at hd
  refine decide_eq_true ?_
  unfold ueOfSE
  split <;> omega

theorem Cursor.readSE_reads (cfg : Config) {d : Int} (hd : seValue d = true) :
    ReadsCode cfg (Cursor.readSE cfg) (seBits d) d :=
  (Cursor.readUE_reads cfg (ueValue_ueOfSE hd)).of_value fun c c' h => by
    simp only [Cursor.readSE, h, seOfUE_ueOfSE]

/-! ## Huffman trees (R146) -/

/-- The leaves of a node are those of its two sides, one bit further down. -/
theorem HuffTree.mem_leaves_node {l r : HuffTree} {bs : List Bool} {v : Nat} : (bs, v) ∈ (HuffTree.node l r).leaves ↔
    (∃ bs', bs = false :: bs' ∧ (bs', v) ∈ l.leaves) ∨ ∃ bs', bs = true :: bs' ∧ (bs', v) ∈ r.leaves := by
  simp only [HuffTree.leaves, List.mem_append, List.mem_map, Prod.mk.injEq, Prod.exists]
  grind

/-- `valueAt` looks a codeword up among the leaves. -/
theorem HuffTree.valueAt_eq_some_iff {v : Nat} : ∀ (t : HuffTree) (bs : List Bool),
    t.valueAt bs = some v ↔ (bs, v) ∈ t.leaves
  | .absent, _ => by simp [HuffTree.valueAt, HuffTree.leaves]
  | .leaf w, [] => by simp [HuffTree.valueAt, HuffTree.leaves, eq_comm]
  | .leaf w, _ :: _ => by simp [HuffTree.valueAt, HuffTree.leaves]
  | .node l r, [] => by simp [HuffTree.valueAt, HuffTree.mem_leaves_node]
  | .node l r, false :: bs => by simp [HuffTree.valueAt, HuffTree.mem_leaves_node, valueAt_eq_some_iff l bs]
  | .node l r, true :: bs => by simp [HuffTree.valueAt, HuffTree.mem_leaves_node, valueAt_eq_some_iff r bs]

/-- The walk along a leaf's codeword returns its value, when the depth limit admits the tree. -/
theorem Cursor.walk_reads (cfg : Config) (limit : Option Nat) {v : Nat} : ∀ (t : HuffTree) (d : Nat) (bs : List Bool),
    (∀ m, limit = some m → d + t.depth ≤ m) → (bs, v) ∈ t.leaves →
      ReadsCode cfg (fun c => c.walk cfg limit t d) bs v
  | .absent, _, _, _, h => by cases h
  | .leaf w, _, _, _, h => by
    cases List.mem_singleton.mp h
    exact fun c hok _ => ⟨c, rfl, rfl, rfl, hok⟩
  | .node l r, d, bs, hlimit, h => by
    have hinner : limit ≠ some d := fun e => by
      have := hlimit d e
      simp only [HuffTree.depth] at this
      omega
    have hbelow (m : Nat) (e : limit = some m) : d + 1 + l.depth ≤ m ∧ d + 1 + r.depth ≤ m := by
      have := hlimit m e
      simp only [HuffTree.depth] at this
      omega
    rcases HuffTree.mem_leaves_node.mp h with ⟨bs', rfl, hmem⟩ | ⟨bs', rfl, hmem⟩
    · have hl := Cursor.walk_reads cfg limit l (d + 1) bs' (fun m e => (hbelow m e).1) hmem
      exact (Cursor.readBool_reads cfg false).andThen hl fun c c' c'' hb h => by
        simp only [Cursor.walk, if_neg hinner, hb, h]
    · have hr := Cursor.walk_reads cfg limit r (d + 1) bs' (fun m e => (hbelow m e).2) hmem
      exact (Cursor.readBool_reads cfg true).andThen hr fun c c' c'' hb h => by
        simp only [Cursor.walk, if_neg hinner, hb, h]

/-- A ROM that can be built admits its longest codeword (R145). -/
theorem HuffRom.depth_le_limit {bound : Nat} {r : HuffRom} (hr : r.wellFormed bound = true) {m : Nat}
    (hm : r.limit = some m) : r.tree.depth ≤ m := by
  simp only [HuffRom.wellFormed, hm, Bool.and_eq_true, decide_eq_true_eq] at hr
  obtain ⟨-, -, hdepth⟩ := hr
  exact hdepth

/-- `HuffDecode` returns the value of the leaf whose codeword is next (R146, R147). -/
theorem Cursor.huff_reads (cfg : Config) {bound : Nat} {r : HuffRom} (hr : r.wellFormed bound = true) {bs : List Bool}
    {v : Nat} (h : (bs, v) ∈ r.tree.leaves) : ReadsCode cfg (fun c => c.huff cfg r) bs v :=
  Cursor.walk_reads cfg r.limit r.tree 0 bs
    (fun _ hm => by rw [Nat.zero_add]; exact HuffRom.depth_le_limit hr hm) h

end Sys2Proof
end

section
/-! ## Decode and encode agree (R90, R92, R93, R94, R96) -/

namespace Sys2Proof

/-! ### ROMs of a legal configuration -/

/-- `codeOf` gives the codeword of an admitted leaf, if there is one. -/
theorem HuffTree.codeOf_mem {t : HuffTree} {keep : List Bool × Nat → Bool} (h : t.leaves.any keep = true) :
    ∃ v, (t.codeOf keep, v) ∈ t.leaves ∧ keep (t.codeOf keep, v) = true := by
  obtain ⟨p, hp⟩ := Option.isSome_iff_exists.mp (List.find?_isSome.mpr (List.any_eq_true.mp h))
  have hcode : t.codeOf keep = p.1 := by simp only [HuffTree.codeOf, hp]
  rw [hcode]
  exact ⟨p.2, List.mem_of_find?_eq_some hp, List.find?_some hp⟩

/-- Both residual trees can be built (R7). -/
theorem Config.res_wellFormed {cfg : Config} (h : cfg.wellFormed = true) (t : Bool) :
    (cfg.res t).huff.wellFormed 4096 = true := by
  simp only [Config.wellFormed, Bool.and_eq_true] at h
  cases t
  · show cfg.res0.huff.wellFormed 4096 = true
    tauto
  · show cfg.res1.huff.wellFormed 4096 = true
    tauto

/-- The motion-mode trees can be built (R7). -/
theorem Config.mvTree_wellFormed {cfg : Config} (h : cfg.wellFormed = true) {t : MvTree} (ht : t ∈ cfg.mvTrees) :
    t.plain.wellFormed 10 = true ∧ t.stereo.wellFormed 10 = true := by
  simp only [Config.wellFormed, Bool.and_eq_true] at h
  have hall : cfg.mvTrees.all (fun t => mvDimension t.w && mvDimension t.h && t.plain.wellFormed 10
      && t.stereo.wellFormed 10) = true := by tauto
  have hone := List.all_eq_true.mp hall t ht
  simp only [Bool.and_eq_true] at hone
  obtain ⟨⟨-, hplain⟩, hstereo⟩ := hone
  exact ⟨hplain, hstereo⟩

/-- Every tree the decoder names is one that can be built. -/
theorem DecodeCtx.rom_wellFormed {x : DecodeCtx} (hcfg : x.cfg.wellFormed = true) {t : TreeId} {r : HuffRom}
    (h : x.rom t = some r) : ∃ bound, r.wellFormed bound = true := by
  cases t with
  | res b =>
    cases h
    exact ⟨4096, Config.res_wellFormed hcfg b⟩
  | mv stereo w h' =>
    obtain ⟨m, hm, rfl⟩ := Option.map_eq_some_iff.mp h
    obtain ⟨hplain, hstereo⟩ := Config.mvTree_wellFormed hcfg (List.mem_of_find?_eq_some hm)
    exact ⟨10, by cases stereo; exacts [hplain, hstereo]⟩

/-- `MODE_CODE` has a code for every mode, and read backwards it gives the mode (R201). -/
theorem Config.getElem?_codeOf {cfg : Config} (h : cfg.wellFormed = true) (m : IntraMode) :
    cfg.modeCode[cfg.codeOf m]? = some m := by
  simp only [Config.wellFormed, Bool.and_eq_true, List.all_eq_true] at h
  have hall : ∀ m ∈ allModes, cfg.modeCode.contains m = true := by tauto
  exact List.getElem?_idxOf (List.contains_iff_mem.mp (hall m (by cases m <;> decide)))

/-! ### What the bits at a position decode to -/

/-- The code of a mode is dispatched to the mode's own instruction (R204). -/
theorem decode_predCode {x : DecodeCtx} {c : Cursor} (hcfg : x.cfg.wellFormed = true) (b : Block) (m : IntraMode) :
    decode x c (.predCode b (x.cfg.codeOf m)) = .instr (predInstr b m) := by
  simp only [decode, decodePredCode, Config.getElem?_codeOf hcfg m]

section
variable {x : DecodeCtx} {c : Cursor} (hcfg : x.cfg.wellFormed = true) (hok : c.ok x.cfg = true)
include hok

/-- An unsigned field of `n` bits. -/
theorem decoded_unsigned {n : Nat} (hn : n ≤ 32) (v : BitVec n) (f : BitVec n → Instr)
    (hpre : bitsOf n v.toNat <+: c.ahead x.cfg) :
    ((c.read x.cfg n).decoded fun u => f (BitVec.ofNat n u)) = .instr (f v) := by
  rw [(Cursor.read_reads_bitsOf x.cfg hn v.toNat).decoded hok hpre]
  simp

theorem decode_readF {n : Nat} {v : BitVec 32} (hwf : (Instr.readF n v).wellFormed x = true)
    (hpre : bitsOf n v.toNat <+: c.ahead x.cfg) : decode x c (.read (.f n)) = .instr (.readF n v) := by
  simp only [Instr.wellFormed, Bool.and_eq_true, decide_eq_true_eq] at hwf
  obtain ⟨⟨hpos, hn⟩, hlt⟩ := hwf
  have hwidth : ¬(n = 0 ∨ 32 < n) := by omega
  simp only [decode, decodePrimitive, if_neg hwidth]
  rw [(Cursor.read_reads_bitsOf x.cfg hn v.toNat).decoded hok hpre, Nat.mod_eq_of_lt hlt]
  simp

theorem decode_readS {n : Nat} {v : Word} (hwf : (Instr.readS n v).wellFormed x = true)
    (hpre : bitsOf n v.toNat <+: c.ahead x.cfg) : decode x c (.read (.s n)) = .instr (.readS n v) := by
  simp only [Instr.wellFormed, Bool.and_eq_true, decide_eq_true_eq, beq_iff_eq] at hwf
  obtain ⟨⟨hpos, hn⟩, hext⟩ := hwf
  have hwidth : ¬(n = 0 ∨ 32 < n) := by omega
  have hvalue : BitVec.ofInt 32 (BitVec.ofNat n v.toNat).toInt = v := by
    rw [BitVec.ofNat_toNat]
    exact hext
  simp only [decode, decodePrimitive, if_neg hwidth]
  rw [(Cursor.readSigned_reads x.cfg hn v.toNat).decoded hok hpre, hvalue]

theorem decode_rawamp {a : BitVec 12} (hpre : bitsOf 12 a.toNat <+: c.ahead x.cfg) :
    decode x c .rawamp = .instr (.rawamp a) := by
  simp only [decode]
  rw [(Cursor.readSigned_reads x.cfg (by decide) a.toNat).decoded hok hpre, BitVec.ofNat_toNat, BitVec.setWidth_eq,
    BitVec.ofInt_toInt]

theorem decode_ftype {b : Bool} (hpre : [b] <+: c.ahead x.cfg) :
    decode x c .ftype = .instr (if b = x.cfg.iframeBit then .ftypeI else .ftypeP) :=
  (Cursor.readBool_reads x.cfg b).decoded hok hpre _

theorem decode_partflag {p : Plane} {px py : Nat} {m : BlockMode} {f : Nat} (hf : ueValue f = true)
    (hpre : ueBits f <+: c.ahead x.cfg) : decode x c (.partflag p px py m) = .instr (partflagInstr p px py m f) :=
  (Cursor.readUE_reads x.cfg hf).decoded hok hpre _

theorem decode_mpmTaken {b : Block} (hpre : [true] <+: c.ahead x.cfg) : decode x c (.mpm b) = .instr (.mpmTaken b) := by
  obtain ⟨d, hd, -⟩ := Cursor.readBool_reads x.cfg true c hok hpre
  simp only [decode, decodeMpm, hd]

theorem decode_mpmRem {b : Block} {r : BitVec 3} (hpre : false :: bitsOf 3 r.toNat <+: c.ahead x.cfg) :
    decode x c (.mpm b) = .instr (.mpmRem b r) := by
  obtain ⟨d, hd, hpast, hrest⟩ := (Cursor.readBool_reads x.cfg false).next_code hok hpre
  simp only [decode, decodeMpm, hd]
  exact decoded_unsigned hpast.ok (by decide) r (.mpmRem b) hrest

theorem decode_ampEscape {n : TSize} (hamp : x.amp = 0) (hpre : [true] <+: c.ahead x.cfg) :
    decode x c (.form n) = .instr (.rsymAmpEsc .select n) := by
  obtain ⟨d, hd, -⟩ := Cursor.readBool_reads x.cfg true c hok hpre
  simp only [decode, decodeForm, hamp, ne_eq, not_true, if_false, hd]

/-- After a selector bit 0 the second one tells the run escape from the raw escape (R165, R166). -/
theorem decode_secondSelector {n : TSize} (b : Bool) (hamp : x.amp = 0) (hpre : [false, b] <+: c.ahead x.cfg) :
    decode x c (.form n) = .instr (if b then .rsymRunEsc .select n else .rsymRaw n) := by
  obtain ⟨d, hd, hpast, hrest⟩ := (Cursor.readBool_reads x.cfg false).next_code (bs' := [b]) hok hpre
  simp only [decode, decodeForm, hamp, ne_eq, not_true, if_false, hd]
  exact (Cursor.readBool_reads x.cfg b).decoded hpast.ok hrest _

/-- The bits at the cursor are a printed codeword of R147. -/
theorem Cursor.atPrinted_iff {bs : List Bool} {v : Nat} (hn : bs.length ≤ 32) : c.atPrinted x bs v = true ↔
    x.vlc = false ∧ (bs, v) ∈ x.cfg.res0.huff.tree.leaves ∧ bs <+: c.ahead x.cfg := by
  simp only [Cursor.atPrinted, Bool.and_eq_true, Bool.not_eq_true', beq_iff_eq, HuffTree.valueAt_eq_some_iff,
    Cursor.startsWith_iff hn hok, and_assoc]

theorem decode_hsymT0x000 (hleaf : x.hasLeaf (printedCode000, 0x000) = true)
    (hpre : printedCode000 <+: c.ahead x.cfg) : decode x c .hsym = .instr .hsymT0x000 := by
  simp only [DecodeCtx.hasLeaf, Bool.and_eq_true, Bool.not_eq_true', List.contains_iff_mem] at hleaf
  obtain ⟨hvlc, hmem⟩ := hleaf
  have hat := (Cursor.atPrinted_iff hok (by decide)).mpr ⟨hvlc, hmem, hpre⟩
  simp only [decode, decodeHsym, hat, if_true]

theorem decode_hsymT0x802 (hleaf : x.hasLeaf (printedCode802, 0x802) = true)
    (hpre : printedCode802 <+: c.ahead x.cfg) : decode x c .hsym = .instr .hsymT0x802 := by
  simp only [DecodeCtx.hasLeaf, Bool.and_eq_true, Bool.not_eq_true', List.contains_iff_mem] at hleaf
  obtain ⟨hvlc, hmem⟩ := hleaf
  have hat := (Cursor.atPrinted_iff hok (by decide)).mpr ⟨hvlc, hmem, hpre⟩
  have hnot : c.atPrinted x printedCode000 0x000 ≠ true := fun h => by
    obtain ⟨-, -, hpre'⟩ := (Cursor.atPrinted_iff hok (by decide)).mp h
    have hsame := List.prefix_of_prefix_length_le hpre' hpre (by decide)
    exact absurd hsame (by decide)
  simp only [decode, decodeHsym, if_neg hnot, hat, if_true]

include hcfg

/-- Where the codeword of a leaf of the table in force is next, a printed codeword is next only if it is that leaf's. -/
theorem eq_of_atPrinted {bs pbs : List Bool} {v pv : Nat} (hmem : (bs, v) ∈ (x.cfg.res x.vlc).huff.tree.leaves)
    (hpre : bs <+: c.ahead x.cfg) (hn : pbs.length ≤ 32) (h : c.atPrinted x pbs pv = true) :
    x.vlc = false ∧ (bs, v) = (pbs, pv) := by
  obtain ⟨hvlc, hmem', hpre'⟩ := (Cursor.atPrinted_iff hok hn).mp h
  have hwf := Config.res_wellFormed hcfg false
  rw [hvlc] at hmem
  obtain ⟨hbs, hv⟩ := (Cursor.huff_reads x.cfg hwf hmem).unique (Cursor.huff_reads x.cfg hwf hmem') hok hpre hpre'
  exact ⟨hvlc, Prod.ext hbs hv⟩

/-- A symbol's codeword other than the two printed ones: neither of those is at the cursor, as one codeword at most is. -/
theorem decode_hsym {n : BitVec 12} (hwf : x.symbolValue n = true) (hpre : encode x (.hsym n) <+: c.ahead x.cfg) :
    decode x c .hsym = .instr (.hsym n) := by
  obtain ⟨v, hmem, hkeep⟩ := HuffTree.codeOf_mem hwf
  simp only [encode] at hpre
  generalize HuffTree.codeOf _ _ = bs at hmem hkeep hpre
  simp only [Bool.and_eq_true, decide_eq_true_eq, Bool.not_eq_true'] at hkeep
  obtain ⟨hv, hprinted⟩ := hkeep
  have h000 : c.atPrinted x printedCode000 0x000 ≠ true := fun h => by
    obtain ⟨hvlc, hleaf⟩ := eq_of_atPrinted hcfg hok hmem hpre (by decide) h
    simp [DecodeCtx.printed, hvlc, hleaf] at hprinted
  have h802 : c.atPrinted x printedCode802 0x802 ≠ true := fun h => by
    obtain ⟨hvlc, hleaf⟩ := eq_of_atPrinted hcfg hok hmem hpre (by decide) h
    simp [DecodeCtx.printed, hvlc, hleaf] at hprinted
  have hsymbol : BitVec.ofNat 12 v = n := BitVec.eq_of_toNat_eq (by rw [BitVec.toNat_ofNat]; exact hv)
  simp only [decode, decodeHsym, if_neg h000, if_neg h802]
  rw [(Cursor.huff_reads x.cfg (Config.res_wellFormed hcfg x.vlc) hmem).decoded hok hpre, hsymbol]

/-- The codeword of a value of the tree `t` is read back as that value. -/
theorem decoded_codeword {t : TreeId} {v : Nat} (hv : x.leafValue t v = true) (hpre : x.codeword t v <+: c.ahead x.cfg) :
    ∃ r, x.rom t = some r ∧ ∀ f, (c.huff x.cfg r).decoded f = .instr (f v) := by
  cases hr : x.rom t with
  | none => simp [DecodeCtx.leafValue, hr] at hv
  | some r =>
    simp only [DecodeCtx.leafValue, hr] at hv
    simp only [DecodeCtx.codeword, hr] at hpre
    obtain ⟨w, hmem, hw⟩ := HuffTree.codeOf_mem hv
    obtain rfl : w = v := by simpa using hw
    obtain ⟨bound, hbound⟩ := DecodeCtx.rom_wellFormed hcfg hr
    exact ⟨r, rfl, (Cursor.huff_reads x.cfg hbound hmem).decoded hok hpre⟩

theorem decode_readH {t : TreeId} {v : Nat} (hv : x.leafValue t v = true) (hpre : x.codeword t v <+: c.ahead x.cfg) :
    decode x c (.read (.h t)) = .instr (.readH t v) := by
  obtain ⟨r, hr, hd⟩ := decoded_codeword hcfg hok hv hpre
  simp only [decode, decodePrimitive, hr, hd]

theorem decode_mvmode {r : Rect} {v : Nat} (hv : x.leafValue (.mv x.cfg.stereo r.w r.h) v = true)
    (hpre : x.codeword (.mv x.cfg.stereo r.w r.h) v <+: c.ahead x.cfg) :
    decode x c (.mvmode r) = .instr (.mvmode r v) := by
  obtain ⟨t, ht, hd⟩ := decoded_codeword hcfg hok hv hpre
  simp only [decode, decodeMvmode, ht, hd]

/-- At its position, the code of a well-formed instruction decodes to it. -/
theorem decode_encode {i : Instr} (hwf : i.wellFormed x = true) (hpre : encode x i <+: c.ahead x.cfg) :
    decode x c (i.task x) = .instr i := by
  cases i with
  | readF n v => exact decode_readF hok hwf hpre
  | readS n v => exact decode_readS hok hwf hpre
  | readB b | csbit b | vlcbit b | subflag b | sign b | rawend b =>
    exact (Cursor.readBool_reads x.cfg b).decoded hok hpre _
  | readG g =>
    simp only [Instr.wellFormed, Bool.and_eq_true, decide_eq_true_eq] at hwf
    obtain ⟨hpos, hlt⟩ := hwf
    exact (Cursor.readGamma_reads x.cfg (by omega) hlt).decoded hok hpre _
  | readUE u | cbpidx u => exact (Cursor.readUE_reads x.cfg hwf).decoded hok hpre _
  | readSE d | qpdelta d | dpdelta d | mvdx d | mvdy d => exact (Cursor.readSE_reads x.cfg hwf).decoded hok hpre _
  | readH t v => exact decode_readH hcfg hok hwf hpre
  | ftypeI => exact (decode_ftype hok hpre).trans (by rw [if_pos rfl])
  | ftypeP => exact (decode_ftype hok hpre).trans (by rw [if_neg (by simp)])
  | qp6 v | mode3 v | cmode3 v | rawrun v => exact decoded_unsigned hok (by decide) v _ hpre
  | partflag8x8 => exact decode_partflag hok (by decide) hpre
  | partflag4x4 p px py m f =>
    simp only [Instr.wellFormed, Bool.and_eq_true, decide_eq_true_eq] at hwf
    obtain ⟨⟨-, hpos⟩, hf⟩ := hwf
    cases f with
    | zero => omega
    | succ f => exact decode_partflag hok hf hpre
  | mpmTaken b => exact decode_mpmTaken hok hpre
  | mpmRem b r => exact decode_mpmRem hok hpre
  | predV b | predH b | predPlane b | predDC b | predHU b | predHD b | predVR b | predDDR b | predVL b =>
    exact decode_predCode hcfg b _
  | hsym n => exact decode_hsym hcfg hok hwf hpre
  | hsymT0x000 => exact decode_hsymT0x000 hok hwf hpre
  | hsymT0x802 => exact decode_hsymT0x802 hok hwf hpre
  | rsymDirect n => exact if_pos (bne_iff_ne.mp hwf)
  | rsymAmpEsc st n =>
    cases st with
    | select => exact decode_ampEscape hok (by simpa [Instr.wellFormed] using hwf) hpre
    | lookup => rfl
  | rsymRunEsc st n =>
    cases st with
    | select => exact decode_secondSelector hok true (by simpa [Instr.wellFormed] using hwf) hpre
    | lookup => rfl
  | rsymRaw n => exact decode_secondSelector hok false (beq_iff_eq.mp hwf) hpre
  | rawamp a => exact decode_rawamp hok hpre
  | mvmode r v =>
    simp only [Instr.wellFormed, Bool.and_eq_true] at hwf
    obtain ⟨-, hv⟩ := hwf
    exact decode_mvmode hcfg hok hv hpre
  | _ => rfl

end

/-- Settles O52: position by position (`decode_encode`). -/
theorem decodeUndoesEncode : Obligations.DecodeUndoesEncode :=
  fun _ _ _ hcfg hok hwf hpre => decode_encode hcfg hok hwf (List.isPrefixOf_iff_prefix.mp hpre)

/-! ### Words of the opcode table (log 10) -/

/-- A table word decodes to the instruction whose position is the word's and whose code the word's bits, and zeros after
them, begin with. -/
theorem decodeTableWord_of_encode {nbits w width : Nat} {i : Instr}
    (hpos : tablePosition nbits w = some (i.task (tableCtx Config.constructed), width))
    (hwf : i.wellFormed (tableCtx Config.constructed) = true)
    (hpre : encode (tableCtx Config.constructed) i <+: bitsOf width w ++ List.replicate 32 false) :
    decodeTableWord nbits w = some i := by
  have hahead : bitsOf width w ++ List.replicate 32 false
      <+: (Cursor.start (tableInput Config.constructed width w)).ahead Config.constructed := by
    obtain ⟨k, -, hk⟩ := packedBitsAreTheStream Config.constructed (bitsOf width w ++ List.replicate 32 false)
    exact ⟨_, hk.symm⟩
  have hdecode := decode_encode (x := tableCtx Config.constructed) Config.constructed_wellFormed
    (Cursor.start_ok _ _) hwf (hpre.trans hahead)
  simp only [decodeTableWord, hpos, hdecode]

/-- The two leaves R147 prints are leaves of the table in force at a table word. -/
theorem tableCtx_hasLeaf_printed : (tableCtx Config.constructed).hasLeaf (printedCode000, 0x000) = true
    ∧ (tableCtx Config.constructed).hasLeaf (printedCode802, 0x802) = true := by
  have h := Config.constructed_wellFormed
  simp only [Config.wellFormed, Bool.and_eq_true] at h
  show Config.constructed.res0.huff.tree.leaves.contains _ = true ∧
    Config.constructed.res0.huff.tree.leaves.contains _ = true
  tauto

/-- Settles O53: each word begins with the code of its instruction. -/
theorem tableWordsDecode : Obligations.TableWordsDecode := by
  obtain ⟨h000, h802⟩ := tableCtx_hasLeaf_printed
  refine ⟨?_, ?_, ?_, ?_, ?_, ?_, ?_⟩
  · exact decodeTableWord_of_encode (width := 1) rfl rfl (by decide)
  · exact decodeTableWord_of_encode (width := 1) rfl rfl (by decide)
  · exact decodeTableWord_of_encode (width := 6) rfl rfl (by decide)
  · exact decodeTableWord_of_encode (width := 10) rfl h000 (by decide)
  · exact decodeTableWord_of_encode (width := 10) rfl h802 (by decide)
  · exact decodeTableWord_of_encode (width := 21) rfl rfl (by decide)
  · exact decodeTableWord_of_encode (width := 0) rfl rfl (by decide)

end Sys2Proof
end

section
/-! SUPPORT. `Read(n)` said in full (40_bitcursor.md rules R120 to R122, R128, R129): what it delivers, where it fails, and
what it keeps buffered. -/

namespace Sys2Proof

/-! ### Reads that fail -/

/-- From `c` the read operation `r` raises `e` after consuming exactly the bits `bs`. -/
def RaisesAfter (cfg : Config) {α : Type} (r : Cursor → ReadOut α) (c : Cursor) (bs : List Bool)
    (e : ErrorKind) : Prop :=
  ∃ c', r c = .err e c' ∧ Cursor.Past cfg bs c c'

section
variable {cfg : Config} {c : Cursor} {bs : List Bool} {e : ErrorKind} {α β : Type} {r : Cursor → ReadOut α} {v : α}

theorem Cursor.Past.nil (hok : c.ok cfg = true) : Cursor.Past cfg [] c c := ⟨rfl, rfl, hok⟩

/-- An operation that passes the error of another on. -/
theorem RaisesAfter.passed {s : Cursor → ReadOut β} (h : RaisesAfter cfg r c bs e)
    (hs : ∀ c', r c = .err e c' → s c = .err e c') : RaisesAfter cfg s c bs e := by
  obtain ⟨c', hc', hpast⟩ := h
  exact ⟨c', hs c' hc', hpast⟩

/-- An operation that reads a code and then fails as the read after it does. -/
theorem ReadsCode.thenRaises {k s : Cursor → ReadOut β} {bs' rest : List Bool} (hr : ReadsCode cfg r bs v)
    (hok : c.ok cfg = true) (hahead : c.ahead cfg = bs ++ rest)
    (hk : ∀ c', c'.ok cfg = true → c'.ahead cfg = rest → RaisesAfter cfg k c' bs' e)
    (hs : ∀ c' c'', r c = .ok v c' → k c' = .err e c'' → s c = .err e c'') : RaisesAfter cfg s c (bs ++ bs') e := by
  obtain ⟨c', hc', hpast⟩ := hr c hok ⟨rest, hahead.symm⟩
  obtain ⟨c'', hc'', hpast'⟩ := hk c' hpast.ok (by rw [hpast.ahead, hahead, List.drop_left])
  exact ⟨c'', hs c' c'' hc' hc'', hpast.append hpast'⟩

end

/-! ### `Read(n)` (R122) -/

/-- The filling loop fails only because the input ends (R121). -/
theorem Cursor.fill_err_kind (cfg : Config) (n : Nat) {c' : Cursor} {e : ErrorKind} : ∀ (k : Nat) (c : Cursor),
    c.fill cfg n k = .err e c' → e = .endOfStream
  | 0, _, h => by cases h
  | k + 1, c, h => by
    simp only [Cursor.fill] at h
    split at h
    · cases hr : c.refill cfg with
      | err e' d =>
        rw [hr] at h
        cases h
        exact (c.refill_err cfg c' e hr).2.1
      | ok u d =>
        rw [hr] at h
        exact Cursor.fill_err_kind cfg n k d h
    · cases h

/-- With fewer than `n` bits ahead `Read(n)` raises `EndOfStream` and delivers none. -/
theorem Cursor.read_short {cfg : Config} {c : Cursor} {n : Nat} (hn : n ≤ 32) (hok : c.ok cfg = true)
    (hlen : (c.ahead cfg).length < n) : RaisesAfter cfg (Cursor.read cfg n) c [] .endOfStream := by
  cases hf : c.fill cfg n n with
  | ok u d =>
    have hread := Cursor.le_ahead_of_read hn hok (by simp only [Cursor.read, hf]; rfl)
    omega
  | err e d =>
    obtain ⟨hdok, hin, hpos⟩ := Cursor.fill_keeps cfg n hn n c hok d (.inr ⟨e, hf⟩)
    cases Cursor.fill_err_kind cfg n n c hf
    exact ⟨d, by simp only [Cursor.read, hf], hin, hpos, hdok⟩

/-- Settles O1: the next `n` bits are a code `Read(n)` reads (`Cursor.read_reads`), and without them it fails. -/
theorem readDeliversStreamBits : Obligations.ReadDeliversStreamBits := by
  intro cfg c n hok _ hn
  constructor
  · intro hlen
    have htake : ((c.ahead cfg).take n).length = n := List.length_take_of_le hlen
    have hreads := Cursor.read_reads cfg ((c.ahead cfg).take n) (htake.trans_le hn)
    obtain ⟨c', hc', hin, hpos, hok'⟩ := hreads c hok (List.take_prefix _ _)
    rw [htake] at hc' hpos
    exact ⟨c', hc', hin, hpos, hok'⟩
  · intro hlen
    obtain ⟨c', hc', hin, hpos, hok'⟩ := Cursor.read_short hn hok hlen
    exact ⟨c', hc', hin, hpos, hok'⟩

/-! ### What stays buffered (R128) -/

/-- The filling loop stops at the first unit that gives it `n` bits. -/
theorem Cursor.fill_nbits_lt (cfg : Config) (n : Nat) {c' : Cursor} : ∀ (k : Nat) (c : Cursor),
    c.nbits < n + cfg.blockBits.bits → c.fill cfg n k = .ok () c' → c'.nbits < n + cfg.blockBits.bits
  | 0, _, hc, h => by
    cases h
    exact hc
  | k + 1, c, hc, h => by
    simp only [Cursor.fill] at h
    split at h
    · rename_i hlt
      cases hr : c.refill cfg with
      | err e d => simp [hr] at h
      | ok u d =>
        rw [hr] at h
        have hd : d.nbits = c.nbits + cfg.blockBits.bits := by
          simp only [Cursor.refill] at hr
          split at hr <;> cases hr
          rfl
        exact Cursor.fill_nbits_lt cfg n k d (by omega) h
    · cases h
      exact hc

/-- Less than a unit is buffered (R128): what holds between the reads of a call. -/
structure Cursor.Tight (cfg : Config) (c : Cursor) : Prop where
  ok : c.ok cfg = true
  nbits : c.nbits < cfg.blockBits.bits

/-- A successful `Read(n)` consumes `n` bits and again leaves less than a unit buffered. -/
theorem Cursor.Tight.read {cfg : Config} {c c' : Cursor} {n v : Nat} (hc : c.Tight cfg) (hn : n ≤ 32)
    (h : c.read cfg n = .ok v c') : c'.Tight cfg ∧ c'.bitpos = c.bitpos + n := by
  have hok' : c'.ok cfg = true := ((Cursor.read_forward cfg n hn).of_ok h).ok hc.ok
  simp only [Cursor.read] at h
  cases hf : c.fill cfg n n with
  | err e d => simp [hf] at h
  | ok u d =>
    have hbuf := Cursor.fill_nbits_lt cfg n n c (Nat.lt_add_left n hc.nbits) hf
    have hpos := (Cursor.fill_keeps cfg n hn n c hc.ok d (.inl hf)).2.2
    have hunit : 0 < cfg.blockBits.bits := Nat.zero_lt_of_lt hc.nbits
    rw [hf] at h
    cases h
    exact ⟨⟨hok', by dsimp only; omega⟩, congrArg (· + n) hpos⟩

/-- A sequence of successful reads consumes the sum of their widths. -/
theorem Cursor.Tight.readAll {cfg : Config} {c' : Cursor} : ∀ {ns vs : List Nat} {c : Cursor}, c.Tight cfg →
    (∀ n ∈ ns, 1 ≤ n ∧ n ≤ 32) → Cursor.readAll cfg ns c = .ok vs c' → c'.Tight cfg ∧ c'.bitpos = c.bitpos + ns.sum
  | [], _, _, hc, _, h => by
    cases h
    exact ⟨hc, rfl⟩
  | n :: ns, _, c, hc, hns, h => by
    simp only [Cursor.readAll] at h
    cases hr : c.read cfg n with
    | err e d => simp [hr] at h
    | ok v d =>
      simp only [hr] at h
      obtain ⟨hd, hpos⟩ := hc.read (hns n List.mem_cons_self).2 hr
      cases hrest : Cursor.readAll cfg ns d with
      | err e d' => simp [hrest] at h
      | ok vs' d' =>
        rw [hrest] at h
        cases h
        obtain ⟨hd', hpos'⟩ := hd.readAll (fun m hm => hns m (List.mem_cons_of_mem n hm)) hrest
        exact ⟨hd', by rw [hpos', hpos, List.sum_cons, Nat.add_assoc]⟩

/-- With less than a unit buffered, `BYTEPOS` is the whole units that hold the bits consumed. -/
theorem Cursor.Tight.bytepos {cfg : Config} {c : Cursor} (hc : c.Tight cfg) :
    c.bytepos = cfg.blockBits.bytes * ((c.bitpos + cfg.blockBits.bits - 1) / cfg.blockBits.bits) := by
  obtain ⟨hpos, -, hunit, -⟩ := (c.ok_iff cfg).mp hc.ok
  obtain ⟨j, hj⟩ := Nat.dvd_of_mod_eq_zero hunit
  have hlt := hc.nbits
  have hbits : c.bitpos + c.nbits = j * cfg.blockBits.bits := by
    rw [hpos, hj, cfg.blockBits.bits_eq]
    ring
  have hceil : (c.bitpos + cfg.blockBits.bits - 1) / cfg.blockBits.bits = j :=
    Nat.div_eq_of_lt_le (by omega) (by rw [Nat.succ_mul]; omega)
  rw [hceil, hj]

/-- Settles O2: a call begins with nothing buffered, and each read leaves less than a unit. -/
theorem positionLaw : Obligations.PositionLaw := by
  intro cfg input ns vs c hns h
  have hstart : (Cursor.start input).Tight cfg :=
    ⟨Cursor.start_ok cfg input, by show 0 < cfg.blockBits.bits; cases cfg.blockBits <;> decide⟩
  obtain ⟨hc, hpos⟩ := hstart.readAll hns h
  have hsum : c.bitpos = ns.sum := hpos.trans (Nat.zero_add _)
  exact ⟨hsum, hsum ▸ hc.bytepos⟩

/-! ### Reading back what was packed (R129) -/

/-- Numerals of their widths, one after the other, are read back in order. -/
theorem Cursor.readAll_reads (cfg : Config) : ∀ ps : List (Nat × Nat), (∀ p ∈ ps, p.1 < 2 ^ p.2 ∧ 1 ≤ p.2 ∧ p.2 ≤ 32) →
    ReadsCode cfg (Cursor.readAll cfg (ps.map Prod.snd)) (ps.flatMap fun p => bitsOf p.2 p.1) (ps.map Prod.fst)
  | [], _ => fun c hok _ => ⟨c, rfl, .nil hok⟩
  | (v, n) :: ps, hps => by
    obtain ⟨hv, -, hn⟩ := hps (v, n) List.mem_cons_self
    have hrest := Cursor.readAll_reads cfg ps fun p hp => hps p (List.mem_cons_of_mem _ hp)
    have hread := Cursor.read_reads_bitsOf cfg hn v
    rw [Nat.mod_eq_of_lt hv] at hread
    exact hread.andThen hrest fun c c' c'' h h' => by simp only [List.map_cons, Cursor.readAll, h, h']

/-- Settles O3: at the start of a call all of `STREAM` is ahead. -/
theorem roundTripLaw : Obligations.RoundTripLaw := by
  intro cfg input ps hps hpre
  obtain ⟨c, hc, -⟩ := Cursor.readAll_reads cfg ps hps (Cursor.start input) (Cursor.start_ok cfg input)
    (List.isPrefixOf_iff_prefix.mp hpre)
  exact ⟨c, hc⟩

end Sys2Proof
end

section
/-! ## The read primitives as instructions (R122 to R127, R146) -/

namespace Sys2Proof

/-- The codeword of a value of the tree `t` names is a code of that tree's `HuffDecode`. -/
theorem DecodeCtx.codeword_reads {x : DecodeCtx} (hcfg : x.cfg.wellFormed = true) {t : TreeId} {v : Nat}
    (hv : x.leafValue t v = true) :
    ∃ r, x.rom t = some r ∧ ReadsCode x.cfg (fun c => c.huff x.cfg r) (x.codeword t v) v := by
  cases hr : x.rom t with
  | none => simp [DecodeCtx.leafValue, hr] at hv
  | some r =>
    simp only [DecodeCtx.leafValue, hr] at hv
    obtain ⟨w, hmem, hw⟩ := HuffTree.codeOf_mem hv
    obtain rfl : w = v := by simpa using hw
    obtain ⟨bound, hbound⟩ := DecodeCtx.rom_wellFormed hcfg hr
    exact ⟨r, rfl, by simpa only [DecodeCtx.codeword, hr] using Cursor.huff_reads x.cfg hbound hmem⟩

namespace Machine

/-- What `s.reads i` says. -/
theorem State.reads_iff (s : State) (i : Instr) : s.reads i = true ↔ s.cfg.wellFormed = true ∧ s.cursor.ok s.cfg = true
    ∧ i.wellFormed s.ctx = true ∧ encode s.ctx i <+: s.cursor.ahead s.cfg := by
  simp only [State.reads, Bool.and_eq_true, List.isPrefixOf_iff_prefix, and_assoc]

/-- Past the code of `i` is past its bits. -/
theorem State.past_of_cursor {s : State} {i : Instr} {c : Cursor} (h : Cursor.Past s.cfg (encode s.ctx i) s.cursor c) :
    s.past i c = true := by
  simp only [State.past, h.input, h.bitpos, h.ok, beq_self_eq_true, Bool.and_self]

/-- A primitive whose read takes its code leaves its value, with the cursor right after the code. -/
theorem latches_value {s : State} {i : Instr} {α : Type} {r : Cursor → ReadOut α} {v : α} {w : Int}
    (hreads : s.reads i = true) (hr : ReadsCode s.cfg r (encode s.ctx i) v)
    (hexec : exec i s = s.reading r fun t => .next { t with val := w }) :
    ∃ c, s.past i c = true ∧ exec i s = .next { s with cursor := c, val := w } := by
  obtain ⟨-, hok, -, hpre⟩ := (s.reads_iff i).mp hreads
  obtain ⟨c, hc, hpast⟩ := hr s.cursor hok hpre
  exact ⟨c, State.past_of_cursor hpast, hexec.trans (State.reading_ok hc _)⟩

/-- The tree of an `H(tree)` read is there, and its walk is what runs. -/
theorem exec_readH {s : State} {t : TreeId} {r : HuffRom} (hr : s.ctx.rom t = some r) (v : Nat) :
    exec (.readH t v) s = s.reading (fun c => c.huff s.cfg r) fun u => .next { u with val := v } := by
  simp only [exec, execReadH, hr]

/-- Settles O5: each primitive's read takes its code. -/
theorem primitivesReturnTheirValue : Obligations.PrimitivesReturnTheirValue := by
  intro s i v hv hreads
  obtain ⟨hcfg, -, hwf, -⟩ := (s.reads_iff i).mp hreads
  cases i with
  | readF n w =>
    cases hv
    simp only [Instr.wellFormed, Bool.and_eq_true, decide_eq_true_eq] at hwf
    obtain ⟨⟨hpos, hn⟩, -⟩ := hwf
    exact latches_value hreads (Cursor.read_reads_bitsOf s.cfg hn w.toNat) (if_neg (by omega))
  | readS n w =>
    cases hv
    simp only [Instr.wellFormed, Bool.and_eq_true, decide_eq_true_eq] at hwf
    obtain ⟨⟨hpos, hn⟩, -⟩ := hwf
    exact latches_value hreads (Cursor.readSigned_reads s.cfg hn w.toNat) (if_neg (by omega))
  | readB b =>
    cases hv
    exact latches_value hreads (Cursor.readBool_reads s.cfg b) rfl
  | readG g =>
    cases hv
    simp only [Instr.wellFormed, Bool.and_eq_true, decide_eq_true_eq] at hwf
    obtain ⟨hpos, hlt⟩ := hwf
    exact latches_value hreads (Cursor.readGamma_reads s.cfg (by omega) hlt) rfl
  | readUE u =>
    cases hv
    exact latches_value hreads (Cursor.readUE_reads s.cfg hwf) rfl
  | readSE d =>
    cases hv
    exact latches_value hreads (Cursor.readSE_reads s.cfg hwf) rfl
  | readH t w =>
    cases hv
    obtain ⟨r, hr, hcode⟩ := DecodeCtx.codeword_reads (x := s.ctx) hcfg hwf
    exact latches_value hreads hcode (exec_readH hr w)
  | _ => cases hv

end Machine

end Sys2Proof
end

section
/-! ## Where a read fails (R98, R125, R146, R311, R312) -/

namespace Sys2Proof

/-! ### The reads made of `Read(n)` -/

theorem Cursor.readSigned_short {cfg : Config} {c : Cursor} {n : Nat} (hn : n ≤ 32) (hok : c.ok cfg = true)
    (hlen : (c.ahead cfg).length < n) : RaisesAfter cfg (Cursor.readSigned cfg n) c [] .endOfStream :=
  (Cursor.read_short hn hok hlen).passed fun c' h => by simp only [Cursor.readSigned, h]

theorem Cursor.readBool_short {cfg : Config} {c : Cursor} (hok : c.ok cfg = true) (hend : c.ahead cfg = []) :
    RaisesAfter cfg (Cursor.readBool cfg) c [] .endOfStream :=
  (Cursor.read_short (n := 1) (by decide) hok (by simp [hend])).passed fun c' h => by simp only [Cursor.readBool, h]

/-! ### `ReadGamma` (R125) -/

/-- As many zeros as may be read raise `FormatError` after the last of them. -/
theorem Cursor.gammaZeros_tooLong {cfg : Config} {tail : List Bool} : ∀ (more k : Nat) (c : Cursor), c.ok cfg = true →
    c.ahead cfg = List.replicate more false ++ tail →
      RaisesAfter cfg (Cursor.gammaZeros cfg more k) c (List.replicate more false) .formatError
  | 0, _, c, hok, _ => ⟨c, rfl, .nil hok⟩
  | more + 1, k, _, hok, hahead =>
    (Cursor.readBool_reads cfg false).thenRaises hok hahead
      (fun c' hok' hahead' => Cursor.gammaZeros_tooLong more (k + 1) c' hok' hahead')
      fun c' c'' h h' => by simp only [Cursor.gammaZeros, h, h']

/-- An input that ends in the leading zeros raises `EndOfStream` after its last zero. -/
theorem Cursor.gammaZeros_short {cfg : Config} : ∀ (z more k : Nat) (c : Cursor), z < more → c.ok cfg = true →
    c.ahead cfg = List.replicate z false →
      RaisesAfter cfg (Cursor.gammaZeros cfg more k) c (List.replicate z false) .endOfStream
  | 0, more + 1, k, _, _, hok, hahead =>
    (Cursor.readBool_short hok hahead).passed fun c' h => by simp only [Cursor.gammaZeros, h]
  | z + 1, more + 1, k, _, hz, hok, hahead =>
    (Cursor.readBool_reads cfg false).thenRaises hok hahead
      (fun c' hok' hahead' => Cursor.gammaZeros_short z more (k + 1) c' (by omega) hok' hahead')
      fun c' c'' h h' => by simp only [Cursor.gammaZeros, h, h']

section
variable {cfg : Config} {c : Cursor} (hok : c.ok cfg = true)
include hok

theorem Cursor.readGamma_tooLong {tail : List Bool} (hahead : c.ahead cfg = List.replicate 31 false ++ tail) :
    RaisesAfter cfg (Cursor.readGamma cfg) c (List.replicate 31 false) .formatError :=
  (Cursor.gammaZeros_tooLong 31 0 c hok hahead).passed fun c' h => by simp only [Cursor.readGamma, h]

theorem Cursor.readGamma_shortPrefix {k : Nat} (hk : k ≤ 30) (hahead : c.ahead cfg = List.replicate k false) :
    RaisesAfter cfg (Cursor.readGamma cfg) c (List.replicate k false) .endOfStream :=
  (Cursor.gammaZeros_short k 31 0 c (by omega) hok hahead).passed fun c' h => by simp only [Cursor.readGamma, h]

/-- An input that ends in the bits after the 1 raises `EndOfStream` before any of them. -/
theorem Cursor.readGamma_shortRest {k : Nat} {tail : List Bool} (hk : k ≤ 30) (htail : tail.length < k)
    (hahead : c.ahead cfg = List.replicate k false ++ true :: tail) :
    RaisesAfter cfg (Cursor.readGamma cfg) c (List.replicate k false ++ [true]) .endOfStream := by
  obtain ⟨z, rfl⟩ : ∃ z, k = z + 1 := ⟨k - 1, by omega⟩
  have hzeros := Cursor.gammaZeros_reads cfg (z + 1) 31 0 (by omega)
  rw [Nat.zero_add] at hzeros
  rw [← List.append_nil (List.replicate (z + 1) false ++ [true])]
  exact hzeros.thenRaises (rest := tail) hok (by rw [hahead, List.append_assoc, List.singleton_append])
    (fun c' hok' hahead' => Cursor.read_short (n := z + 1) (by omega) hok' (by rwa [hahead']))
    fun c' c'' h h' => by simp only [Cursor.readGamma, h, h']

end

/-! ### `HuffDecode` (R146) -/

/-- Below a leaf or an absent child there is no node. -/
theorem HuffTree.isNode_at_of_not_isNode {t : HuffTree} (h : t.isNode = false) :
    ∀ q : List Bool, (t.at q).isNode = false
  | [] => by rwa [HuffTree.at]
  | b :: q => by
    cases t with
    | node l r => cases h
    | absent | leaf v => cases b <;> rfl

/-- Past a codeword there is no node. -/
theorem HuffTree.isNode_at_codeword {v : Nat} (q : List Bool) : ∀ (t : HuffTree) (bs : List Bool), (bs, v) ∈ t.leaves →
    (t.at (bs ++ q)).isNode = false
  | .absent, _, h => by cases h
  | .leaf w, _, h => by
    cases List.mem_singleton.mp h
    exact HuffTree.isNode_at_of_not_isNode rfl q
  | .node l r, _, h => by
    rcases HuffTree.mem_leaves_node.mp h with ⟨bs, rfl, hmem⟩ | ⟨bs, rfl, hmem⟩
    · exact HuffTree.isNode_at_codeword q l bs hmem
    · exact HuffTree.isNode_at_codeword q r bs hmem

/-- A walk whose bits end at a node within the depth limit raises `EndOfStream` there. -/
theorem Cursor.walk_short {cfg : Config} {limit : Option Nat} : ∀ (bs : List Bool) (t : HuffTree) (d : Nat)
    (c : Cursor), c.ok cfg = true → c.ahead cfg = bs → (t.at bs).isNode = true → (∀ m, limit = some m → d + bs.length < m) →
      RaisesAfter cfg (fun c => c.walk cfg limit t d) c bs .endOfStream
  | bs, .absent, _, _, _, _, hnode, _ | bs, .leaf _, _, _, _, _, hnode, _ => by
    rw [HuffTree.isNode_at_of_not_isNode rfl bs] at hnode
    cases hnode
  | [], .node l r, d, c, hok, hahead, _, hlimit => by
    have hinner : limit ≠ some d := fun e => lt_irrefl d (hlimit d e)
    exact (Cursor.readBool_short hok hahead).passed fun c' h => by simp only [Cursor.walk, if_neg hinner, h]
  | b :: bs, .node l r, d, c, hok, hahead, hnode, hlimit => by
    have hinner : limit ≠ some d := fun e => by
      have := hlimit d e
      omega
    have hbelow (m : Nat) (e : limit = some m) : d + 1 + bs.length < m := by
      have := hlimit m e
      rw [List.length_cons] at this
      omega
    cases b with
    | false =>
      exact (Cursor.readBool_reads cfg false).thenRaises hok hahead
        (fun c' hok' hahead' => Cursor.walk_short bs l (d + 1) c' hok' hahead' hnode hbelow)
        fun c' c'' h h' => by simp only [Cursor.walk, if_neg hinner, h, h']
    | true =>
      exact (Cursor.readBool_reads cfg true).thenRaises hok hahead
        (fun c' hok' hahead' => Cursor.walk_short bs r (d + 1) c' hok' hahead' hnode hbelow)
        fun c' c'' h h' => by simp only [Cursor.walk, if_neg hinner, h, h']

/-- Bits that end inside a codeword raise `EndOfStream` at the node they lead to. -/
theorem Cursor.huff_short {cfg : Config} {r : HuffRom} {c : Cursor} (hok : c.ok cfg = true)
    (hnode : (r.tree.at (c.ahead cfg)).isNode = true) (hlimit : ∀ d, r.limit = some d → (c.ahead cfg).length < d) :
    RaisesAfter cfg (fun c => c.huff cfg r) c (c.ahead cfg) .endOfStream :=
  Cursor.walk_short (c.ahead cfg) r.tree 0 c hok rfl hnode (by simpa only [Nat.zero_add] using hlimit)

end Sys2Proof
end

section
/-! ## Errors of reading, at the position that reads (R98, R311, R312, R318) -/

namespace Sys2Proof

/-- Decoding at the position `t` raises `e` after consuming exactly the bits `bs`. -/
def TrapsAfter (x : DecodeCtx) (c : Cursor) (t : Sys2Proof.Task) (bs : List Bool) (e : ErrorKind) : Prop :=
  ∃ c', decode x c t = .trap e c' ∧ Cursor.Past x.cfg bs c c'

/-- A position whose decoding passes the error of a read on. -/
theorem RaisesAfter.traps {x : DecodeCtx} {α : Type} {r : Cursor → ReadOut α} {c : Cursor} {bs : List Bool}
    {e : ErrorKind} {t : Sys2Proof.Task} (h : RaisesAfter x.cfg r c bs e)
    (ht : ∀ c', r c = .err e c' → decode x c t = .trap e c') : TrapsAfter x c t bs e := by
  obtain ⟨c', hc', hpast⟩ := h
  exact ⟨c', ht c' hc', hpast⟩

/-- The elements of format `G`, `UE` or `SE` (R90). -/
def gammaElement (t : Sys2Proof.Task) : Prop :=
  t ∈ [Sys2Proof.Task.qpdelta, .cbpidx, .dpdelta, .mvdx, .mvdy, .read .g, .read .ue, .read .se]
    ∨ ∃ p x y m, t = .partflag p x y m

/-- The elements of a fixed width, with it (R90). -/
def fixedWidths : List (Sys2Proof.Task × Nat) :=
  [(.ftype, 1), (.csbit, 1), (.vlcbit, 1), (.qp6, 6), (.subflag, 1), (.mode3, 3), (.cmode3, 3), (.sign, 1),
    (.rawend, 1), (.rawrun, 6), (.rawamp, 12), (.read .b, 1)]

/-- The position `t` walks the tree `r`: `HSYM`, `MVMODE` or `H(tree)` (R144). -/
def walksTree (x : DecodeCtx) (t : Sys2Proof.Task) (r : HuffRom) : Prop :=
  t = .hsym ∧ r = (x.cfg.res x.vlc).huff ∨ (∃ q, t = .mvmode q ∧ x.rom (.mv x.cfg.stereo q.w q.h) = some r)
    ∨ ∃ q, t = .read (.h q) ∧ x.rom q = some r

section
variable {x : DecodeCtx} {c c' : Cursor} {t : Sys2Proof.Task} {e : ErrorKind}

/-- Every element of format `G`, `UE` or `SE` passes an error of `ReadGamma` on (R125 to R127). -/
theorem decode_gammaElement_err (ht : gammaElement t) (h : c.readGamma x.cfg = .err e c') :
    decode x c t = .trap e c' := by
  have hue : c.readUE x.cfg = .err e c' := by simp only [Cursor.readUE, h]
  have hse : c.readSE x.cfg = .err e c' := by simp only [Cursor.readSE, hue]
  rcases ht with hmem | ⟨p, px, py, m, rfl⟩
  · simp only [List.mem_cons, List.not_mem_nil, or_false] at hmem
    rcases hmem with rfl | rfl | rfl | rfl | rfl | rfl | rfl | rfl <;>
      simp only [decode, decodePrimitive, h, hue, hse, ReadOut.decoded]
  · simp only [decode, hue, ReadOut.decoded]

/-- Every element of a fixed width passes an error of its `Read(n)` on. -/
theorem decode_fixedWidth_err {n : Nat} (ht : (t, n) ∈ fixedWidths) (h : c.read x.cfg n = .err e c') :
    decode x c t = .trap e c' := by
  simp only [fixedWidths, List.mem_cons, List.not_mem_nil, or_false, Prod.mk.injEq] at ht
  rcases ht with ⟨rfl, rfl⟩ | ⟨rfl, rfl⟩ | ⟨rfl, rfl⟩ | ⟨rfl, rfl⟩ | ⟨rfl, rfl⟩ | ⟨rfl, rfl⟩ | ⟨rfl, rfl⟩ | ⟨rfl, rfl⟩
    | ⟨rfl, rfl⟩ | ⟨rfl, rfl⟩ | ⟨rfl, rfl⟩ | ⟨rfl, rfl⟩ <;>
    simp only [decode, decodePrimitive, Cursor.readBool, Cursor.readSigned, h, ReadOut.decoded]

theorem fixedWidths_le {n : Nat} (ht : (t, n) ∈ fixedWidths) : n ≤ 32 := by
  have hall : ∀ p ∈ fixedWidths, p.2 ≤ 32 := by decide
  exact hall (t, n) ht

section
variable (hok : c.ok x.cfg = true)
include hok

/-- `F(n)` and `S(n)` without their bits (R122, R123). -/
theorem decode_width_short {n : Nat} (hpos : 1 ≤ n) (hn : n ≤ 32) (ht : t = .read (.f n) ∨ t = .read (.s n))
    (hlen : (c.ahead x.cfg).length < n) : TrapsAfter x c t [] .endOfStream := by
  have hwidth : ¬(n = 0 ∨ 32 < n) := by omega
  rcases ht with rfl | rfl
  · exact (Cursor.read_short hn hok hlen).traps fun c' h => by
      simp only [decode, decodePrimitive, if_neg hwidth, h, ReadOut.decoded]
  · exact (Cursor.readSigned_short hn hok hlen).traps fun c' h => by
      simp only [decode, decodePrimitive, if_neg hwidth, h, ReadOut.decoded]

/-- No bit for `MPMBIT` (R203). -/
theorem decode_mpm_short (b : Block) (hend : c.ahead x.cfg = []) : TrapsAfter x c (.mpm b) [] .endOfStream :=
  (Cursor.readBool_short hok hend).traps fun c' h => by simp only [decode, decodeMpm, h]

/-- `MPMBIT` is 0 and the bits of `REM3` are missing (R203). -/
theorem decode_rem3_short (b : Block) {tail : List Bool} (htail : tail.length < 3)
    (hahead : c.ahead x.cfg = false :: tail) : TrapsAfter x c (.mpm b) [false] .endOfStream := by
  obtain ⟨d, hd, hpast⟩ := Cursor.readBool_reads x.cfg false c hok ⟨tail, hahead.symm⟩
  have htail' : (d.ahead x.cfg).length < 3 := by rwa [hpast.ahead, hahead]
  obtain ⟨d', hd', hpast'⟩ := Cursor.read_short (by decide) hpast.ok htail'
  exact ⟨d', by simp only [decode, decodeMpm, hd, hd', ReadOut.decoded], hpast.append hpast'⟩

/-- No bit for the first selector of an escape (R164). -/
theorem decode_form_short (n : TSize) (hamp : x.amp = 0) (hend : c.ahead x.cfg = []) :
    TrapsAfter x c (.form n) [] .endOfStream :=
  (Cursor.readBool_short hok hend).traps fun c' h => by
    simp only [decode, decodeForm, hamp, ne_eq, not_true, if_false, h]

/-- No bit for the second selector of an escape (R165, R166). -/
theorem decode_secondSelector_short (n : TSize) (hamp : x.amp = 0) (hahead : c.ahead x.cfg = [false]) :
    TrapsAfter x c (.form n) [false] .endOfStream := by
  obtain ⟨d, hd, hpast⟩ := Cursor.readBool_reads x.cfg false c hok ⟨[], hahead.symm⟩
  have hend : d.ahead x.cfg = [] := by rw [hpast.ahead, hahead]; rfl
  obtain ⟨d', hd', hpast'⟩ := Cursor.readBool_short hpast.ok hend
  exact ⟨d', by simp only [decode, decodeForm, hamp, ne_eq, not_true, if_false, hd, hd', ReadOut.decoded],
    hpast.append hpast'⟩

/-- Where the bits ahead end at a node of the table in force, no printed codeword of R147 is among them. -/
theorem not_atPrinted_of_isNode {bs : List Bool} {v : Nat} (hn : bs.length ≤ 32)
    (hnode : ((x.cfg.res x.vlc).huff.tree.at (c.ahead x.cfg)).isNode = true) : ¬c.atPrinted x bs v = true := by
  intro h
  obtain ⟨hvlc, hmem, q, hq⟩ := (Cursor.atPrinted_iff hok hn).mp h
  have hleaf : ((x.cfg.res false).huff.tree.at (bs ++ q)).isNode = false := HuffTree.isNode_at_codeword q _ bs hmem
  rw [hvlc, ← hq, hleaf] at hnode
  cases hnode

/-- An element coded by a tree whose bits end at an inner node. -/
theorem decode_codeword_short {r : HuffRom} (ht : walksTree x t r) (hnode : (r.tree.at (c.ahead x.cfg)).isNode = true)
    (hlimit : ∀ d, r.limit = some d → (c.ahead x.cfg).length < d) : TrapsAfter x c t (c.ahead x.cfg) .endOfStream := by
  refine (Cursor.huff_short hok hnode hlimit).traps fun c' h => ?_
  rcases ht with ⟨rfl, rfl⟩ | ⟨q, rfl, hr⟩ | ⟨q, rfl, hr⟩
  · have h000 := not_atPrinted_of_isNode hok (bs := printedCode000) (v := 0x000) (by decide) hnode
    have h802 := not_atPrinted_of_isNode hok (bs := printedCode802) (v := 0x802) (by decide) hnode
    simp only [decode, decodeHsym, if_neg h000, if_neg h802, h, ReadOut.decoded]
  · simp only [decode, decodeMvmode, hr, h, ReadOut.decoded]
  · simp only [decode, decodePrimitive, hr, h, ReadOut.decoded]

end

end

namespace Machine

/-- The step at a position that traps takes the error, with the cursor where the trap left it (R318). -/
theorem step_trap {s : State} {t : Sys2Proof.Task} {rest : List Sys2Proof.Task} {e : ErrorKind} {c : Cursor}
    (ha : s.agenda = t :: rest) (hd : decode s.ctx s.cursor t = .trap e c) :
    step s = .next (State.raise { s with cursor := c } e) := by
  simp only [step, State.fetch, ha, hd, State.trap_eq]
  rfl

/-- Settles O6: at each position decoding traps as its read fails, and the step takes that error. -/
theorem readErrorsAreTaken : Obligations.ReadErrorsAreTaken := by
  intro s t rest ha hok bits raises
  have taken : ∀ {bs : List Bool} {e : ErrorKind}, TrapsAfter s.ctx s.cursor t bs e → raises e bs.length := by
    rintro bs e ⟨c, hd, hpast⟩
    exact ⟨c, hpast.input, hpast.bitpos, hpast.ok, step_trap ha hd⟩
  refine ⟨fun ht => ?_, fun n ht hlen => ?_, fun n hpos hn ht hlen => ?_, ?_, ?_, ?_⟩
  · have gamma : ∀ {bs : List Bool} {e : ErrorKind}, RaisesAfter s.cfg (Cursor.readGamma s.cfg) s.cursor bs e →
        raises e bs.length := fun h => taken (h.traps fun _ => decode_gammaElement_err (x := s.ctx) ht)
    refine ⟨fun tail hbits => ?_, fun k hk hbits => ?_, fun k tail hk htail hbits => ?_⟩
    · simpa using gamma (Cursor.readGamma_tooLong hok hbits)
    · simpa using gamma (Cursor.readGamma_shortPrefix hok hk hbits)
    · simpa using gamma (Cursor.readGamma_shortRest hok hk htail hbits)
  · exact taken ((Cursor.read_short (fixedWidths_le ht) hok hlen).traps fun _ => decode_fixedWidth_err (x := s.ctx) ht)
  · exact taken (decode_width_short (x := s.ctx) hok hpos hn ht hlen)
  · rintro b rfl
    exact ⟨fun hend => taken (decode_mpm_short (x := s.ctx) hok b hend),
      fun tail htail hbits => taken (decode_rem3_short (x := s.ctx) hok b htail hbits)⟩
  · rintro n rfl hamp
    exact ⟨fun hend => taken (decode_form_short (x := s.ctx) hok n hamp hend),
      fun hbits => taken (decode_secondSelector_short (x := s.ctx) hok n hamp hbits)⟩
  · exact fun r ht hnode hlimit => taken (decode_codeword_short (x := s.ctx) hok ht hnode hlimit)

end Machine

end Sys2Proof
end

section
/-! ## Huffman trees: leaves, and walks off the tree (R140, R145 to R147, R98, R313) -/

namespace Sys2Proof

/-! ### Paths and leaves (R140) -/

theorem HuffTree.at_absent : ∀ q : List Bool, HuffTree.absent.at q = .absent
  | [] | false :: _ | true :: _ => rfl

theorem HuffTree.at_leaf_cons (v : Nat) (b : Bool) (q : List Bool) : (HuffTree.leaf v).at (b :: q) = .absent := by
  cases b <;> rfl

/-- A path is followed in two parts. -/
theorem HuffTree.at_append (q' : List Bool) : ∀ (q : List Bool) (t : HuffTree), t.at (q ++ q') = (t.at q).at q'
  | [], t => by rw [HuffTree.at, List.nil_append]
  | false :: q, .node l _ => HuffTree.at_append q' q l
  | true :: q, .node _ r => HuffTree.at_append q' q r
  | _ :: _, .absent => by simp only [HuffTree.at_absent]
  | _ :: _, .leaf _ => by simp only [List.cons_append, HuffTree.at_leaf_cons, HuffTree.at_absent]

/-- A codeword of a tree is a path that ends in the leaf. -/
theorem HuffTree.at_eq_leaf_of_mem {v : Nat} : ∀ (t : HuffTree) (bs : List Bool), (bs, v) ∈ t.leaves → t.at bs = .leaf v
  | .absent, _, h => by cases h
  | .leaf _, _, h => by
    cases List.mem_singleton.mp h
    rfl
  | .node l r, _, h => by
    rcases HuffTree.mem_leaves_node.mp h with ⟨bs, rfl, hmem⟩ | ⟨bs, rfl, hmem⟩
    · exact HuffTree.at_eq_leaf_of_mem l bs hmem
    · exact HuffTree.at_eq_leaf_of_mem r bs hmem

/-- Bits that begin with a path to an absent child begin with no codeword. -/
theorem HuffTree.not_codeword_of_absentChild {t : HuffTree} {q bits bs : List Bool} {b : Bool} {v : Nat}
    (hnode : (t.at q).isNode = true) (habsent : t.at (q ++ [b]) = .absent) (hq : q ++ [b] <+: bits)
    (hmem : (bs, v) ∈ t.leaves) : ¬bs <+: bits := by
  intro hbs
  have hleaf := HuffTree.at_eq_leaf_of_mem t bs hmem
  rcases List.prefix_or_prefix_of_prefix hbs hq with hshort | ⟨rest, rfl⟩
  · rcases List.prefix_concat_iff.mp hshort with rfl | ⟨rest, rfl⟩
    · rw [habsent] at hleaf
      cases hleaf
    · rw [HuffTree.isNode_at_codeword rest t bs hmem] at hnode
      cases hnode
  · rw [HuffTree.at_append, habsent, HuffTree.at_absent] at hleaf
    cases hleaf

/-! ### The walk along a path (R145, R146) -/

section
variable {cfg : Config} {limit : Option Nat}

/-- One bit of the walk: at a node above the depth limit it goes on at the child the bit names. -/
theorem Cursor.walk_bit {l r : HuffTree} {d : Nat} {c c' : Cursor} {b : Bool} (hinner : limit ≠ some d)
    (hb : c.readBool cfg = .ok b c') :
    c.walk cfg limit (.node l r) d = c'.walk cfg limit ((HuffTree.node l r).at [b]) (d + 1) := by
  cases b <;> simp only [Cursor.walk, if_neg hinner, hb, HuffTree.at]

/-- The walk follows a path to a node the depth limit admits, and goes on from there. -/
theorem Cursor.walk_along : ∀ (q : List Bool) (t : HuffTree) (d : Nat) (c : Cursor), c.ok cfg = true →
    q <+: c.ahead cfg → (t.at q).isNode = true → (∀ m, limit = some m → d + q.length ≤ m) →
      ∃ c', Cursor.Past cfg q c c' ∧ c.walk cfg limit t d = c'.walk cfg limit (t.at q) (d + q.length)
  | [], t, d, c, hok, _, _, _ => ⟨c, .nil hok, by rw [HuffTree.at, List.length_nil, Nat.add_zero]⟩
  | b :: q, .absent, _, _, _, _, hnode, _ | b :: q, .leaf _, _, _, _, _, hnode, _ => by
    rw [HuffTree.isNode_at_of_not_isNode rfl] at hnode
    cases hnode
  | b :: q, .node l r, d, c, hok, hpre, hnode, hlimit => by
    simp only [List.length_cons] at hlimit ⊢
    have hinner : limit ≠ some d := fun e => by
      have := hlimit d e
      omega
    have hbelow (m : Nat) (e : limit = some m) : d + 1 + q.length ≤ m := by
      have := hlimit m e
      omega
    have hpath : (HuffTree.node l r).at (b :: q) = ((HuffTree.node l r).at [b]).at q := HuffTree.at_append q [b] _
    rw [hpath] at hnode ⊢
    obtain ⟨c', hb, hpast, hnext⟩ := (Cursor.readBool_reads cfg b).next_code hok hpre
    obtain ⟨c'', hpast', hwalk⟩ := Cursor.walk_along q _ (d + 1) c' hpast.ok hnext hnode hbelow
    exact ⟨c'', hpast.append hpast', by rw [Cursor.walk_bit hinner hb, hwalk, Nat.add_right_comm, Nat.add_assoc]⟩

variable {c : Cursor} {r : HuffRom} {q : List Bool} (hok : c.ok cfg = true) (hnode : (r.tree.at q).isNode = true)
include hok hnode

/-- A bit whose child is absent raises `FormatError` right after it (R146). -/
theorem Cursor.huff_absentChild {b : Bool} (habsent : r.tree.at (q ++ [b]) = .absent)
    (hlimit : ∀ d, r.limit = some d → q.length < d) (hpre : q ++ [b] <+: c.ahead cfg) :
    RaisesAfter cfg (fun c => c.huff cfg r) c (q ++ [b]) .formatError := by
  obtain ⟨c', hpast, hwalk⟩ := Cursor.walk_along (limit := r.limit) q r.tree 0 c hok
    ((List.prefix_append q [b]).trans hpre) hnode fun m e => by rw [Nat.zero_add]; exact (hlimit m e).le
  have hinner : r.limit ≠ some (0 + q.length) := fun e => by
    have := hlimit _ e
    omega
  have hnext : [b] <+: c'.ahead cfg := by
    obtain ⟨rest, hrest⟩ := hpre
    exact ⟨rest, by rw [hpast.ahead, ← hrest, List.append_assoc, List.drop_left]⟩
  obtain ⟨c'', hb, hpast'⟩ := Cursor.readBool_reads cfg b c' hpast.ok hnext
  rw [HuffTree.at_append] at habsent
  refine ⟨c'', ?_, hpast.append hpast'⟩
  change c.walk cfg r.limit r.tree 0 = _
  rw [hwalk]
  cases hat : r.tree.at q with
  | node l o =>
    rw [hat] at habsent
    rw [Cursor.walk_bit hinner hb, habsent, Cursor.walk]
  | absent | leaf v =>
    rw [hat] at hnode
    cases hnode

/-- A node at the depth limit raises `FormatError` before another bit (R145, R146). -/
theorem Cursor.huff_depthLimit (hlimit : r.limit = some q.length) (hpre : q <+: c.ahead cfg) :
    RaisesAfter cfg (fun c => c.huff cfg r) c q .formatError := by
  obtain ⟨c', hpast, hwalk⟩ := Cursor.walk_along (limit := r.limit) q r.tree 0 c hok hpre hnode fun m e => by
    rw [hlimit] at e
    cases e
    exact (Nat.zero_add _).le
  refine ⟨c', ?_, hpast⟩
  change c.walk cfg r.limit r.tree 0 = _
  rw [hwalk, Nat.zero_add]
  cases hat : r.tree.at q with
  | node l o => rw [Cursor.walk, if_pos hlimit]
  | absent | leaf v =>
    rw [hat] at hnode
    cases hnode

end

/-- At `HSYM`, `MVMODE` or `H(tree)`, bits that lead to an absent child trap right after the last of them: no codeword
of R147 is among them. -/
theorem decode_absentChild {x : DecodeCtx} {c : Cursor} {t : Sys2Proof.Task} {r : HuffRom} {q : List Bool} {b : Bool}
    (hok : c.ok x.cfg = true) (ht : walksTree x t r) (hnode : (r.tree.at q).isNode = true)
    (habsent : r.tree.at (q ++ [b]) = .absent) (hlimit : ∀ d, r.limit = some d → q.length < d)
    (hpre : q ++ [b] <+: c.ahead x.cfg) : TrapsAfter x c t (q ++ [b]) .formatError := by
  refine (Cursor.huff_absentChild hok hnode habsent hlimit hpre).traps fun c' h => ?_
  rcases ht with ⟨rfl, rfl⟩ | ⟨m, rfl, hr⟩ | ⟨i, rfl, hr⟩
  · have hprinted {bs : List Bool} {v : Nat} (hn : bs.length ≤ 32) : ¬c.atPrinted x bs v = true := fun hat => by
      obtain ⟨hvlc, hmem, hbs⟩ := (Cursor.atPrinted_iff hok hn).mp hat
      rw [hvlc] at hnode habsent
      exact HuffTree.not_codeword_of_absentChild hnode habsent hpre hmem hbs
    have h000 := hprinted (bs := printedCode000) (v := 0x000) (by decide)
    have h802 := hprinted (bs := printedCode802) (v := 0x802) (by decide)
    simp only [decode, decodeHsym, if_neg h000, if_neg h802, h, ReadOut.decoded]
  · simp only [decode, decodeMvmode, hr, h, ReadOut.decoded]
  · simp only [decode, decodePrimitive, hr, h, ReadOut.decoded]

/-! ### `HuffDecode` (R146, R147) -/

/-- A legal configuration's table 0 has the two leaves R147 prints. -/
theorem Config.printed_mem_leaves {cfg : Config} (h : cfg.wellFormed = true) :
    (printedCode000, 0x000) ∈ cfg.res0.huff.tree.leaves ∧ (printedCode802, 0x802) ∈ cfg.res0.huff.tree.leaves := by
  simp only [Config.wellFormed, Bool.and_eq_true, List.contains_iff_mem] at h
  tauto

/-- Settles O7: the codeword of a leaf is a code `HuffDecode` reads (`Cursor.huff_reads`). -/
theorem huffDecodeReturnsTheLeaf : Obligations.HuffDecodeReturnsTheLeaf := by
  refine ⟨fun cfg r bound c p hr hp hok hpre => ?_, fun cfg hcfg => Config.printed_mem_leaves hcfg⟩
  obtain ⟨c', hc', hpast⟩ := Cursor.huff_reads cfg hr hp c hok (List.isPrefixOf_iff_prefix.mp hpre)
  exact ⟨c', hc', hpast.input, hpast.bitpos, hpast.ok⟩

/-- Settles O8: the walk follows the path to its node (`Cursor.walk_along`) and fails there, and so does the step. -/
theorem huffDecodeOffTheTree : Obligations.HuffDecodeOffTheTree := by
  refine ⟨fun cfg r c q hnode hok => ⟨fun b habsent hlimit hpre => ?_, fun hlimit hpre => ?_⟩,
    fun s t rest r q b ha hok ht hnode habsent hlimit hpre => ?_⟩
  · obtain ⟨c', hc', hpast⟩ :=
      Cursor.huff_absentChild hok hnode habsent hlimit (List.isPrefixOf_iff_prefix.mp hpre)
    exact ⟨c', hc', by rw [hpast.bitpos, List.length_append]; rfl, hpast.ok⟩
  · obtain ⟨c', hc', hpast⟩ := Cursor.huff_depthLimit hok hnode hlimit (List.isPrefixOf_iff_prefix.mp hpre)
    exact ⟨c', hc', hpast.bitpos, hpast.ok⟩
  · obtain ⟨c', hd, hpast⟩ :=
      decode_absentChild (x := s.ctx) hok ht hnode habsent hlimit (List.isPrefixOf_iff_prefix.mp hpre)
    exact ⟨c', hpast.input, by rw [hpast.bitpos, List.length_append]; rfl, hpast.ok, Machine.step_trap ha hd⟩

end Sys2Proof
end

section
/-! ## `insert` and the leaves it adds (R140, R141) -/

namespace Sys2Proof

/-! ### The leaves below a node -/

section
variable {l r : HuffTree} {bs : List Bool} {v : Nat}

@[simp] theorem HuffTree.nil_notMem_leaves_node : ([], v) ∉ (HuffTree.node l r).leaves := by
  simp [HuffTree.mem_leaves_node]

@[simp] theorem HuffTree.false_mem_leaves_node : (false :: bs, v) ∈ (HuffTree.node l r).leaves ↔ (bs, v) ∈ l.leaves := by
  simp [HuffTree.mem_leaves_node]

@[simp] theorem HuffTree.true_mem_leaves_node : (true :: bs, v) ∈ (HuffTree.node l r).leaves ↔ (bs, v) ∈ r.leaves := by
  simp [HuffTree.mem_leaves_node]

@[simp] theorem HuffTree.leaves_absent : HuffTree.absent.leaves = [] := rfl

@[simp] theorem HuffTree.leaves_leaf : (HuffTree.leaf v).leaves = [([], v)] := rfl

/-- A tree without dead ends that is there at all has a leaf. -/
theorem HuffTree.leaves_ne_nil_of_live : ∀ {t : HuffTree}, t.live = true → t ≠ .absent → t.leaves ≠ []
  | .absent, _, h => absurd rfl h
  | .leaf _, _, _ => List.cons_ne_nil _ _
  | .node l r, hlive, _ => by
    simp only [HuffTree.live_node, Bool.and_eq_true, Bool.or_eq_true, bne_iff_ne] at hlive
    obtain ⟨⟨hthere, hl⟩, hr⟩ := hlive
    simp only [HuffTree.leaves, ne_eq, List.append_eq_nil_iff, List.map_eq_nil_iff, not_and_or]
    exact hthere.imp (leaves_ne_nil_of_live hl) (leaves_ne_nil_of_live hr)

end

/-- Neither codeword begins with the other. -/
def Unrelated (p q : List Bool × Nat) : Prop := ¬p.1 <+: q.1 ∧ ¬q.1 <+: p.1

/-- No leaf's codeword begins with another's: it would have to take the same side at the node where the two part. -/
theorem HuffTree.leaves_pairwise_unrelated : ∀ t : HuffTree, t.leaves.Pairwise Unrelated
  | .absent => .nil
  | .leaf _ => List.pairwise_singleton _ _
  | .node l r => by
    have below (b : Bool) {ls : List (List Bool × Nat)} (h : ls.Pairwise Unrelated) :
        (ls.map fun p => (b :: p.1, p.2)).Pairwise Unrelated :=
      h.map _ fun p q => by simp [Unrelated]
    refine List.pairwise_append.mpr
      ⟨below false l.leaves_pairwise_unrelated, below true r.leaves_pairwise_unrelated, fun p hp q hq => ?_⟩
    obtain ⟨p, -, rfl⟩ := List.mem_map.mp hp
    obtain ⟨q, -, rfl⟩ := List.mem_map.mp hq
    simp [Unrelated]

/-! ### What `insert` adds -/

section
variable {l r : HuffTree} {v : Nat}

@[simp] theorem HuffTree.insert_leaf {w : Nat} (bs : List Bool) : (HuffTree.leaf w).insert bs v = none := by
  rcases bs with _ | ⟨_ | _, bs⟩ <;> rfl

@[simp] theorem HuffTree.insert_node_nil : (HuffTree.node l r).insert [] v = none := rfl

@[simp] theorem HuffTree.insert_node_false (bs : List Bool) :
    (HuffTree.node l r).insert (false :: bs) v = (l.insert bs v).map fun l' => .node l' r := rfl

@[simp] theorem HuffTree.insert_node_true (bs : List Bool) :
    (HuffTree.node l r).insert (true :: bs) v = (r.insert bs v).map fun r' => .node l r' := rfl

/-- An absent child takes a codeword as an empty node does. -/
theorem HuffTree.insert_absent_cons (b : Bool) (bs : List Bool) :
    HuffTree.absent.insert (b :: bs) v = HuffTree.empty.insert (b :: bs) v := by
  cases b <;> rfl

/-- A codeword always goes in where nothing is. -/
theorem HuffTree.insert_absent_isSome : ∀ bs : List Bool, (HuffTree.absent.insert bs v).isSome = true
  | [] => rfl
  | false :: bs | true :: bs => by
    simp [HuffTree.insert_absent_cons, HuffTree.empty, insert_absent_isSome bs]

end

/-- At a node: what `insert` adds to one side it adds to the tree. -/
theorem HuffTree.mem_leaves_insert_node {l r t' : HuffTree} {b : Bool} {bs : List Bool} {v : Nat}
    (ih : ∀ t t' : HuffTree, t.insert bs v = some t' → ∀ cs w, (cs, w) ∈ t'.leaves ↔ (cs, w) ∈ t.leaves ∨ cs = bs ∧ w = v)
    (h : (HuffTree.node l r).insert (b :: bs) v = some t') (cs : List Bool) (w : Nat) :
    (cs, w) ∈ t'.leaves ↔ (cs, w) ∈ (HuffTree.node l r).leaves ∨ cs = b :: bs ∧ w = v := by
  cases b with
  | false =>
    obtain ⟨l', hl, rfl⟩ := Option.map_eq_some_iff.mp h
    rcases cs with _ | ⟨_ | _, cs⟩ <;> simp [ih l l' hl]
  | true =>
    obtain ⟨r', hr, rfl⟩ := Option.map_eq_some_iff.mp h
    rcases cs with _ | ⟨_ | _, cs⟩ <;> simp [ih r r' hr]

/-- The leaves after a successful `insert`: those before, and the new one. -/
theorem HuffTree.mem_leaves_insert {v : Nat} : ∀ (bs : List Bool) (t t' : HuffTree), t.insert bs v = some t' →
    ∀ cs w, (cs, w) ∈ t'.leaves ↔ (cs, w) ∈ t.leaves ∨ cs = bs ∧ w = v
  | _, .leaf _, _, h => by simp at h
  | [], .node _ _, _, h => by simp at h
  | [], .absent, _, h => by
    cases h
    simp
  | b :: bs, .absent, _, h => by
    rw [HuffTree.insert_absent_cons] at h
    simpa [HuffTree.empty, HuffTree.mem_leaves_node] using
      HuffTree.mem_leaves_insert_node (HuffTree.mem_leaves_insert bs) h
  | b :: bs, .node l r, _, h => HuffTree.mem_leaves_insert_node (HuffTree.mem_leaves_insert bs) h

/-! ### Where `insert` fails -/

/-- A codeword of the tree begins with `bs`, or `bs` with it. -/
def HuffTree.Conflicts (t : HuffTree) (bs : List Bool) : Prop := ∃ p ∈ t.leaves, p.1 <+: bs ∨ bs <+: p.1

section
variable {l r : HuffTree} {bs : List Bool}

theorem HuffTree.not_conflicts_absent : ¬HuffTree.absent.Conflicts bs := fun ⟨_, hp, _⟩ => by cases hp

theorem HuffTree.conflicts_leaf (v : Nat) : (HuffTree.leaf v).Conflicts bs :=
  ⟨([], v), List.mem_singleton_self _, .inl List.nil_prefix⟩

/-- The empty codeword conflicts with every leaf. -/
theorem HuffTree.conflicts_nil {t : HuffTree} (h : t.leaves ≠ []) : t.Conflicts [] := by
  obtain ⟨p, hp⟩ := List.exists_mem_of_ne_nil _ h
  exact ⟨p, hp, .inr List.nil_prefix⟩

/-- Below a node, a codeword conflicts on its own side only. -/
theorem HuffTree.conflicts_false : (HuffTree.node l r).Conflicts (false :: bs) ↔ l.Conflicts bs := by
  simp [HuffTree.Conflicts, HuffTree.leaves, or_and_right, exists_or]

theorem HuffTree.conflicts_true : (HuffTree.node l r).Conflicts (true :: bs) ↔ r.Conflicts bs := by
  simp [HuffTree.Conflicts, HuffTree.leaves, or_and_right, exists_or]

end

/-- `insert` into a tree without dead ends fails exactly on a conflict. -/
theorem HuffTree.insert_eq_none_iff {v : Nat} : ∀ (bs : List Bool) {t : HuffTree}, t.live = true →
    (t.insert bs v = none ↔ t.Conflicts bs)
  | bs, .absent, _ => by
    have hsome := HuffTree.insert_absent_isSome (v := v) bs
    simp [Option.isSome_iff_ne_none.mp hsome, HuffTree.not_conflicts_absent]
  | bs, .leaf w, _ => by simp [HuffTree.conflicts_leaf]
  | [], .node l r, hlive => by
    simp [HuffTree.conflicts_nil (HuffTree.leaves_ne_nil_of_live hlive (by simp))]
  | false :: bs, .node l r, hlive => by
    simp only [HuffTree.live_node, Bool.and_eq_true] at hlive
    obtain ⟨⟨-, hl⟩, -⟩ := hlive
    rw [HuffTree.insert_node_false, Option.map_eq_none_iff, insert_eq_none_iff bs hl, HuffTree.conflicts_false]
  | true :: bs, .node l r, hlive => by
    simp only [HuffTree.live_node, Bool.and_eq_true] at hlive
    obtain ⟨-, hr⟩ := hlive
    rw [HuffTree.insert_node_true, Option.map_eq_none_iff, insert_eq_none_iff bs hr, HuffTree.conflicts_true]

/-- Into the empty tree a codeword of at least one bit goes as into an absent child, which nothing conflicts with. -/
theorem HuffTree.insert_empty_eq_none_iff {bs : List Bool} {v : Nat} (hbs : bs ≠ []) :
    HuffTree.empty.insert bs v = none ↔ HuffTree.empty.Conflicts bs := by
  obtain ⟨b, bs, rfl⟩ := List.exists_cons_of_ne_nil hbs
  rw [← HuffTree.insert_absent_cons, HuffTree.insert_eq_none_iff _ rfl]
  simp only [HuffTree.Conflicts, HuffTree.empty, HuffTree.leaves, List.map_nil, List.append_nil]

/-- Settles O9: how the leaves part, what `insert` adds and where it fails, each by following the codeword down. -/
theorem insertAddsOneLeaf : Obligations.InsertAddsOneLeaf := by
  refine ⟨HuffTree.leaves_pairwise_unrelated, fun t t' bs v h p => ?_, fun t bs v hbs ht => ?_⟩
  · rw [HuffTree.mem_leaves_insert bs t t' h p.1 p.2, Prod.ext_iff]
  · rcases ht with rfl | hlive
    · exact HuffTree.insert_empty_eq_none_iff hbs
    · exact HuffTree.insert_eq_none_iff bs hlive

end Sys2Proof
end

section
/-! SUPPORT. The elements of a residual symbol (42_residual.md, 30_encoding.md R94): with its bits at the cursor, each
reads exactly those bits and then has its effect. -/

namespace Sys2Proof

/-- The one-bit reads of a codeword take it, whatever its bits are (R146). -/
theorem Cursor.skipBits_reads (cfg : Config) : ∀ bs : List Bool, ReadsCode cfg (Cursor.skipBits cfg bs.length) bs ()
  | [] => fun c hok _ => ⟨c, rfl, .nil hok⟩
  | b :: bs => (Cursor.readBool_reads cfg b).andThen (Cursor.skipBits_reads cfg bs) fun c c' c'' h h' => by
    simp only [List.length_cons, Cursor.skipBits, h, h']

/-- Past the first of two codes the second is next. -/
theorem Cursor.Past.next {cfg : Config} {bs bs' : List Bool} {c c' : Cursor} (h : Cursor.Past cfg bs c c')
    (hpre : bs ++ bs' <+: c.ahead cfg) : bs' <+: c'.ahead cfg := by
  obtain ⟨rest, hrest⟩ := hpre
  exact ⟨rest, by rw [h.ahead, ← hrest, List.append_assoc, List.drop_left]⟩

/-- The symbols of a residual tree have 12 bits (R7, R94). -/
theorem Config.symbol_lt {cfg : Config} (h : cfg.wellFormed = true) {t : Bool} {p : List Bool × Nat}
    (hp : p ∈ (cfg.res t).huff.tree.leaves) : p.2 < 4096 := by
  have hwf := Config.res_wellFormed h t
  simp only [HuffRom.wellFormed, Bool.and_eq_true, List.all_eq_true, decide_eq_true_eq] at hwf
  obtain ⟨⟨-, hvalues⟩, -⟩ := hwf
  exact hvalues p hp

namespace Machine

/-! ### The fields of a symbol (R94) -/

theorem symbolEnd_eq (n : BitVec 12) : symbolEnd n = (n.toNat / 2048 == 1) := by
  rw [symbolEnd, BitVec.getLsbD, Nat.testBit_eq_decide_div_mod_eq, Nat.mod_eq_of_lt (by omega)]
  rfl

theorem symbolRun_eq (n : BitVec 12) : symbolRun n = BitVec.ofNat 32 (n.toNat / 32 % 64) := by
  apply BitVec.eq_of_toNat_eq
  simp [symbolRun, Nat.shiftRight_eq_div_pow]

theorem symbolAmp_eq (n : BitVec 12) : symbolAmp n = BitVec.ofNat 32 (n.toNat % 32) := by
  apply BitVec.eq_of_toNat_eq
  simp [symbolAmp]

/-- Latching a symbol is three divisions of its number. -/
theorem State.latchSymbol_eq (s : State) (n : BitVec 12) : s.latchSymbol n = { s with
    symEnd := n.toNat / 2048 == 1
    symRun := BitVec.ofNat 32 (n.toNat / 32 % 64)
    symAmp := BitVec.ofNat 32 (n.toNat % 32) } := by
  rw [State.latchSymbol, symbolEnd_eq, symbolRun_eq, symbolAmp_eq]

/-! ### Instructions that read (R146, R162 to R166) -/

/-- The instruction `i` reads the bits `bs` and then has the effect `f`. -/
def Takes (s : State) (i : Instr) (bs : List Bool) (f : State → State) : Prop :=
  ∃ c, Cursor.Past s.cfg bs s.cursor c ∧ exec i s = .next (f { s with cursor := c })

/-- An instruction that is a read of `bs` and an effect takes `bs` where they are next. -/
theorem takes_of_reads {s : State} {i : Instr} {bs : List Bool} {f : State → State} {α : Type}
    {r : Cursor → ReadOut α} {v : α} (hr : ReadsCode s.cfg r bs v) (hok : s.cursor.ok s.cfg = true)
    (hpre : bs <+: s.cursor.ahead s.cfg) (hexec : exec i s = s.reading r fun t => .next (f t)) : Takes s i bs f := by
  obtain ⟨c, hc, hpast⟩ := hr s.cursor hok hpre
  exact ⟨c, hpast, hexec.trans (State.reading_ok hc _)⟩

/-- An instruction that takes its own code ends past it. -/
theorem Takes.past {s : State} {i : Instr} {f : State → State} (h : Takes s i (encode s.ctx i) f) :
    ∃ c, s.past i c = true ∧ exec i s = .next (f { s with cursor := c }) := by
  obtain ⟨c, hpast, hexec⟩ := h
  exact ⟨c, State.past_of_cursor hpast, hexec⟩

section
variable {s : State} (hok : s.cursor.ok s.cfg = true)
include hok

theorem takes_hsym {p : List Bool × Nat} (n : BitVec 12) (hcfg : s.cfg.wellFormed = true)
    (hp : p ∈ (s.cfg.res s.vlcidx).huff.tree.leaves) (hpre : p.1 <+: s.cursor.ahead s.cfg) :
    Takes s (.hsym n) p.1 fun t => t.latchSymbol n :=
  takes_of_reads (Cursor.huff_reads s.cfg (Config.res_wellFormed hcfg s.vlcidx) hp) hok hpre rfl

theorem takes_hsymT0x000 (hpre : printedCode000 <+: s.cursor.ahead s.cfg) :
    Takes s .hsymT0x000 printedCode000 fun t => t.latchSymbol 0x000 :=
  takes_of_reads (Cursor.skipBits_reads s.cfg printedCode000) hok hpre rfl

theorem takes_hsymT0x802 (hpre : printedCode802 <+: s.cursor.ahead s.cfg) :
    Takes s .hsymT0x802 printedCode802 fun t => t.latchSymbol 0x802 :=
  takes_of_reads (Cursor.skipBits_reads s.cfg printedCode802) hok hpre rfl

theorem takes_sign {f : Bool} (hpre : [f] <+: s.cursor.ahead s.cfg) :
    Takes s (.sign f) [f] fun t => { t with symAmp := if f then -t.symAmp else t.symAmp } :=
  takes_of_reads (Cursor.readBool_reads s.cfg f) hok hpre rfl

theorem takes_rawend {e : Bool} (hpre : [e] <+: s.cursor.ahead s.cfg) :
    Takes s (.rawend e) [e] fun t => { t with symEnd := e } :=
  takes_of_reads (Cursor.readBool_reads s.cfg e) hok hpre rfl

theorem takes_rawrun {r : BitVec 6} (hpre : bitsOf 6 r.toNat <+: s.cursor.ahead s.cfg) :
    Takes s (.rawrun r) (bitsOf 6 r.toNat) fun t => { t with symRun := BitVec.ofNat 32 r.toNat } :=
  takes_of_reads (Cursor.read_reads_bitsOf s.cfg (by decide) r.toNat) hok hpre (by simp only [BitVec.ofNat_toNat]; rfl)

theorem takes_rawamp {a : BitVec 12} (hpre : bitsOf 12 a.toNat <+: s.cursor.ahead s.cfg) :
    Takes s (.rawamp a) (bitsOf 12 a.toNat) fun t => { t with symAmp := BitVec.ofInt 32 a.toInt } :=
  takes_of_reads (Cursor.readSigned_reads s.cfg (by decide) a.toNat) hok hpre rfl

theorem takes_rsymAmpEsc (n : TSize) (hpre : [true] <+: s.cursor.ahead s.cfg) :
    Takes s (.rsymAmpEsc .select n) [true] fun t => t.push [.hsym, .op (.rsymAmpEsc .lookup n)] :=
  takes_of_reads (Cursor.skipBits_reads s.cfg [true]) hok hpre rfl

theorem takes_rsymRunEsc (n : TSize) (hpre : [false, true] <+: s.cursor.ahead s.cfg) :
    Takes s (.rsymRunEsc .select n) [false, true] fun t => t.push [.hsym, .op (.rsymRunEsc .lookup n)] :=
  takes_of_reads (Cursor.skipBits_reads s.cfg [false, true]) hok hpre rfl

theorem takes_rsymRaw (n : TSize) (hpre : [false, false] <+: s.cursor.ahead s.cfg) :
    Takes s (.rsymRaw n) [false, false] fun t =>
      t.push [.rawend, .rawrun, .rawamp, .op (.residualDecode .put n)] :=
  takes_of_reads (Cursor.skipBits_reads s.cfg [false, false]) hok hpre rfl

end

/-- Settles O11: each element takes its code (`takes_hsym` and its siblings), and a symbol's fields are three divisions of
its number (`State.latchSymbol_eq`). -/
theorem residualElementsLatched : Obligations.ResidualElementsLatched := by
  intro s
  refine ⟨fun i n hi hreads => ?_, fun f hreads => ?_, fun e hreads => ?_, fun r hreads => ?_, fun a hreads => ?_⟩ <;>
    obtain ⟨hcfg, hok, hwf, hpre⟩ := (s.reads_iff _).mp hreads
  · have htakes : Takes s i (encode s.ctx i) fun t => t.latchSymbol n := by
      rcases hi with rfl | ⟨rfl, rfl⟩ | ⟨rfl, rfl⟩
      · obtain ⟨v, hmem, -⟩ := HuffTree.codeOf_mem hwf
        exact takes_hsym hok n hcfg hmem hpre
      · exact takes_hsymT0x000 hok hpre
      · exact takes_hsymT0x802 hok hpre
    simpa only [State.latchSymbol_eq] using htakes.past
  · exact (takes_sign hok hpre).past
  · exact (takes_rawend hok hpre).past
  · exact (takes_rawrun hok hpre).past
  · exact (takes_rawamp hok hpre).past

/-! ### The ROM entries of the escapes (R164, R165) -/

theorem escAmpAt_eq {cfg : Config} {t e : Bool} {r : Word} (hr : r.toNat < 64) :
    escAmpAt cfg t e r = ((cfg.res t).escAmp[r.toNat + 64 * e.toNat]?).getD 0 := by
  have he := e.toNat_le
  have hlt : r.toNat + 64 * e.toNat < 128 := by omega
  simp [escAmpAt, Nat.mod_eq_of_lt hr, Nat.mod_eq_of_lt hlt, hlt]

theorem escRunAt_eq {cfg : Config} {t e : Bool} {a : Word} (ha : a.toNat < 32) :
    escRunAt cfg t e a = ((cfg.res t).escRun[a.toNat + 32 * e.toNat]?).getD 0 := by
  have he := e.toNat_le
  have hlt : a.toNat + 32 * e.toNat < 64 := by omega
  simp [escRunAt, Nat.mod_eq_of_lt ha, Nat.mod_eq_of_lt hlt, hlt]

/-- Settles O12: each escape takes its selector, and its index is within the ROM (`escAmpAt_eq`, `escRunAt_eq`). -/
theorem residualFormsSchedule : Obligations.ResidualFormsSchedule := by
  intro s n
  refine ⟨rfl, fun hreads => ?_, fun hreads => ?_, fun hreads => ?_, fun hrun => ?_, fun hamp => ?_⟩
  · obtain ⟨-, hok, -, hpre⟩ := (s.reads_iff _).mp hreads
    exact (takes_rsymAmpEsc hok n hpre).past
  · obtain ⟨-, hok, -, hpre⟩ := (s.reads_iff _).mp hreads
    exact (takes_rsymRunEsc hok n hpre).past
  · obtain ⟨-, hok, -, hpre⟩ := (s.reads_iff _).mp hreads
    exact (takes_rsymRaw hok n hpre).past
  · rw [← escAmpAt_eq hrun]
    rfl
  · rw [← escRunAt_eq hamp]
    rfl

end Machine

end Sys2Proof
end

section
/-! ## The escapes of a residual symbol, from selector to write (R162 to R166) -/

namespace Sys2Proof

/-- At `HSYM` the codeword of a leaf decodes to an instruction of its symbol: one of the two rows of R147, or `HSYM n`. -/
theorem decode_hsym_leaf {x : DecodeCtx} {c : Cursor} {p : List Bool × Nat} (hcfg : x.cfg.wellFormed = true)
    (hok : c.ok x.cfg = true) (hp : p ∈ (x.cfg.res x.vlc).huff.tree.leaves) (hpre : p.1 <+: c.ahead x.cfg) :
    decode x c .hsym = .instr .hsymT0x000 ∧ p = (printedCode000, 0x000)
      ∨ decode x c .hsym = .instr .hsymT0x802 ∧ p = (printedCode802, 0x802)
      ∨ decode x c .hsym = .instr (.hsym (BitVec.ofNat 12 p.2)) := by
  by_cases h000 : c.atPrinted x printedCode000 0x000 = true
  · obtain ⟨-, hleaf⟩ := eq_of_atPrinted hcfg hok hp hpre (by decide) h000
    exact .inl ⟨by simp only [decode, decodeHsym, if_pos h000], hleaf⟩
  by_cases h802 : c.atPrinted x printedCode802 0x802 = true
  · obtain ⟨-, hleaf⟩ := eq_of_atPrinted hcfg hok hp hpre (by decide) h802
    exact .inr (.inl ⟨by simp only [decode, decodeHsym, if_neg h000, if_pos h802], hleaf⟩)
  · have hwalk := (Cursor.huff_reads x.cfg (Config.res_wellFormed hcfg x.vlc) hp).decoded hok hpre
      fun v => .hsym (BitVec.ofNat 12 v)
    exact .inr (.inr (by simp only [decode, decodeHsym, if_neg h000, if_neg h802, hwalk]))

namespace Machine

/-! ### Runs over a part of the stream -/

/-- `k` steps from `s` read the bits `bs` and end in `t`, where the bits `bs'` are next. -/
structure Reaches (k : Nat) (s t : State) (bs bs' : List Bool) : Prop where
  steps : steps k s = .next t
  cfg : t.cfg = s.cfg
  past : Cursor.Past s.cfg bs s.cursor t.cursor
  next : bs' <+: t.cursor.ahead t.cfg

theorem Reaches.refl {s : State} {bs : List Bool} (hok : s.cursor.ok s.cfg = true)
    (hpre : bs.isPrefixOf (s.cursor.ahead s.cfg) = true) : Reaches 0 s s [] bs :=
  ⟨rfl, rfl, .nil hok, List.isPrefixOf_iff_prefix.mp hpre⟩

/-- One step more. -/
theorem steps_succ_of_steps {t : State} : ∀ (k : Nat) {s : State}, steps k s = .next t → steps (k + 1) s = step t
  | 0, s, h => by
    cases h
    simp only [steps]
    cases step t <;> rfl
  | k + 1, s, h => by
    rw [steps] at h ⊢
    cases hs : step s with
    | next u =>
      rw [hs] at h
      exact steps_succ_of_steps k h
    | fault | refused =>
      rw [hs] at h
      cases h

section
variable {k : Nat} {s t : State} {bs bs₁ bs' : List Bool} {rest : List Sys2Proof.Task}

theorem Reaches.ok (h : Reaches k s t bs bs') : t.cursor.ok t.cfg = true := h.cfg ▸ h.past.ok

/-- The first of the bits that are next. -/
theorem Reaches.code (h : Reaches k s t bs (bs₁ ++ bs')) : bs₁ <+: t.cursor.ahead t.cfg :=
  (List.prefix_append _ _).trans h.next

/-- The next step runs the instruction decoded, which takes its bits. -/
theorem Reaches.step {x : Sys2Proof.Task} {i : Instr} {f : State → State} (h : Reaches k s t bs (bs₁ ++ bs'))
    (ha : t.agenda = x :: rest) (hd : decode t.ctx t.cursor x = .instr i) (hi : Takes { t with agenda := rest } i bs₁ f)
    (hf : ∀ u, (f u).cfg = u.cfg ∧ (f u).cursor = u.cursor) :
    ∃ c, Reaches (k + 1) s (f { t with agenda := rest, cursor := c }) (bs ++ bs₁) bs' := by
  obtain ⟨c, hpast, hexec⟩ := hi
  obtain ⟨hcfg, hcursor⟩ := hf { t with agenda := rest, cursor := c }
  refine ⟨c, ?_, hcfg.trans h.cfg, ?_, ?_⟩
  · simp only [steps_succ_of_steps k h.steps, step_eq, fetch_run ha hd, hexec]
  · rw [hcursor]
    exact h.past.append (h.cfg ▸ hpast)
  · rw [hcfg, hcursor]
    exact hpast.next h.next

/-! ### The elements of a residual symbol, a step each -/

theorem Reaches.hsym {p : List Bool × Nat} (h : Reaches k s t bs (p.1 ++ bs')) (ha : t.agenda = .hsym :: rest)
    (hcfg : t.cfg.wellFormed = true) (hp : p ∈ (t.cfg.res t.vlcidx).huff.tree.leaves) :
    ∃ c, Reaches (k + 1) s (State.latchSymbol { t with agenda := rest, cursor := c } (BitVec.ofNat 12 p.2))
      (bs ++ p.1) bs' := by
  rcases decode_hsym_leaf (x := t.ctx) hcfg h.ok hp h.code with ⟨hd, rfl⟩ | ⟨hd, rfl⟩ | hd
  · exact h.step ha hd (takes_hsymT0x000 (s := { t with agenda := rest }) h.ok h.code) fun _ => ⟨rfl, rfl⟩
  · exact h.step ha hd (takes_hsymT0x802 (s := { t with agenda := rest }) h.ok h.code) fun _ => ⟨rfl, rfl⟩
  · exact h.step ha hd (takes_hsym (s := { t with agenda := rest }) h.ok _ hcfg hp h.code) fun _ => ⟨rfl, rfl⟩

theorem Reaches.sign {f : Bool} (h : Reaches k s t bs ([f] ++ bs')) (ha : t.agenda = .sign :: rest) :
    ∃ c, Reaches (k + 1) s { t with agenda := rest, cursor := c, symAmp := if f then -t.symAmp else t.symAmp }
      (bs ++ [f]) bs' :=
  h.step ha ((Cursor.readBool_reads t.cfg f).decoded h.ok h.code _)
    (takes_sign (s := { t with agenda := rest }) h.ok h.code) fun _ => ⟨rfl, rfl⟩

theorem Reaches.rawend {e : Bool} (h : Reaches k s t bs ([e] ++ bs')) (ha : t.agenda = .rawend :: rest) :
    ∃ c, Reaches (k + 1) s { t with agenda := rest, cursor := c, symEnd := e } (bs ++ [e]) bs' :=
  h.step ha ((Cursor.readBool_reads t.cfg e).decoded h.ok h.code _)
    (takes_rawend (s := { t with agenda := rest }) h.ok h.code) fun _ => ⟨rfl, rfl⟩

theorem Reaches.rawrun {r : BitVec 6} (h : Reaches k s t bs (bitsOf 6 r.toNat ++ bs')) (ha : t.agenda = .rawrun :: rest) :
    ∃ c, Reaches (k + 1) s { t with agenda := rest, cursor := c, symRun := BitVec.ofNat 32 r.toNat }
      (bs ++ bitsOf 6 r.toNat) bs' :=
  h.step ha (decoded_unsigned (x := t.ctx) h.ok (by decide) r _ h.code)
    (takes_rawrun (s := { t with agenda := rest }) h.ok h.code) fun _ => ⟨rfl, rfl⟩

theorem Reaches.rawamp {a : BitVec 12} (h : Reaches k s t bs (bitsOf 12 a.toNat ++ bs'))
    (ha : t.agenda = .rawamp :: rest) :
    ∃ c, Reaches (k + 1) s { t with agenda := rest, cursor := c, symAmp := BitVec.ofInt 32 a.toInt }
      (bs ++ bitsOf 12 a.toNat) bs' :=
  h.step ha (decode_rawamp (x := t.ctx) h.ok h.code)
    (takes_rawamp (s := { t with agenda := rest }) h.ok h.code) fun _ => ⟨rfl, rfl⟩

variable {n : TSize}

theorem Reaches.ampSelector (h : Reaches k s t bs ([true] ++ bs')) (ha : t.agenda = .form n :: rest)
    (hamp : t.symAmp = 0) :
    ∃ c, Reaches (k + 1) s { t with agenda := .hsym :: .op (.rsymAmpEsc .lookup n) :: rest, cursor := c }
      (bs ++ [true]) bs' :=
  h.step ha (decode_ampEscape (x := t.ctx) h.ok hamp h.code)
    (takes_rsymAmpEsc (s := { t with agenda := rest }) h.ok n h.code) fun _ => ⟨rfl, rfl⟩

theorem Reaches.runSelector (h : Reaches k s t bs ([false, true] ++ bs')) (ha : t.agenda = .form n :: rest)
    (hamp : t.symAmp = 0) :
    ∃ c, Reaches (k + 1) s { t with agenda := .hsym :: .op (.rsymRunEsc .lookup n) :: rest, cursor := c }
      (bs ++ [false, true]) bs' :=
  h.step ha (decode_secondSelector (x := t.ctx) h.ok true hamp h.code)
    (takes_rsymRunEsc (s := { t with agenda := rest }) h.ok n h.code) fun _ => ⟨rfl, rfl⟩

theorem Reaches.rawSelector (h : Reaches k s t bs ([false, false] ++ bs')) (ha : t.agenda = .form n :: rest)
    (hamp : t.symAmp = 0) :
    ∃ c, Reaches (k + 1) s
      { t with agenda := .rawend :: .rawrun :: .rawamp :: .op (.residualDecode .put n) :: rest, cursor := c }
      (bs ++ [false, false]) bs' :=
  h.step ha (decode_secondSelector (x := t.ctx) h.ok false hamp h.code)
    (takes_rsymRaw (s := { t with agenda := rest }) h.ok n h.code) fun _ => ⟨rfl, rfl⟩

/-- An operation that reads nothing. -/
theorem Reaches.op {i : Instr} {f : State → State} (h : Reaches k s t bs bs') (ha : t.agenda = .op i :: rest)
    (hi : ∀ u, exec i u = .next (f u)) (hf : ∀ u, (f u).cfg = u.cfg ∧ (f u).cursor = u.cursor) :
    Reaches (k + 1) s (f { t with agenda := rest }) bs bs' := by
  obtain ⟨hcfg, hcursor⟩ := hf { t with agenda := rest }
  refine ⟨?_, hcfg.trans h.cfg, ?_, ?_⟩
  · simp only [steps_succ_of_steps k h.steps, step_eq, fetch_run ha rfl, hi]
  · rw [hcursor]
    exact h.past
  · rw [hcfg, hcursor]
    exact h.next

theorem Reaches.ampLookup (h : Reaches k s t bs bs') (ha : t.agenda = .op (.rsymAmpEsc .lookup n) :: rest) :
    Reaches (k + 1) s { t with
      agenda := .sign :: .op (.residualDecode .put n) :: rest
      symAmp := t.symAmp + escAmpAt t.cfg t.vlcidx t.symEnd t.symRun } bs bs' :=
  h.op ha (fun _ => rfl) fun _ => ⟨rfl, rfl⟩

theorem Reaches.runLookup (h : Reaches k s t bs bs') (ha : t.agenda = .op (.rsymRunEsc .lookup n) :: rest) :
    Reaches (k + 1) s { t with
      agenda := .sign :: .op (.residualDecode .put n) :: rest
      symRun := t.symRun + escRunAt t.cfg t.vlcidx t.symEnd t.symAmp } bs bs' :=
  h.op ha (fun _ => rfl) fun _ => ⟨rfl, rfl⟩

end

/-! ### The raw escape (R166) -/

/-- Settles O14: the selector and the three fields, one step each. -/
theorem rawEscapeRuns : Obligations.RawEscapeRuns := by
  intro s n rest e r a hok ha hamp hpre
  have h₀ : Reaches 0 s s [] ([false, false] ++ ([e] ++ (bitsOf 6 r.toNat ++ (bitsOf 12 a.toNat ++ [])))) :=
    .refl hok (by rwa [List.append_nil])
  obtain ⟨c₁, h₁⟩ := h₀.rawSelector ha hamp
  obtain ⟨c₂, h₂⟩ := h₁.rawend rfl
  obtain ⟨c₃, h₃⟩ := h₂.rawrun rfl
  obtain ⟨c, h⟩ := h₃.rawamp rfl
  exact ⟨c, h.past.input, h.past.bitpos.trans (by simp [length_bitsOf]), h.past.ok, h.steps⟩

/-! ### The escapes with a ROM entry (R164, R165) -/

/-- The end bit of a symbol's number (R94). -/
theorem toNat_endBit {v : Nat} (hv : v < 4096) : (v / 2048 == 1).toNat = v / 2048 := by
  have hbit : v / 2048 = 0 ∨ v / 2048 = 1 := by omega
  rcases hbit with h | h <;> rw [h] <;> rfl

section
variable {cfg : Config} {t : Bool} {v : Nat} (hv : v < 4096)
include hv

/-- The entry the amplitude escape adds, in terms of the symbol's number. -/
theorem escAmpAt_symbol : escAmpAt cfg t (v / 2048 == 1) (BitVec.ofNat 32 (v / 32 % 64))
    = ((cfg.res t).escAmp[v / 32 % 64 + 64 * (v / 2048)]?).getD 0 := by
  have hrun : (BitVec.ofNat 32 (v / 32 % 64)).toNat = v / 32 % 64 := Nat.mod_eq_of_lt (by omega)
  rw [escAmpAt_eq (by omega), hrun, toNat_endBit hv]

/-- The entry the run escape adds, in terms of the symbol's number. -/
theorem escRunAt_symbol : escRunAt cfg t (v / 2048 == 1) (BitVec.ofNat 32 (v % 32))
    = ((cfg.res t).escRun[v % 32 + 32 * (v / 2048)]?).getD 0 := by
  have hamp : (BitVec.ofNat 32 (v % 32)).toNat = v % 32 := Nat.mod_eq_of_lt (by omega)
  rw [escRunAt_eq (by omega), hamp, toNat_endBit hv]

end

/-- Settles O13: the selector, the second symbol, the look-up and the sign, one step each. -/
theorem romEscapesRun : Obligations.RomEscapesRun := by
  intro s n rest p sg hcfg hok ha hamp hp
  have hv : p.2 < 4096 := Config.symbol_lt hcfg hp
  have hsymbol : (BitVec.ofNat 12 p.2).toNat = p.2 := Nat.mod_eq_of_lt hv
  refine ⟨fun hpre => ?_, fun hpre => ?_⟩
  · have h₀ : Reaches 0 s s [] ([true] ++ (p.1 ++ ([sg] ++ []))) := .refl hok hpre
    obtain ⟨c₁, h₁⟩ := h₀.ampSelector ha hamp
    obtain ⟨c₂, h₂⟩ := h₁.hsym rfl hcfg hp
    obtain ⟨c, h⟩ := (h₂.ampLookup rfl).sign rfl
    refine ⟨c, h.past.input, h.past.bitpos.trans ?_, h.past.ok, h.steps.trans ?_⟩
    · simp only [List.nil_append, List.length_append, List.length_cons, List.length_nil]
      omega
    · simp only [State.latchSymbol_eq, hsymbol, escAmpAt_symbol hv]
  · have h₀ : Reaches 0 s s [] ([false, true] ++ (p.1 ++ ([sg] ++ []))) := .refl hok hpre
    obtain ⟨c₁, h₁⟩ := h₀.runSelector ha hamp
    obtain ⟨c₂, h₂⟩ := h₁.hsym rfl hcfg hp
    obtain ⟨c, h⟩ := (h₂.runLookup rfl).sign rfl
    refine ⟨c, h.past.input, h.past.bitpos.trans ?_, h.past.ok, h.steps.trans ?_⟩
    · simp only [List.nil_append, List.length_append, List.length_cons, List.length_nil]
      omega
    · simp only [State.latchSymbol_eq, hsymbol, escRunAt_symbol hv]

end Machine

end Sys2Proof
end

section
/-! ## The block of coefficients: its clearing, and the write and advance (R161, R167) -/

namespace Sys2Proof.Machine

/-- Settles O10: clearing is `matMap` with the constant 0 (`matAt_matMap`). -/
theorem residualDecodeBegins : Obligations.ResidualDecodeBegins := fun s n =>
  ⟨matMap s.mat n fun _ => 0, rfl, fun i hi => by rw [matAt_matMap, if_pos hi],
    fun i hi => by rw [matAt_matMap, if_neg hi.not_gt]⟩

/-- One coefficient stored: it is read back at its index and nowhere else. -/
theorem matAt_set (m : Vector Word 64) (k : Fin 64) (a : Word) (i : Nat) :
    matAt (m.set k a) i = if i = k then a else matAt m i := by
  rw [matAt, matAt, Vector.getElem?_set]
  grind

/-- Inside the block the zig-zag cursor names the raster index of the table (R167). -/
theorem zigzagAt_inside (cfg : Config) {n : TSize} {pos : Word} (hnonneg : 0 ≤ pos.toInt) (hlt : pos.toInt < n.len) :
    ∃ k : Fin 64, zigzagAt cfg n pos = some k ∧ k.val = zigzag cfg n pos.toNat := by
  have hnat : pos.toNat < n.len := by
    have hint := pos.toInt_eq_toNat_cond
    split at hint <;> omega
  simp only [zigzagAt, zigzag, if_neg hnonneg.not_gt]
  cases n with
  | four =>
    have hentry : cfg.zz4[pos.toNat]? = some cfg.zz4[pos.toNat] := Vector.getElem?_eq_getElem hnat
    rw [hentry]
    exact ⟨_, rfl, Nat.mod_eq_of_lt (by omega)⟩
  | eight =>
    have hentry : cfg.zz8[pos.toNat]? = some cfg.zz8[pos.toNat] := Vector.getElem?_eq_getElem hnat
    rw [hentry]
    exact ⟨_, rfl, rfl⟩

/-- Below `N*N` the cursor moves past the run, the coefficient it names is stored, and the block ends or the next symbol
follows. -/
theorem exec_put_of_lt {s : State} {n : TSize} (h : (s.zpos + s.symRun).toInt < n.len) :
    exec (.residualDecode .put n) s = .next { s with
      mat := storeCoefficient s.mat (zigzagAt s.cfg n (s.zpos + s.symRun)) s.symAmp
      zpos := s.zpos + s.symRun + 1
      agenda := if s.symEnd then s.agenda else [.hsym, .form n] ++ s.agenda } := by
  simp only [exec, execResidualDecode, putCoefficient, if_neg h.not_ge]
  cases s.symEnd <;> rfl

/-- At or past `N*N` the step takes a `FormatError`. -/
theorem exec_put_of_le {s : State} {n : TSize} (h : (n.len : Int) ≤ (s.zpos + s.symRun).toInt) :
    exec (.residualDecode .put n) s = .next (State.raise { s with zpos := s.zpos + s.symRun } .formatError) := by
  simp only [exec, execResidualDecode, putCoefficient, if_pos h, State.trap_eq]

/-- Settles O15: the two sides of the bound. -/
theorem coefficientPut : Obligations.CoefficientPut := by
  refine fun s n => ⟨fun hnonneg hlt => ?_, exec_put_of_le⟩
  obtain ⟨k, hk, hval⟩ := zigzagAt_inside s.cfg hnonneg hlt
  refine ⟨_, exec_put_of_lt hlt, ?_, fun i hi => ?_⟩ <;> rw [hk, storeCoefficient, matAt_set]
  · rw [if_pos hval.symm]
  · rw [if_neg (hval ▸ hi)]

end Sys2Proof.Machine
end

section
/-! ## The inverse quantizer and the inverse transform (R180 to R187, R190) -/

namespace Sys2Proof

/-! ### Raster indices (R11) -/

section
variable {n : TSize} {r c : Nat}

theorem TSize.len_eq (n : TSize) : n.len = n.n * n.n := by cases n <;> rfl

theorem TSize.n_pos (n : TSize) : 0 < n.n := by cases n <;> decide

theorem TSize.raster_lt (hr : r < n.n) (hc : c < n.n) : r * n.n + c < n.len := by
  cases n <;> simp only [TSize.n, TSize.len] at * <;> omega

/-- Every index of the block is that of a row and a column. -/
theorem TSize.exists_raster {i : Nat} (hi : i < n.len) : ∃ r c, r < n.n ∧ c < n.n ∧ i = r * n.n + c := by
  rw [TSize.len_eq] at hi
  exact ⟨i / n.n, i % n.n, Nat.div_lt_of_lt_mul hi, Nat.mod_lt i n.n_pos, (Nat.div_add_mod' i n.n).symm⟩

theorem TSize.raster_div (hc : c < n.n) : (r * n.n + c) / n.n = r := by
  cases n <;> simp only [TSize.n] at * <;> omega

theorem TSize.raster_mod (hc : c < n.n) : (r * n.n + c) % n.n = c := by
  rw [Nat.mul_add_mod_self_right, Nat.mod_eq_of_lt hc]

end

namespace Machine

/-! ### Dequantization (R180, R190) -/

/-- Settles O17: the product by the scale is written below `N*N` and nowhere else (`matAt_matMap`). -/
theorem dequantizeScales : Obligations.DequantizeScales := fun s =>
  ⟨⟨_, rfl, fun i hi => by rw [matAt_matMap, if_pos hi]; rfl, fun i hi => by rw [matAt_matMap, if_neg hi.not_gt]⟩,
    _, rfl, fun i hi => by rw [matAt_matMap, if_pos hi]; rfl⟩

/-! ### The stages of the transform (R181 to R186) -/

theorem matAt_addBias (m : Vector Word 64) (i : Nat) :
    matAt (addBias m) i = if i = 0 then matAt m 0 + 32 else matAt m i := matAt_set m 0 _ i

section
variable {n : TSize} {r c : Nat} (m : Vector Word 64) (hr : r < n.n) (hc : c < n.n)
include hr hc

theorem matAt_rowPass : matAt (rowPass n m) (r * n.n + c) = (rowButterfly n m r).getD c 0 := by
  rw [rowPass, matAt_matMap, if_pos (TSize.raster_lt hr hc), TSize.raster_div hc, TSize.raster_mod hc]

theorem matAt_transposeMat : matAt (transposeMat n m) (r * n.n + c) = matAt m (c * n.n + r) := by
  rw [transposeMat, matAt_matMap, if_pos (TSize.raster_lt hr hc), TSize.raster_div hc, TSize.raster_mod hc]

end

theorem matAt_descale (n : TSize) (m : Vector Word 64) {i : Nat} (hi : i < n.len) :
    matAt (descale n m) i = sar (matAt m i) 6 := by rw [descale, matAt_matMap, if_pos hi]

/-- `>>` is floor division by a power of two, also of a negative number (R8, R186). -/
theorem toInt_sar (a : Word) (k : Nat) : (sar a k).toInt = a.toInt / 2 ^ k := by
  rw [sar, BitVec.toInt_sshiftRight, Int.shiftRight_eq_div_pow]
  norm_cast

/-- The transform leaves what lies past the block. -/
theorem matAt_inverseTransformMat_of_le {n : TSize} (m : Vector Word 64) {i : Nat} (hi : n.len ≤ i) :
    matAt (inverseTransformMat n m) i = matAt m i := by
  have hpos : i ≠ 0 := by cases n <;> simp only [TSize.len] at hi <;> omega
  simp only [inverseTransformMat, descale, rowPass, transposeMat, matAt_matMap, if_neg hi.not_gt, matAt_addBias,
    if_neg hpos]

/-- Settles O18: the matrices are those between the five stages of `inverseTransformMat`. -/
theorem inverseTransformStages : Obligations.InverseTransformStages := by
  refine ⟨fun s n => ?stages, fun m r _ => ?four, fun m r _ => ?eight⟩
  case stages =>
    let m₁ := addBias s.mat
    let m₂ := rowPass n m₁
    let m₃ := transposeMat n m₂
    refine ⟨m₁, m₂, m₃, rowPass n m₃, descale n (rowPass n m₃), matAt_addBias s.mat 0, fun i hi => ?bias,
      fun _ _ => matAt_rowPass m₁, fun _ _ => matAt_transposeMat m₂, fun _ _ => matAt_rowPass m₃, fun i hi => ?descale,
      fun _ => matAt_inverseTransformMat_of_le s.mat, rfl⟩
    case bias => rw [matAt_addBias, if_neg hi.ne']
    case descale =>
      rw [matAt_descale n _ hi, toInt_sar]
      rfl
  case four =>
    simp only [rowButterfly, butterfly4, Nat.mul_comm 4 r, Nat.add_zero]
  case eight =>
    intro x e o₀ o₁ o₂ o₃ p k hk
    simp only [x, e, o₀, o₁, o₂, o₃, p, rowButterfly, butterfly8, butterfly4, Nat.mul_comm 8 r, Nat.add_zero]
    interval_cases k <;> exact ⟨rfl, rfl⟩

/-! ### A block with a DC coefficient alone (R187) -/

theorem butterfly4_dc (v : Word) : butterfly4 v 0 0 0 = List.replicate 4 v := by
  simp [butterfly4, sar, List.replicate]

theorem butterfly8_dc (v : Word) : butterfly8 v 0 0 0 0 0 0 0 = List.replicate 8 v := by
  simp [butterfly8, butterfly4, sar, List.replicate]

/-- A row `(v, 0, …, 0)` maps to `(v, v, …, v)`. -/
theorem rowButterfly_of_dc {n : TSize} {m : Vector Word 64} {r : Nat}
    (hrow : ∀ c, 0 < c → c < n.n → matAt m (r * n.n + c) = 0) :
    rowButterfly n m r = List.replicate n.n (matAt m (r * n.n)) := by
  cases n with
  | four =>
    rw [rowButterfly, hrow 1, hrow 2, hrow 3, butterfly4_dc] <;> decide
  | eight =>
    rw [rowButterfly, hrow 1, hrow 2, hrow 3, hrow 4, hrow 5, hrow 6, hrow 7, butterfly8_dc] <;> decide

/-- A row pass over a block with all but its first column 0 spreads that column over the rows. -/
theorem matAt_rowPass_of_dc {n : TSize} {m : Vector Word 64}
    (hm : ∀ r c, r < n.n → 0 < c → c < n.n → matAt m (r * n.n + c) = 0) {r c : Nat} (hr : r < n.n) (hc : c < n.n) :
    matAt (rowPass n m) (r * n.n + c) = matAt m (r * n.n) := by
  rw [matAt_rowPass m hr hc, rowButterfly_of_dc fun k => hm r k hr]
  exact List.getD_replicate _ hc

/-- With the bias added, the first coefficient is the only one of the block that may not be 0. -/
theorem matAt_addBias_of_dc {n : TSize} {m : Vector Word 64} (hdc : ∀ i, 0 < i → i < n.len → matAt m i = 0) {r c : Nat}
    (hr : r < n.n) (hc : c < n.n) (hpos : 0 < r + c) : matAt (addBias m) (r * n.n + c) = 0 := by
  have hindex : 0 < r * n.n + c := by
    cases n <;> simp only [TSize.n] <;> omega
  rw [matAt_addBias, if_neg hindex.ne', hdc _ hindex (TSize.raster_lt hr hc)]

/-- Settles O19: the first pass spreads the biased coefficient over row 0, the transposition makes it column 0, and the
second pass spreads it over every row. -/
theorem dcOnlyBlockIsFlat : Obligations.DcOnlyBlockIsFlat := by
  intro s n hdc
  refine ⟨_, rfl, fun i hi => ?_⟩
  have hcolumn : ∀ r c, r < n.n → c < n.n →
      matAt (transposeMat n (rowPass n (addBias s.mat))) (r * n.n + c) = matAt (addBias s.mat) (c * n.n) := by
    intro r c hr hc
    rw [matAt_transposeMat _ hr hc,
      matAt_rowPass_of_dc (fun r c hr hpos hc => matAt_addBias_of_dc hdc hr hc (Nat.add_pos_right r hpos)) hc hr]
  have hzero : ∀ r c, r < n.n → 0 < c → c < n.n →
      matAt (transposeMat n (rowPass n (addBias s.mat))) (r * n.n + c) = 0 := fun r c hr hpos hc =>
    (hcolumn r c hr hc).trans (matAt_addBias_of_dc hdc hc n.n_pos hpos)
  obtain ⟨r, c, hr, hc, rfl⟩ := TSize.exists_raster hi
  calc matAt (inverseTransformMat n s.mat) (r * n.n + c)
      = sar (matAt (transposeMat n (rowPass n (addBias s.mat))) (r * n.n)) 6 := by
        rw [inverseTransformMat, matAt_descale n _ hi, matAt_rowPass_of_dc hzero hr hc]
    _ = sar (matAt (addBias s.mat) (0 * n.n)) 6 := by rw [← hcolumn r 0 hr n.n_pos, Nat.add_zero]
    _ = sar (matAt s.mat 0 + 32) 6 := by rw [Nat.zero_mul, matAt_addBias, if_pos rfl]

end Machine

end Sys2Proof
end

section
/-! ## `ApplyResidual`: its schedule, and the add and clamp (R188, R189) -/

namespace Sys2Proof.Machine

/-! ### Pixel writes that read the pixel they write -/

theorem coords_nodup (w h : Nat) : (coords w h).Nodup := by
  rw [coords, List.nodup_flatMap]
  refine ⟨fun y _ => List.nodup_range.map fun a b h => (Prod.ext_iff.mp h).1, List.nodup_range.imp fun {a b} hne => ?_⟩
  simp [List.disjoint_left, hne.symm]

theorem State.samePixelsAside.trans {s t u : State} (h : s.samePixelsAside t) (k : t.samePixelsAside u) :
    s.samePixelsAside u := by
  unfold State.samePixelsAside at *
  rw [k, h]

theorem State.samePixelsAside_storeByte (s : State) (a : Nat) (v : Byte) : s.samePixelsAside (s.storeByte a v) := rfl

/-- A run over distinct pixels whose values depend on nothing the run writes but the pixel itself writes the values of its
first state. -/
theorem State.paint_eq_const (p : Plane) (x0 y0 : Nat) (f : State → Nat → Nat → Option Byte) (v : Nat → Nat → Byte) :
    ∀ (cs : List (Nat × Nat)) (s : State), cs.Nodup →
      (∀ c ∈ cs, x0 + c.1 < planeWidth s.cfg p ∧ y0 + c.2 < planeHeight s.cfg p) →
      (∀ t, s.samePixelsAside t → ∀ c ∈ cs,
        t.byteAt 0 (pixAddr s.cfg p (x0 + c.1) (y0 + c.2)) = s.byteAt 0 (pixAddr s.cfg p (x0 + c.1) (y0 + c.2)) →
        f t c.1 c.2 = some (v c.1 c.2)) →
      State.paint p x0 y0 f cs s = State.paint p x0 y0 (fun _ x y => some (v x y)) cs s
  | [], _, _, _, _ => rfl
  | (x, y) :: rest, s, hnodup, hin, hf => by
    obtain ⟨hnew, hrest⟩ := List.nodup_cons.mp hnodup
    have hxy := hin (x, y) List.mem_cons_self
    have hv : f s x y = some (v x y) := hf s rfl (x, y) List.mem_cons_self rfl
    simp only [State.paint, hv, State.setPix_eq, if_pos hxy]
    refine State.paint_eq_const p x0 y0 f v rest _ hrest (fun c hc => hin c (List.mem_cons_of_mem _ hc))
      fun t ht c hc hread => hf t ((s.samePixelsAside_storeByte _ _).trans ht) c (List.mem_cons_of_mem _ hc) ?_
    refine hread.trans ((s.byteAt_storeByte _ _ _).trans (if_neg fun haddr => ?_))
    obtain ⟨hx, hy⟩ := pixAddr_inj s.cfg p (hin c (List.mem_cons_of_mem _ hc)).1 hxy.1 haddr
    exact hnew ((Prod.ext (Nat.add_left_cancel hx) (Nat.add_left_cancel hy) : c = (x, y)) ▸ hc)

/-! ### The add and clamp (R188) -/

theorem clampByte_eq (a : Word) : clampByte a = BitVec.ofInt 8 (max 0 (min 255 a.toInt)) := by
  unfold clampByte
  split
  · rw [max_eq_left (by omega)]; rfl
  · split
    · rw [min_eq_left (by omega)]; rfl
    · rw [min_eq_right (by omega), max_eq_right (by omega)]

/-- The pixel at `(i, j)` of the block with its residual added and clamped, the pixel read from `s`. -/
def State.addClampAt (s : State) (p : Plane) (x y : Nat) (n : TSize) (i j : Nat) : Byte :=
  addClamp (s.byteAt 0 (pixAddr s.cfg p (x + i) (y + j))) (matAt s.mat (j * n.n + i))

/-- The block of `PredictBlock` with the place and size of a residual block. -/
def residualBlock (p : Plane) (x y : Nat) (n : TSize) : Block :=
  { plane := p, x := x, y := y, size := match n with | .four => .four | .eight => .eight }

theorem residualBlock_size (p : Plane) (x y : Nat) (n : TSize) : (residualBlock p x y n).size.n = n.n := by cases n <;> rfl

/-- Inside its plane `AddResidual` writes the block as a prediction of these bytes would: each pixel is read before it is
written, and no other write reaches it. -/
theorem addResidual_eq_predict (s : State) (p : Plane) (x y : Nat) (n : TSize) (hx : x + n.n ≤ planeWidth s.cfg p)
    (hy : y + n.n ≤ planeHeight s.cfg p) :
    addResidual p x y n s = s.predict (residualBlock p x y n) fun i j => (s.addClampAt p x y n i j).toNat := by
  have hin : ∀ c ∈ coords n.n n.n, x + c.1 < planeWidth s.cfg p ∧ y + c.2 < planeHeight s.cfg p := fun c hc => by
    have hm := mem_coords.mp (show (c.1, c.2) ∈ _ from hc)
    omega
  rw [addResidual, State.paint_eq_const p x y _ (s.addClampAt p x y n) _ s (coords_nodup _ _) hin fun t ht c hc hread => ?_]
  · simp only [State.predict, residualBlock_size, BitVec.ofNat_toNat, BitVec.setWidth_eq]
    rfl
  · have hcfg : t.cfg = s.cfg := by rw [ht]
    have hmat : t.mat = s.mat := by rw [ht]
    obtain ⟨hcx, hcy⟩ := hin c hc
    rw [State.pix_of_inside t 0 p _ _ (hcfg ▸ hcx) (hcfg ▸ hcy), hcfg, hread, hmat]
    rfl

/-- Settles O20: the schedule is the entry's own; the add is the prediction of the clamped sums. -/
theorem residualIsAddedAndClamped : Obligations.ResidualIsAddedAndClamped := by
  refine fun s p x y n => ⟨rfl, fun hx hy => ?_⟩
  have hinside : (residualBlock p x y n).inside s.cfg = true := by
    simp only [Block.inside, residualBlock_size, Bool.and_eq_true, decide_eq_true_eq]
    exact ⟨hx, hy⟩
  obtain ⟨t, hnext, hpainted⟩ := s.predict_painted (residualBlock p x y n)
    (fun i j => (s.addClampAt p x y n i j).toNat) hinside
  simp only [residualBlock_size, BitVec.ofNat_toNat, BitVec.setWidth_eq, State.addClampAt, addClamp, clampByte_eq]
    at hpainted
  exact ⟨t, (addResidual_eq_predict s p x y n hx hy).trans hnext, hpainted⟩

end Sys2Proof.Machine
end

section
/-! ## Intra prediction: the bytes around a block, and the copying modes (R65, R205 to R208, R215) -/

namespace Sys2Proof

/-! ### The neighbours of a block inside its plane (R65) -/

theorem PSize.four_le (n : PSize) : 4 ≤ n.n := by cases n <;> decide

theorem Block.inside_iff (cfg : Config) (b : Block) : b.inside cfg = true ↔
    b.x + b.size.n ≤ Machine.planeWidth cfg b.plane ∧ b.y + b.size.n ≤ Machine.planeHeight cfg b.plane := by
  simp only [Block.inside, Bool.and_eq_true, decide_eq_true_eq]

namespace Machine

/-- The bytes of the row above a block, `n` of them. -/
def State.rowAbove (s : State) (b : Block) (n : Nat) : List Byte :=
  (List.range n).map fun i => s.byteAt 0 (pixAddr s.cfg b.plane (b.x + i) (b.y - 1))

/-- The bytes of the column to the left of a block, `n` of them. -/
def State.colBeside (s : State) (b : Block) (n : Nat) : List Byte :=
  (List.range n).map fun j => s.byteAt 0 (pixAddr s.cfg b.plane (b.x - 1) (b.y + j))

/-- The byte at the corner of a block. -/
def State.cornerByte (s : State) (b : Block) : Byte := s.byteAt 0 (pixAddr s.cfg b.plane (b.x - 1) (b.y - 1))

section
variable {s : State} {b : Block} {n : Nat}

theorem State.topRow_of_inside (hin : b.inside s.cfg = true) (hy : 0 < b.y) (hn : n ≤ b.size.n) :
    s.topRow b n = some (s.rowAbove b n) := by
  obtain ⟨hw, hh⟩ := (b.inside_iff s.cfg).mp hin
  exact s.topRow_eq b n hy (by omega) (by omega) (by omega)

theorem State.leftCol_of_inside (hin : b.inside s.cfg = true) (hx : 0 < b.x) (hn : n ≤ b.size.n) :
    s.leftCol b n = some (s.colBeside b n) := by
  obtain ⟨hw, hh⟩ := (b.inside_iff s.cfg).mp hin
  exact s.leftCol_eq b n hx hn (by omega) (by omega)

theorem State.corner_of_inside (hin : b.inside s.cfg = true) (hx : 0 < b.x) (hy : 0 < b.y) :
    s.corner b = some (s.cornerByte b) := by
  obtain ⟨hw, hh⟩ := (b.inside_iff s.cfg).mp hin
  exact s.corner_eq b hx hy (by omega) (by omega)

theorem State.rowAbove_getD {i : Nat} (hi : i < n) :
    (s.rowAbove b n).getD i 0 = s.byteAt 0 (pixAddr s.cfg b.plane (b.x + i) (b.y - 1)) := by
  simp [State.rowAbove, List.getD_eq_getElem?_getD, hi]

theorem State.colBeside_getD {j : Nat} (hj : j < n) :
    (s.colBeside b n).getD j 0 = s.byteAt 0 (pixAddr s.cfg b.plane (b.x - 1) (b.y + j)) := by
  simp [State.colBeside, List.getD_eq_getElem?_getD, hj]

theorem State.sample_rowAbove {i : Nat} (hi : i < n) : sample (s.rowAbove b n) i = s.above b i :=
  congrArg BitVec.toNat (State.rowAbove_getD hi)

theorem State.sample_colBeside {j : Nat} (hj : j < n) : sample (s.colBeside b n) j = s.beside b j :=
  congrArg BitVec.toNat (State.colBeside_getD hj)

theorem State.above_corner (hx : 0 < b.x) : s.above b (-1) = (s.cornerByte b).toNat := by
  rw [State.above, State.cornerByte, show ((b.x : Int) + -1).toNat = b.x - 1 by omega]

theorem State.beside_corner (hy : 0 < b.y) : s.beside b (-1) = (s.cornerByte b).toNat := by
  rw [State.beside, State.cornerByte, show ((b.y : Int) + -1).toNat = b.y - 1 by omega]

end

/-! ### Writing a block (R204) -/

/-- Predicting a block inside its plane paints it with any values that agree with the prediction's on the block. -/
theorem State.predict_paints {s : State} {b : Block} {f : Nat → Nat → Nat} {v : Nat → Nat → Byte}
    (hin : b.inside s.cfg = true) (hv : ∀ x y, x < b.size.n → y < b.size.n → BitVec.ofNat 8 (f x y) = v x y) :
    ∃ t, s.predict b f = .next t ∧ s.painted t b.plane b.x b.y b.size.n b.size.n v := by
  obtain ⟨t, hnext, hframe, hpixels, hrest⟩ := s.predict_painted b f hin
  exact ⟨t, hnext, hframe, fun x y hx hy => (hpixels x y hx hy).trans (hv x y hx hy), hrest⟩

/-! ### The modes by their neighbours (R205 to R213) -/

section
variable {s : State} {b : Block} (hin : b.inside s.cfg = true) (hx : 0 < b.x) (hy : 0 < b.y)
include hin

include hy in
theorem exec_predV : exec (.predV b) s = s.predict b fun x _ => sample (s.rowAbove b b.size.n) x := by
  simp only [exec, execPredV, State.topRow_of_inside hin hy le_rfl]

include hx in
theorem exec_predH : exec (.predH b) s = s.predict b fun _ y => sample (s.colBeside b b.size.n) y := by
  simp only [exec, execPredH, State.leftCol_of_inside hin hx le_rfl]

include hx in
theorem exec_predHU : exec (.predHU b) s = s.predict b (huPixel b.size.n (s.colBeside b b.size.n)) := by
  simp only [exec, execPredHU, State.leftCol_of_inside hin hx le_rfl]

theorem exec_predDC : exec (.predDC b) s = s.predict b fun _ _ =>
    dcValue ((if 0 < b.x then s.colBeside b b.size.n else []) ++ if 0 < b.y then s.rowAbove b b.size.n else []) := by
  have hleft : (if 0 < b.x then s.leftCol b b.size.n else some [])
      = some (if 0 < b.x then s.colBeside b b.size.n else []) :=
    (ite_congr rfl (fun hx => State.leftCol_of_inside hin hx le_rfl) fun _ => rfl).trans (apply_ite some _ _ _).symm
  have htop : (if 0 < b.y then s.topRow b b.size.n else some [])
      = some (if 0 < b.y then s.rowAbove b b.size.n else []) :=
    (ite_congr rfl (fun hy => State.topRow_of_inside hin hy le_rfl) fun _ => rfl).trans (apply_ite some _ _ _).symm
  simp only [exec, execPredDC, hleft, htop]

include hy in
/-- VerticalLeft reads half a block beyond the block's own columns (R212). -/
theorem exec_predVL (hfar : b.x + b.size.n + b.size.n / 2 < planeWidth s.cfg b.plane) :
    exec (.predVL b) s = s.predict b (vlPixel (s.rowAbove b (b.size.n + b.size.n / 2 + 1))) := by
  have hfour := b.size.four_le
  obtain ⟨-, hh⟩ := (b.inside_iff s.cfg).mp hin
  have htop : s.topRow b (b.size.n + b.size.n / 2 + 1) = some (s.rowAbove b (b.size.n + b.size.n / 2 + 1)) :=
    s.topRow_eq b _ hy (by omega) (by omega) (by omega)
  simp only [exec, execPredVL, htop]

include hx hy

theorem exec_predPlane : exec (.predPlane b) s = s.predict b fun x y =>
    (planeFn s.cfg b.size (s.rowAbove b b.size.n) (s.colBeside b b.size.n) s.planeDelta x y).toNat := by
  simp only [exec, execPredPlane, State.topRow_of_inside hin hy le_rfl, State.leftCol_of_inside hin hx le_rfl]

theorem exec_predHD : exec (.predHD b) s = s.predict b fun x y =>
    leanPixel (s.cornerByte b :: s.colBeside b b.size.n) (s.cornerByte b :: s.rowAbove b (b.size.n - 1)) x y := by
  simp only [exec, execPredHD, State.leftCol_of_inside hin hx le_rfl, State.corner_of_inside hin hx hy,
    State.topRow_of_inside hin hy (Nat.sub_le _ _)]

theorem exec_predVR : exec (.predVR b) s = s.predict b fun x y =>
    leanPixel (s.cornerByte b :: s.rowAbove b b.size.n) (s.cornerByte b :: s.colBeside b (b.size.n - 1)) y x := by
  simp only [exec, execPredVR, State.topRow_of_inside hin hy le_rfl, State.corner_of_inside hin hx hy,
    State.leftCol_of_inside hin hx (Nat.sub_le _ _)]

theorem exec_predDDR : exec (.predDDR b) s = s.predict b
    (ddrPixel (s.cornerByte b :: s.rowAbove b b.size.n) (s.cornerByte b :: s.colBeside b b.size.n)) := by
  simp only [exec, execPredDDR, State.topRow_of_inside hin hy le_rfl, State.corner_of_inside hin hx hy,
    State.leftCol_of_inside hin hx le_rfl]

end

/-! ### A neighbour that is not there (R62, R65, R215) -/

/-- Reading a list of pixels one of which is not there. -/
theorem mapM_none_of_mem {α β : Type} {f : α → Option β} {a : α} (hf : f a = none) : ∀ {l : List α}, a ∈ l →
    l.mapM f = none
  | c :: l, hmem => by
    rw [List.mapM_cons]
    rcases List.mem_cons.mp hmem with rfl | hl
    · rw [hf]
      rfl
    · rw [mapM_none_of_mem hf hl]
      cases f c <;> rfl

/-- A pixel beyond the last column of its plane is no neighbour (R62). -/
theorem State.neighbour_none_of_width_le {s : State} {b : Block} {i : Nat} (h : planeWidth s.cfg b.plane ≤ b.x + i) :
    s.neighbour b i (-1) = none := by
  unfold State.neighbour State.pix
  split
  · exact if_neg (by omega)
  · rfl

theorem State.topRow_none_of_width_le {s : State} {b : Block} {n : Nat}
    (h : planeWidth s.cfg b.plane ≤ b.x + n) : s.topRow b (n + 1) = none :=
  mapM_none_of_mem (a := n) (State.neighbour_none_of_width_le h) (List.mem_range.mpr n.lt_succ_self)

section
variable {s : State} {b : Block}

theorem predV_trap (h : s.topRow b b.size.n = none) : exec (.predV b) s = .next (s.raise .invalidGeometry) := by
  simp only [exec, execPredV, h, State.trap_eq]

theorem predVL_trap (h : s.topRow b (b.size.n + b.size.n / 2 + 1) = none) :
    exec (.predVL b) s = .next (s.raise .invalidGeometry) := by
  simp only [exec, execPredVL, h, State.trap_eq]

theorem predH_trap (h : s.leftCol b b.size.n = none) : exec (.predH b) s = .next (s.raise .invalidGeometry) := by
  simp only [exec, execPredH, h, State.trap_eq]

theorem predHU_trap (h : s.leftCol b b.size.n = none) : exec (.predHU b) s = .next (s.raise .invalidGeometry) := by
  simp only [exec, execPredHU, h, State.trap_eq]

theorem predPlane_trap (h : s.leftCol b b.size.n = none ∨ s.topRow b b.size.n = none) :
    exec (.predPlane b) s = .next (s.raise .invalidGeometry) := by
  rcases h with h | h
  · simp only [exec, execPredPlane, h]
    cases s.topRow b b.size.n <;> rfl
  · simp only [exec, execPredPlane, h, State.trap_eq]

theorem predHD_trap (h : s.corner b = none) : exec (.predHD b) s = .next (s.raise .invalidGeometry) := by
  simp only [exec, execPredHD, h]
  cases s.leftCol b b.size.n <;> rfl

theorem predVR_trap (h : s.corner b = none) : exec (.predVR b) s = .next (s.raise .invalidGeometry) := by
  simp only [exec, execPredVR, h]
  cases s.topRow b b.size.n <;> rfl

theorem predDDR_trap (h : s.corner b = none) : exec (.predDDR b) s = .next (s.raise .invalidGeometry) := by
  simp only [exec, execPredDDR, h]
  cases s.topRow b b.size.n <;> rfl

end

/-- Settles O29: at the plane's edge the row, the column or the corner the mode needs is not there. -/
theorem unavailableNeighbourTraps : Obligations.UnavailableNeighbourTraps := by
  intro s b i h
  have hn : 0 < b.size.n := Nat.lt_of_lt_of_le (by decide) (b.size.four_le)
  rcases h with ⟨hy, rfl | rfl⟩ | ⟨hx, rfl | rfl⟩ | ⟨hxy, rfl | rfl | rfl | rfl⟩
  · exact predV_trap (s.topRow_none b _ hy hn)
  · exact predVL_trap (s.topRow_none b _ hy (by omega))
  · exact predH_trap (s.leftCol_none b _ hx hn)
  · exact predHU_trap (s.leftCol_none b _ hx hn)
  · exact predPlane_trap (hxy.imp (fun hx => s.leftCol_none b _ hx hn) fun hy => s.topRow_none b _ hy hn)
  · exact predHD_trap (s.corner_none b hxy)
  · exact predVR_trap (s.corner_none b hxy)
  · exact predDDR_trap (s.corner_none b hxy)

/-! ### Modes that copy, average or hand over their neighbours (R205 to R208) -/

theorem ofNat_sample (l : List Byte) (i : Nat) : BitVec.ofNat 8 (sample l i) = l.getD i 0 := by
  rw [sample, BitVec.ofNat_toNat, BitVec.setWidth_eq]

/-- Settles O22: an entry of the row above, or of the column to the left, is the byte the statement names. -/
theorem verticalAndHorizontalCopyTheEdge : Obligations.VerticalAndHorizontalCopyTheEdge := by
  refine fun s b => ⟨fun hin hy => ?_, fun hy => unavailableNeighbourTraps s b _ (.inl ⟨hy, .inl rfl⟩),
    fun hin hx => ?_, fun hx => unavailableNeighbourTraps s b _ (.inr (.inl ⟨hx, .inl rfl⟩))⟩
  · rw [exec_predV hin hy]
    exact State.predict_paints hin fun x _ hxn _ => (ofNat_sample _ x).trans (State.rowAbove_getD hxn)
  · rw [exec_predH hin hx]
    exact State.predict_paints hin fun _ y _ hyn => (ofNat_sample _ y).trans (State.colBeside_getD hyn)

theorem sumSamples_eq (l : List Byte) : sumSamples l = (l.map BitVec.toNat).sum := by
  rw [List.sum_eq_foldl, List.foldl_map]
  rfl

/-- The value of DC is a function of the neighbours as numbers (R207). -/
theorem dcValue_eq (l : List Byte) : dcValue l = if (l.map BitVec.toNat).length = 0 then 128
    else ((l.map BitVec.toNat).sum + (l.map BitVec.toNat).length / 2) / (l.map BitVec.toNat).length := by
  rw [dcValue, sumSamples_eq, List.length_map]

theorem State.map_toNat_rowAbove (s : State) (b : Block) (n : Nat) :
    (s.rowAbove b n).map BitVec.toNat = (List.range n).map fun i : Nat => s.above b i := List.map_map

theorem State.map_toNat_colBeside (s : State) (b : Block) (n : Nat) :
    (s.colBeside b n).map BitVec.toNat = (List.range n).map fun j : Nat => s.beside b j := List.map_map

/-- Settles O23: the list DC averages holds the numbers of the statement's two lists, one after the other. -/
theorem dcAveragesTheAvailableNeighbours : Obligations.DCAveragesTheAvailableNeighbours := by
  intro s b hin left top n
  rw [exec_predDC hin]
  refine State.predict_paints hin fun x y _ _ => congrArg (BitVec.ofNat 8) ?_
  have hnumbers : ((if 0 < b.x then s.colBeside b b.size.n else [])
      ++ if 0 < b.y then s.rowAbove b b.size.n else []).map BitVec.toNat = left ++ top := by
    rw [List.map_append, apply_ite (List.map BitVec.toNat), apply_ite (List.map BitVec.toNat),
      State.map_toNat_colBeside, State.map_toNat_rowAbove, List.map_nil]
  rw [dcValue_eq, hnumbers, List.length_append, List.sum_append]

/-- Settles O28: the row, the column and the delta that `DELTA_PLANE_FN` gets are the statement's. -/
theorem deltaPlaneWritesItsFunction : Obligations.DeltaPlaneWritesItsFunction := by
  intro s b hin hx hy top left
  rw [exec_predPlane hin hx hy]
  exact State.predict_paints hin fun x y _ _ => by rw [BitVec.ofNat_toNat, BitVec.setWidth_eq]; rfl

end Machine

end Sys2Proof
end

section
/-! ## Intra prediction: the directional modes, pixel by pixel (R209 to R213, R216) -/

namespace Sys2Proof.Machine

/-! ### HorizontalUp and VerticalLeft (R209, R212) -/

/-- HorizontalUp, the left column given by its numbers. -/
theorem huPixel_eq {n : Nat} {left : List Byte} {l : Nat → Nat} (hl : ∀ j, j < n → sample left j = l j) {x y : Nat}
    (hy : y < n) : huPixel n left x y =
      if 2 * n - 3 < x + 2 * y then l (n - 1)
      else if x + 2 * y = 2 * n - 3 then (l (n - 2) + 3 * l (n - 1) + 2) / 4
      else if (x + 2 * y) % 2 = 0 then (l (y + x / 2) + l (y + x / 2 + 1) + 1) / 2
      else (l (y + x / 2) + 2 * l (y + x / 2 + 1) + l (y + x / 2 + 2) + 2) / 4 := by
  simp only [huPixel, avg2, avg3]
  split
  · rw [hl _ (by omega)]
  · split
    · rw [hl _ (by omega), hl _ (by omega)]
    · split
      · rw [hl _ (by omega), hl _ (by omega)]
      · rw [hl _ (by omega), hl _ (by omega), hl _ (by omega)]

/-- Settles O24: the four cases of the formula read the left column within the block's rows (`huPixel_eq`). -/
theorem horizontalUpFormula : Obligations.HorizontalUpFormula := by
  intro s b hin hx n l
  rw [exec_predHU hin hx]
  exact State.predict_paints hin fun x y _ hyn =>
    congrArg (BitVec.ofNat 8) (huPixel_eq (fun j hj => State.sample_colBeside hj) hyn)

/-- VerticalLeft, the row above given by its numbers up to column `n + n / 2`. -/
theorem vlPixel_eq {n : Nat} {top : List Byte} {u : Nat → Nat} (hu : ∀ i, i < n + n / 2 + 1 → sample top i = u i)
    {x y : Nat} (hx : x < n) (hy : y < n) : vlPixel top x y =
      if y % 2 = 0 then (u (x + y / 2) + u (x + y / 2 + 1) + 1) / 2
      else (u (x + y / 2) + 2 * u (x + y / 2 + 1) + u (x + y / 2 + 2) + 2) / 4 := by
  simp only [vlPixel, avg2, avg3]
  split
  · rw [hu _ (by omega), hu _ (by omega)]
  · rw [hu _ (by omega), hu _ (by omega), hu _ (by omega)]

/-- Settles O26: the last column read is `N + N/2`; it is in the plane, or its pixel is no neighbour. -/
theorem verticalLeftFormula : Obligations.VerticalLeftFormula := by
  refine fun s b hin hy => ⟨fun hfar => ?_, fun hfar => predVL_trap (State.topRow_none_of_width_le (by omega))⟩
  rw [exec_predVL hin hy hfar]
  exact State.predict_paints hin fun x y hxn hyn =>
    congrArg (BitVec.ofNat 8) (vlPixel_eq (fun i hi => State.sample_rowAbove hi) hxn hyn)

/-! ### The modes that lean on both sides (R210, R211, R213) -/

/-- The list `l` holds the numbers `v` from the corner, index -1, up to index `n - 1`. -/
def FromCorner (l : List Byte) (n : Nat) (v : Int → Nat) : Prop :=
  ∀ (k : Nat) (i : Int), i = k - 1 → k ≤ n → sample l k = v i

theorem State.fromCorner_rowAbove {s : State} {b : Block} (hx : 0 < b.x) (n : Nat) :
    FromCorner (s.cornerByte b :: s.rowAbove b n) n (s.above b)
  | 0, _, rfl, _ => (State.above_corner hx).symm
  | k + 1, i, hi, hk => by
    obtain rfl : i = k := by omega
    exact State.sample_rowAbove hk

theorem State.fromCorner_colBeside {s : State} {b : Block} (hy : 0 < b.y) (n : Nat) :
    FromCorner (s.cornerByte b :: s.colBeside b n) n (s.beside b)
  | 0, _, rfl, _ => (State.beside_corner hy).symm
  | k + 1, i, hi, hk => by
    obtain rfl : i = k := by omega
    exact State.sample_colBeside hk

/-- The leaning modes, both sides given by their numbers; `m` is the pixel at the corner's end of the diagonal. -/
theorem leanPixel_eq {n m : Nat} {edge far : List Byte} {e f : Int → Nat} (he : FromCorner edge n e)
    (hf : FromCorner far (n - 1) f) (hm : (e 0 + 2 * e (-1) + f 0 + 2) / 4 = m) {x y : Nat} (hx : x < n) (hy : y < n) :
    leanPixel edge far x y =
      if (0 : Int) ≤ 2 * y - x ∧ (2 * y - x : Int) % 2 = 0 then
        (e (y - (x / 2 : Nat) - 1) + e (y - (x / 2 : Nat)) + 1) / 2
      else if (0 : Int) ≤ 2 * y - x then
        (e (y - (x / 2 : Nat) - 2) + 2 * e (y - (x / 2 : Nat) - 1) + e (y - (x / 2 : Nat)) + 2) / 4
      else if (2 * y - x : Int) = -1 then m
      else (f (x - 2 * y - 1) + 2 * f (x - 2 * y - 2) + f (x - 2 * y - 3) + 2) / 4 := by
  simp only [leanPixel, avg2, avg3]
  by_cases hle : x ≤ 2 * y
  · rw [if_pos hle]
    by_cases heven : (2 * y - x) % 2 = 0
    · rw [if_pos heven, if_pos (by omega), he (y - x / 2) (y - (x / 2 : Nat) - 1) (by omega) (by omega),
        he (y - x / 2 + 1) (y - (x / 2 : Nat)) (by omega) (by omega)]
    · rw [if_neg heven, if_neg (by omega), if_pos (by omega),
        he (y - x / 2 - 1) (y - (x / 2 : Nat) - 2) (by omega) (by omega),
        he (y - x / 2) (y - (x / 2 : Nat) - 1) (by omega) (by omega),
        he (y - x / 2 + 1) (y - (x / 2 : Nat)) (by omega) (by omega)]
  · rw [if_neg hle]
    by_cases hdiag : x = 2 * y + 1
    · rw [if_pos hdiag, if_neg (by omega), if_neg (by omega), if_pos (by omega), ← hm, he 1 0 rfl (by omega),
        he 0 (-1) rfl (by omega), hf 1 0 rfl (by omega)]
    · rw [if_neg hdiag, if_neg (by omega), if_neg (by omega), if_neg (by omega),
        hf (x - 2 * y) (x - 2 * y - 1) (by omega) (by omega),
        hf (x - 2 * y - 1) (x - 2 * y - 2) (by omega) (by omega),
        hf (x - 2 * y - 2) (x - 2 * y - 3) (by omega) (by omega)]

/-- Settles O25: one formula serves both modes (`leanPixel_eq`), with the sides and the coordinates exchanged; the two
sides share the corner. -/
theorem leaningModesFormulas : Obligations.LeaningModesFormulas := by
  intro s b hin hx hy n l u
  have hcorner : s.beside b (-1) = s.above b (-1) := (State.beside_corner hy).trans (State.above_corner hx).symm
  constructor
  · rw [exec_predHD hin hx hy]
    exact State.predict_paints hin fun x y hxn hyn => congrArg (BitVec.ofNat 8)
      (leanPixel_eq (State.fromCorner_colBeside hy n) (State.fromCorner_rowAbove hx _) (by rw [hcorner]) hxn hyn)
  · rw [exec_predVR hin hx hy]
    exact State.predict_paints hin fun x y hxn hyn => congrArg (BitVec.ofNat 8)
      (leanPixel_eq (State.fromCorner_rowAbove hx n) (State.fromCorner_colBeside hy _) (by simp only [l, u]; omega) hyn hxn)

/-- DiagonalDownRight, both sides given by their numbers. -/
theorem ddrPixel_eq {n : Nat} {top left : List Byte} {u l : Int → Nat} (hu : FromCorner top n u)
    (hl : FromCorner left n l) {x y : Nat} (hx : x < n) (hy : y < n) : ddrPixel top left x y =
      if y < x then (u ((x : Int) - y - 2) + 2 * u ((x : Int) - y - 1) + u ((x : Int) - y) + 2) / 4
      else if x < y then (l ((y : Int) - x - 2) + 2 * l ((y : Int) - x - 1) + l ((y : Int) - x) + 2) / 4
      else (u 0 + 2 * u (-1) + l 0 + 2) / 4 := by
  simp only [ddrPixel, avg3]
  split
  · rw [hu (x - y - 1) (x - y - 2) (by omega) (by omega), hu (x - y) (x - y - 1) (by omega) (by omega),
      hu (x - y + 1) (x - y) (by omega) (by omega)]
  · split
    · rw [hl (y - x - 1) (y - x - 2) (by omega) (by omega), hl (y - x) (y - x - 1) (by omega) (by omega),
        hl (y - x + 1) (y - x) (by omega) (by omega)]
    · rw [hu 1 0 rfl (by omega), hu 0 (-1) rfl (by omega), hl 1 0 rfl (by omega)]

/-- Settles O27: the three cases of the formula, both sides read from the corner on (`ddrPixel_eq`). -/
theorem diagonalDownRightFormula : Obligations.DiagonalDownRightFormula := by
  intro s b hin hx hy n l u
  rw [exec_predDDR hin hx hy]
  exact State.predict_paints hin fun x y hxn hyn => congrArg (BitVec.ofNat 8)
    (ddrPixel_eq (State.fromCorner_rowAbove hx n) (State.fromCorner_colBeside hy n) hxn hyn)

end Sys2Proof.Machine
end

section
/-! ## Intra prediction: which mode a block has, and its dispatch (R202 to R204, R208, R252) -/

namespace Sys2Proof

namespace Machine

/-! ### Signed elements (R208, R252) -/

/-- An instruction that is a signed read of its code and an effect. -/
theorem takes_signed {s : State} {i : Instr} {d : Int} {f : State → State} (hreads : s.reads i = true)
    (hcode : encode s.ctx i = seBits d) (hvalue : i.wellFormed s.ctx = seValue d)
    (hexec : exec i s = s.reading (fun c => c.readSE s.cfg) fun t => .next (f t)) :
    ∃ c, s.past i c = true ∧ exec i s = .next (f { s with cursor := c }) := by
  obtain ⟨-, hok, hwf, hpre⟩ := (s.reads_iff i).mp hreads
  exact (takes_of_reads (hcode ▸ Cursor.readSE_reads s.cfg (hvalue ▸ hwf)) hok hpre hexec).past

/-- Settles O33: each element takes its signed code. -/
theorem signedElementsLatched : Obligations.SignedElementsLatched := fun _ d =>
  ⟨fun hreads => takes_signed (f := fun t => { t with planeDelta := BitVec.ofInt 32 d }) hreads rfl rfl rfl,
    fun hreads => takes_signed (f := fun t => { t with mvdx := BitVec.ofInt 32 d }) hreads rfl rfl rfl,
    fun hreads => takes_signed (f := fun t => { t with mvdy := BitVec.ofInt 32 d }) hreads rfl rfl rfl⟩

/-! ### The predicted mode (R202) -/

/-- Settles O31: the four cases of `PredictedMode` are its own match on the two entries. -/
theorem predictedModeRule : Obligations.PredictedModeRule := by
  intro s k a l _ ha hl
  have hleft : (if k % 4 ≠ 0 then s.preAt (k - 1) else none) = l := by
    rw [hl, ite_not]
    rfl
  have habove : (if 4 ≤ k then s.preAt (k - 4) else none) = a := ha.symm
  refine ⟨?_, ?_, ?_, ?_⟩
  · rintro x y hx hy
    simp only [State.predictedMode, habove, hleft, hx, hy, min_comm]
  · rintro x hx hy
    simp only [State.predictedMode, habove, hleft, hx, hy]
  · rintro y hx hy
    simp only [State.predictedMode, habove, hleft, hx, hy]
  · rintro hx hy
    simp only [State.predictedMode, habove, hleft, hx, hy]

/-! ### The mode of a block read and recorded (R203) -/

/-- The mode `a` recorded for the block, and its rule scheduled. -/
def State.withMode (s : State) (b : Block) (a : Nat) : State := (s.recordMode b a).push (predTasks s.cfg b a)

theorem State.withMode_eq (s : State) (b : Block) (a : Nat) : s.withMode b a = { s with
    pre := (s.recordMode b a).pre
    agenda := predTasks s.cfg b a ++ s.agenda } := by
  rw [State.withMode, State.push, s.recordMode_eq b a]

/-- The mode a selector stands for: the predicted one is skipped (R203). -/
def modeOfSelector (r : BitVec 3) (predicted : Nat) : Nat := if r.toNat < predicted then r.toNat else r.toNat + 1

theorem takes_mpmTaken {s : State} (b : Block) (hok : s.cursor.ok s.cfg = true) (hpre : [true] <+: s.cursor.ahead s.cfg) :
    Takes s (.mpmTaken b) [true] fun t => t.withMode b (t.predictedMode (t.modeIndex b)) :=
  takes_of_reads (Cursor.readBool_reads s.cfg true) hok hpre rfl

theorem takes_mpmRem {s : State} (b : Block) (r : BitVec 3) (hok : s.cursor.ok s.cfg = true)
    (hpre : false :: bitsOf 3 r.toNat <+: s.cursor.ahead s.cfg) :
    Takes s (.mpmRem b r) (false :: bitsOf 3 r.toNat)
      fun t => t.withMode b (modeOfSelector r (t.predictedMode (t.modeIndex b))) := by
  obtain ⟨c, hc, hpast, hrest⟩ := (Cursor.readBool_reads s.cfg false).next_code hok hpre
  obtain ⟨c', hc', hpast'⟩ := Cursor.read_reads_bitsOf s.cfg (n := 3) (by decide) r.toNat c hpast.ok hrest
  refine ⟨c', hpast.append hpast', ?_⟩
  simp only [exec, execMpmRem]
  rw [State.reading_ok hc, State.reading_ok (s := { s with cursor := c }) hc']
  rfl

/-- Moving the cursor changes nothing of what a mode is predicted from or recorded in. -/
theorem State.recordMode_pre_cursor (s : State) (c : Cursor) (b : Block) (a : Nat) :
    (State.recordMode { s with cursor := c } b a).pre = (s.recordMode b a).pre := by
  unfold State.recordMode
  dsimp only
  split <;> rfl

/-- Settles O32: both elements take their code and then record their mode (`State.withMode_eq`). -/
theorem modeIsDecodedAndRecorded : Obligations.ModeIsDecodedAndRecorded := by
  intro s b i a k hi hreads
  obtain ⟨-, hok, -, hpre⟩ := (s.reads_iff i).mp hreads
  have htaken : ∃ c, s.past i c = true ∧ exec i s = .next (State.withMode { s with cursor := c } b a) := by
    rcases hi with ⟨rfl, rfl⟩ | ⟨r, rfl, rfl⟩
    · exact (takes_mpmTaken b hok hpre).past
    · exact (takes_mpmRem b r hok hpre).past
  obtain ⟨c, hpast, hexec⟩ := htaken
  refine ⟨c, (s.recordMode b a).pre, hpast, ?_, fun j hj => s.recordMode_pre b a j hj⟩
  rw [hexec, State.withMode_eq, State.recordMode_pre_cursor]
  rfl

/-! ### Dispatch (R204) -/

/-- The step at an operation of the agenda, or at a mode code, runs the instruction there. -/
theorem step_run {s : State} {t : Sys2Proof.Task} {rest : List Sys2Proof.Task} {i : Instr} (ha : s.agenda = t :: rest)
    (hd : decode s.ctx s.cursor t = .instr i) : step s = exec i { s with agenda := rest } := by
  rw [step_eq, fetch_run ha hd]

/-- At a mode code the rule of its mode runs (R204). -/
theorem step_predCode {s : State} {b : Block} {m : IntraMode} {rest : List Sys2Proof.Task}
    (hcfg : s.cfg.wellFormed = true) (ha : s.agenda = .predCode b (s.cfg.codeOf m) :: rest) :
    step s = exec (predInstr b m) { s with agenda := rest } :=
  step_run ha (decode_predCode (x := s.ctx) hcfg b m)

/-- DeltaPlane reads its delta before its rule (R208). -/
theorem predTasks_deltaPlane {cfg : Config} (hcfg : cfg.wellFormed = true) (b : Block) :
    predTasks cfg b (cfg.codeOf .deltaPlane) = [.dpdelta, .predCode b (cfg.codeOf .deltaPlane)] :=
  if_pos (Config.getElem?_codeOf hcfg .deltaPlane)

/-- The rule of any other mode is next at once. -/
theorem predTasks_of_ne {cfg : Config} (hcfg : cfg.wellFormed = true) (b : Block) {m : IntraMode} (hm : m ≠ .deltaPlane) :
    predTasks cfg b (cfg.codeOf m) = [.predCode b (cfg.codeOf m)] :=
  if_neg (by simpa only [Config.getElem?_codeOf hcfg m, Option.some.injEq] using hm)

theorem exec_predictBlock_explicit (s : State) (b : Block) (m : IntraMode) :
    exec (.predictBlock b (.explicit m)) s = .next (s.push (predTasks s.cfg b (s.cfg.codeOf m))) := rfl

/-- Settles O30: the code `PredictBlock` schedules is the mode's, and decodes to the mode's rule (`decode_predCode`). -/
theorem predictBlockRunsItsRule : Obligations.PredictBlockRunsItsRule := by
  refine fun s b rest hcfg => ⟨fun m hm ha => ?_, ?_, decode_predCode (x := s.ctx) hcfg b .deltaPlane, rfl, rfl, rfl, rfl⟩
  · have hexec : exec (.predictBlock b (.explicit m)) { s with agenda := rest }
        = .next { s with agenda := .predCode b (s.cfg.codeOf m) :: rest } := by
      rw [exec_predictBlock_explicit, predTasks_of_ne hcfg b hm]
      rfl
    have hstep : step s = exec (.predictBlock b (.explicit m)) { s with agenda := rest } := step_run ha rfl
    exact ⟨_, hexec, hstep.trans hexec,
      step_predCode (s := { s with agenda := .predCode b (s.cfg.codeOf m) :: rest }) hcfg rfl⟩
  · rw [exec_predictBlock_explicit, predTasks_deltaPlane hcfg]
    rfl

end Machine

end Sys2Proof
end

section
/-! ## Macroblocks: their schedule, their modes, and what is coded of them (R230 to R238, R280) -/

namespace Sys2Proof.Machine

/-! ### What a macroblock consists of (R230, R231, R234, R238, R280) -/

/-- The luma quadrants one by one, each with the bit of its index (R230). -/
theorem State.lumaBlocks_eq (s : State) (m : BlockMode) : s.lumaBlocks m = (List.finRange 4).map fun q : Fin 4 =>
    .block8 .luma (s.quadX q.val) (s.quadY q.val) m (q.castLE (by decide)) := rfl

/-- Settles O34: the luma blocks of each kind of macroblock are the quadrants in order (`State.lumaBlocks_eq`). -/
theorem macroblocksSchedule : Obligations.MacroblocksSchedule := by
  intro s luma chroma
  have hluma : ∀ m, s.lumaBlocks m = luma m := s.lumaBlocks_eq
  have hchroma : ∀ m, s.chromaBlocks m = chroma m := fun _ => rfl
  have hintra : exec (.decodeIntraMB true) s = .next { s with
      pre := Vector.replicate 16 none
      agenda := [.cbpidx] ++ s.lumaBlocks .predicted ++ [.cmode3] ++ s.agenda } := rfl
  have hresidual : exec .decodeResidualMB s = .next { s with
      agenda := [.cbpidx] ++ s.lumaBlocks .nothing ++ s.chromaBlocks .nothing ++ s.agenda } := rfl
  rw [hluma] at hintra
  rw [hluma, hchroma] at hresidual
  exact ⟨rfl, hintra, hresidual, rfl, fun _ _ _ _ => rfl, fun _ _ _ _ => rfl⟩

/-! ### Elements that read their own code -/

/-- Where the code of `i` is next, the read that takes it goes on, whatever it does next, right past the code. -/
theorem State.reading_code {s : State} {i : Instr} {α : Type} {r : Cursor → ReadOut α} {v : α}
    (hreads : s.reads i = true) (hr : ReadsCode s.cfg r (encode s.ctx i) v) :
    ∃ c, s.past i c = true ∧ ∀ go, s.reading r go = go { s with cursor := c } := by
  obtain ⟨-, hok, -, hpre⟩ := (s.reads_iff i).mp hreads
  obtain ⟨c, hc, hpast⟩ := hr s.cursor hok hpre
  exact ⟨c, State.past_of_cursor hpast, State.reading_ok hc⟩

/-! ### Explicit modes (R233, R236) -/

/-- Settles O35: both elements take their three bits, and the mode of the code decides what is scheduled. -/
theorem explicitModes : Obligations.ExplicitModes := by
  intro s m mode hmode
  have hcode := Cursor.read_reads_bitsOf s.cfg (n := 3) (by decide) m.toNat
  refine ⟨fun hreads => ?_, fun hreads => ?_⟩
  · obtain ⟨c, hpast, hgo⟩ := State.reading_code hreads hcode
    refine ⟨c, hpast, ?_⟩
    by_cases hplane : mode = .deltaPlane
    · simp only [exec, execMode3, hgo, hmode, if_pos hplane]
      rfl
    · simp only [exec, execMode3, hgo, hmode, if_neg hplane]
      rfl
  · obtain ⟨c, hpast, hgo⟩ := State.reading_code hreads hcode
    refine ⟨c, hpast, ?_⟩
    simp only [exec, execCmode3, hgo, hmode]
    rfl

/-! ### The coded block pattern (R232) -/

/-- An index selects its mask, and above 63 there is none. -/
theorem cbpidx_past {s : State} {i : Nat} (hreads : s.reads (.cbpidx i) = true) :
    ∃ c, s.past (.cbpidx i) c = true
      ∧ exec (.cbpidx i) s = if h : i < 64 then .next { s with cursor := c, cbpMask := s.cfg.cbp[i] }
        else .next (State.raise { s with cursor := c } .formatError) := by
  obtain ⟨-, -, hwf, -⟩ := (s.reads_iff _).mp hreads
  obtain ⟨c, hpast, hgo⟩ := State.reading_code hreads (Cursor.readUE_reads s.cfg hwf)
  exact ⟨c, hpast, by simp only [exec, execCbpidx, hgo, State.trap_eq]⟩

/-! ### The partition flag (R234, R235) -/

/-- A value of the flag above 0 is one of its format. -/
theorem partflag4x4_wellFormed {x : DecodeCtx} {p : Plane} {px py : Nat} {m : BlockMode} {f : Nat}
    (h : (Instr.partflag4x4 p px py m f).wellFormed x = true) : f ≠ 0 ∧ ueValue f = true := by
  simp only [Instr.wellFormed, Bool.and_eq_true, decide_eq_true_eq] at h
  obtain ⟨⟨-, hpos⟩, hvalue⟩ := h
  exact ⟨Nat.one_le_iff_ne_zero.mp hpos, hvalue⟩

/-- The 4×4 blocks of a split 8×8 block, by their index (R67, R230). -/
theorem State.partitioned_eight_range (s : State) (x y : Nat) (go : List (Nat × Nat × Nat) → Step) :
    s.partitioned x y 8 8 4 4 go = go ((List.range 4).map fun k => (x + 4 * (k % 2), y + 4 * (k / 2), k)) := rfl

/-- A flag above 0 splits the block, with the mask of the ROM, and above 16 there is none. -/
theorem partflag4x4_past {s : State} {p : Plane} {x y : Nat} {m : BlockMode} {f : Nat}
    (hreads : s.reads (.partflag4x4 p x y m f) = true) :
    ∃ c, s.past (.partflag4x4 p x y m f) c = true
      ∧ exec (.partflag4x4 p x y m f) s = if h : f - 1 < 16 then
          .next (State.push { s with cursor := c } ((List.range 4).flatMap fun k =>
            subBlockTasks p m s.cfg.cbp4[f - 1] (x + 4 * (k % 2), y + 4 * (k / 2), k)))
        else .next (State.raise { s with cursor := c } .formatError) := by
  obtain ⟨-, -, hwf, -⟩ := (s.reads_iff _).mp hreads
  obtain ⟨hpos, hvalue⟩ := partflag4x4_wellFormed hwf
  obtain ⟨c, hpast, hgo⟩ := State.reading_code hreads (Cursor.readUE_reads s.cfg hvalue)
  refine ⟨c, hpast, ?_⟩
  simp only [exec, execPartflag4x4, if_neg hpos, hgo, State.partitioned_eight_range, List.flatMap_map, State.trap_eq]

/-- Settles O36: each element takes its code and branches on the bound of its ROM (`cbpidx_past`, `partflag4x4_past`). -/
theorem codedBlockPatternAndPartition : Obligations.CodedBlockPatternAndPartition := by
  refine fun s => ⟨fun i hreads => ?_, fun p x y m bit rest ha => step_run ha rfl, fun p x y m hreads => ?_,
    fun p x y m f hreads => ?_⟩
  · obtain ⟨c, hpast, hexec⟩ := cbpidx_past hreads
    exact ⟨c, hpast, fun h => hexec.trans (dif_pos h), fun h => hexec.trans (dif_neg (by omega))⟩
  · obtain ⟨c, hpast, hgo⟩ := State.reading_code hreads (Cursor.readUE_reads s.cfg (u := 0) (by decide))
    refine ⟨c, hpast, ?_⟩
    simp only [exec, execPartflag8x8, hgo]
    rfl
  · obtain ⟨c, hpast, hexec⟩ := partflag4x4_past hreads
    refine ⟨c, hpast, fun hf => ?_, fun hf => hexec.trans (dif_neg (by omega))⟩
    have hlt : f - 1 < 16 := by omega
    have hmask : (s.cfg.cbp4[f - 1]?).getD 0 = s.cfg.cbp4[f - 1] := by rw [getElem?_pos s.cfg.cbp4 (f - 1) hlt]; rfl
    rw [hexec, dif_pos hlt, hmask]
    rfl

end Sys2Proof.Machine
end


section
/-! ## Motion: the predicted vector, the leaves and the splits (R250, R252, R253, R255 to R257) -/

namespace Sys2Proof.Machine

/-! ### The median (R8, R250) -/

theorem toInt_wmin (a b : Word) : (wmin a b).toInt = min a.toInt b.toInt := by
  simp only [wmin, BitVec.slt, decide_eq_true_eq]
  split <;> omega

theorem toInt_wmax (a b : Word) : (wmax a b).toInt = max a.toInt b.toInt := by
  simp only [wmax, BitVec.slt, decide_eq_true_eq]
  split <;> omega

/-- The sum less its least and its greatest number is the number between them, even where the sum wraps. -/
theorem median_eq {a b c lo m hi : Word} (hsum : a + b + c = lo + m + hi)
    (hlo : lo.toInt = min a.toInt (min b.toInt c.toInt)) (hhi : hi.toInt = max a.toInt (max b.toInt c.toInt)) :
    median a b c = m := by
  have hmin : wmin a (wmin b c) = lo := BitVec.eq_of_toInt_eq (by rw [toInt_wmin, toInt_wmin, hlo])
  have hmax : wmax a (wmax b c) = hi := BitVec.eq_of_toInt_eq (by rw [toInt_wmax, toInt_wmax, hhi])
  rw [median, hmin, hmax, hsum]
  ring

/-- The first number is the median when it lies between the other two. -/
theorem median_eq_first {a b c : Word}
    (h : b.toInt ≤ a.toInt ∧ a.toInt ≤ c.toInt ∨ c.toInt ≤ a.toInt ∧ a.toInt ≤ b.toInt) : median a b c = a := by
  rcases h with ⟨hba, hac⟩ | ⟨hca, hab⟩
  · exact median_eq (lo := b) (hi := c) (by ring) (by omega) (by omega)
  · exact median_eq (lo := c) (hi := b) (by ring) (by omega) (by omega)

theorem median_swap (a b c : Word) : median a b c = median b a c :=
  median_eq (lo := wmin b (wmin a c)) (hi := wmax b (wmax a c)) (by rw [median]; ring)
    (by simp only [toInt_wmin]; omega) (by simp only [toInt_wmax]; omega)

theorem median_rotate (a b c : Word) : median a b c = median c a b :=
  median_eq (lo := wmin c (wmin a b)) (hi := wmax c (wmax a b)) (by rw [median]; ring)
    (by simp only [toInt_wmin]; omega) (by simp only [toInt_wmax]; omega)

/-- One of three numbers lies between the other two; it is the median. -/
theorem median_isMiddle (a b c : Word) : isMiddle (median a b c).toInt a.toInt b.toInt c.toInt := by
  have hmiddle : (b.toInt ≤ a.toInt ∧ a.toInt ≤ c.toInt ∨ c.toInt ≤ a.toInt ∧ a.toInt ≤ b.toInt)
      ∨ (a.toInt ≤ b.toInt ∧ b.toInt ≤ c.toInt ∨ c.toInt ≤ b.toInt ∧ b.toInt ≤ a.toInt)
      ∨ (a.toInt ≤ c.toInt ∧ c.toInt ≤ b.toInt ∨ b.toInt ≤ c.toInt ∧ c.toInt ≤ a.toInt) := by omega
  rcases hmiddle with ha | hb | hc
  · exact .inl ⟨congrArg _ (median_eq_first ha), ha⟩
  · exact .inr (.inl ⟨congrArg _ ((median_swap a b c).trans (median_eq_first hb)), hb⟩)
  · exact .inr (.inr ⟨congrArg _ ((median_rotate a b c).trans (median_eq_first hc)), hc⟩)

theorem State.mvcAt_of_getElem? {s : State} {c : Nat} {v : MV} (h : s.mvc[c]? = some v) : s.mvcAt c = v := by
  rw [State.mvcAt, List.getD_eq_getElem?_getD, h, Option.getD_some]

/-- Settles O37: each component is the median of its three (`median_isMiddle`). -/
theorem predictedVectorIsTheMedian : Obligations.PredictedVectorIsTheMedian := by
  intro s a b c ha hb hc
  refine ⟨{ x := median a.x b.x c.x, y := median a.y b.y c.y }, ?_, median_isMiddle _ _ _, median_isMiddle _ _ _⟩
  simp only [exec, execPredictMV, State.mvcAt_of_getElem? ha, State.mvcAt_of_getElem? hb, State.mvcAt_of_getElem? hc]

/-! ### Leaves (R252, R253, R255) -/

/-- Halving a vector rounds each component down. -/
theorem toInt_chromaMV (mv : MV) : (chromaMV mv).x.toInt = mv.x.toInt / 2 ∧ (chromaMV mv).y.toInt = mv.y.toInt / 2 :=
  ⟨toInt_sar mv.x 1, toInt_sar mv.y 1⟩

/-- Settles O39: every mode of a leaf is `leaf` with its slot, and `PMV` or `State.deltaMV` as the vector. -/
theorem leafStoresItsVectorAndCopies : Obligations.LeafStoresItsVectorAndCopies := by
  intro s r i k mv hi
  have hleaf : exec i s = leaf r mv k s := by
    rcases hi with ⟨rfl, rfl, rfl⟩ | ⟨hmode, rfl⟩
    · rfl
    · rcases hmode with ⟨rfl, rfl⟩ | ⟨rfl, rfl⟩ | ⟨rfl, rfl⟩ | ⟨rfl, rfl⟩ | ⟨rfl, rfl⟩ <;> rfl
  obtain ⟨hx, hy⟩ := toInt_chromaMV mv
  exact ⟨chromaMV mv, hx, hy, hleaf.trans (leaf_eq r mv k s)⟩

/-! ### Splits (R256, R257) -/

theorem split_of_tree {a b : Rect} {s : State} (h : (s.cfg.mvTree? a.w a.h).isSome = true) :
    split a b s = .next (s.push [.mvmode a, .mvmode b]) := by rw [split_eq, if_pos h]

theorem split_of_noTree {a b : Rect} {s : State} (h : s.cfg.mvTree? a.w a.h = none) :
    split a b s = .next (s.raise .unsupportedMode) := by rw [split_eq, h]; rfl

/-- Settles O42: each split is `split` of its two halves, which asks for the tree of their size. -/
theorem splitsScheduleTheirHalves : Obligations.SplitsScheduleTheirHalves :=
  fun _ _ => ⟨fun h => split_of_tree h, fun h => split_of_noTree h, fun h => split_of_tree h,
    fun h => split_of_noTree h⟩

end Sys2Proof.Machine
end

section
/-! ## The half-pel copy (R254, R62, R318) -/

namespace Sys2Proof.Machine

/-! ### What only slot 0 can change -/

theorem State.samePixelsAside_iff {s t : State} :
    s.samePixelsAside t ↔ ∃ m, t = { s with ring := { s.ring with f0 := { s.ring.f0 with mem := m } } } := by
  refine ⟨fun h => ⟨_, h⟩, ?_⟩
  rintro ⟨m, rfl⟩
  rfl

theorem State.samePixelsAside.cfg_eq {s t : State} (h : s.samePixelsAside t) : t.cfg = s.cfg := by
  obtain ⟨m, rfl⟩ := State.samePixelsAside_iff.mp h
  rfl

/-- Writes to slot 0 leave every byte of a reference slot (R36). -/
theorem State.samePixelsAside.byteAt {s t : State} (h : s.samePixelsAside t) {k : Fin 6} (hk : k ≠ 0) (a : Nat) :
    t.byteAt k a = s.byteAt k a := by
  obtain ⟨m, rfl⟩ := State.samePixelsAside_iff.mp h
  fin_cases k
  · exact absurd rfl hk
  all_goals rfl

/-- A run of pixel writes that ends well had a value for each of its coordinates, and each lay inside the plane. -/
theorem State.paint_done_defined (p : Plane) (x0 y0 : Nat) (f : State → Nat → Nat → Option Byte) :
    ∀ (cs : List (Nat × Nat)) (s t : State), State.paint p x0 y0 f cs s = .done t →
      ∀ c ∈ cs, (∃ u v, s.samePixelsAside u ∧ f u c.1 c.2 = some v)
        ∧ x0 + c.1 < planeWidth s.cfg p ∧ y0 + c.2 < planeHeight s.cfg p
  | [], _, _, _, _, hc => by simp at hc
  | (x, y) :: rest, s, t, h, c, hc => by
    cases hf : f s x y with
    | none => simp [State.paint, hf] at h
    | some v =>
      by_cases hin : x0 + x < planeWidth s.cfg p ∧ y0 + y < planeHeight s.cfg p
      · simp only [State.paint, hf, State.setPix_eq, if_pos hin] at h
        rcases List.mem_cons.mp hc with rfl | hrest
        · exact ⟨⟨s, v, rfl, hf⟩, hin⟩
        · obtain ⟨⟨u, w, hu, hw⟩, hinside⟩ := State.paint_done_defined p x0 y0 f rest _ t h c hrest
          exact ⟨⟨u, w, (s.samePixelsAside_storeByte _ _).trans hu, hw⟩, hinside⟩
      · simp [State.paint, hf, State.setPix_eq, hin] at h

/-! ### Raster order (R11) -/

theorem coords_pairwise (w h : Nat) : (coords w h).Pairwise fun c d => c.2 < d.2 ∨ c.2 = d.2 ∧ c.1 < d.1 := by
  rw [coords, List.pairwise_flatMap]
  refine ⟨fun y _ => List.pairwise_map.mpr (List.pairwise_lt_range.imp fun h => .inr ⟨rfl, h⟩),
    List.pairwise_lt_range.imp fun {y y'} h c hc d hd => .inl ?_⟩
  obtain ⟨x, -, rfl⟩ := List.mem_map.mp hc
  obtain ⟨x', -, rfl⟩ := List.mem_map.mp hd
  exact h

/-- Where `P` holds of all coordinates before `c` and not of `c`, the coordinates before `c` are those up to which `P` holds in
raster order. -/
theorem mem_before_iff {w h : Nat} {before after : List (Nat × Nat)} {c : Nat × Nat} {P : Nat → Nat → Prop}
    (hsplit : coords w h = before ++ c :: after) (hbefore : ∀ d ∈ before, P d.1 d.2) (hc : ¬ P c.1 c.2) {x y : Nat}
    (hx : x < w) (hy : y < h) :
    (x, y) ∈ before ↔ ∀ x' y', x' < w → (y' < y ∨ y' = y ∧ x' ≤ x) → P x' y' := by
  have hsorted := coords_pairwise w h
  rw [hsplit, List.pairwise_append, List.pairwise_cons] at hsorted
  obtain ⟨-, ⟨hafter, -⟩, hlt⟩ := hsorted
  have hmem : ∀ {x' y'}, x' < w → y' < h → (x', y') ∈ before ∨ (x', y') ∈ c :: after := fun hx' hy' =>
    List.mem_append.mp (hsplit ▸ mem_coords.mpr ⟨hx', hy'⟩)
  refine ⟨fun hxy x' y' hx' hle => ?_, fun hP => ?_⟩
  · rcases hmem hx' (show y' < h by omega) with hb | ha
    · exact hbefore _ hb
    · have := hlt _ hxy _ ha
      omega
  · rcases hmem hx hy with hb | ha
    · exact hb
    · have hcmem : (c.1, c.2) ∈ coords w h := hsplit ▸ List.mem_append_right before List.mem_cons_self
      obtain ⟨hcw, -⟩ := mem_coords.mp hcmem
      refine absurd (hP c.1 c.2 hcw ?_) hc
      rcases List.mem_cons.mp ha with rfl | ha
      · exact .inr ⟨rfl, le_rfl⟩
      · have := hafter _ ha
        omega

/-! ### One pixel of the copy (R254) -/

theorem State.pix_eq_some_iff {s : State} {k : Fin 6} {p : Plane} {x y : Int} {v : Byte} : s.pix k p x y = some v ↔
    (0 ≤ x ∧ x < planeWidth s.cfg p ∧ 0 ≤ y ∧ y < planeHeight s.cfg p)
      ∧ s.byteAt k (pixAddr s.cfg p x.toNat y.toNat) = v := by
  rw [State.pix, Option.ite_none_right_eq_some, Option.some.injEq]

theorem toNat_halfSum (a b : Byte) : (halfSum a b).toNat = a.toNat / 2 + b.toNat / 2 := by
  have ha := a.isLt
  have hb := b.isLt
  simp only [halfSum, BitVec.toNat_add, BitVec.toNat_ushiftRight, Nat.shiftRight_eq_div_pow]
  omega

theorem halfSum_eq (a b : Byte) : halfSum a b = BitVec.ofNat 8 (a.toNat / 2 + b.toNat / 2) := by
  rw [← toNat_halfSum, BitVec.ofNat_toNat, BitVec.setWidth_eq]

/-- The half-pel value (R254) from the samples `q i j` at the offsets 0 and 1, by the two half-pel bits. -/
def halfPelValue (fx fy : Int) (q : Int → Int → Nat) : Nat :=
  if fx = 0 then (if fy = 0 then q 0 0 else q 0 0 / 2 + q 0 1 / 2)
  else if fy = 0 then q 0 0 / 2 + q 1 0 / 2
  else (q 0 0 / 2 + q 1 0 / 2) / 2 + (q 0 1 / 2 + q 1 1 / 2) / 2

/-- A half-pel pixel has a value when the sample farthest out is inside the plane, as the first one is. -/
theorem State.halfPel_eq_some_iff {s : State} {k : Fin 6} {p : Plane} {fx fy : Bool} {x y : Int} {v : Byte} :
    s.halfPel k p fx fy x y = some v ↔
      (0 ≤ x ∧ x + fx.toNat < planeWidth s.cfg p ∧ 0 ≤ y ∧ y + fy.toNat < planeHeight s.cfg p)
        ∧ BitVec.ofNat 8 (halfPelValue fx.toNat fy.toNat fun i j =>
          (s.byteAt k (pixAddr s.cfg p (x + i).toNat (y + j).toNat)).toNat) = v := by
  cases fx <;> cases fy <;> simp only [State.halfPel, State.pix_eq_some_iff, Option.bind_eq_some_iff,
    Option.map_eq_some_iff, existsAndEq, and_true, halfPelValue, Bool.toNat_false, Bool.toNat_true, Nat.cast_zero,
    Nat.cast_one, add_zero, if_true, one_ne_zero, if_false]
  case false.false => rw [BitVec.ofNat_toNat, BitVec.setWidth_eq]
  case true.true =>
    rw [halfSum_eq, toNat_halfSum, toNat_halfSum]
    simp only [← and_assoc]
    exact and_congr_left' (by omega)
  all_goals
    rw [halfSum_eq]
    simp only [← and_assoc]
    exact and_congr_left' (by omega)

/-- The lowest bit of a component is its half-pel bit. -/
theorem toInt_emod_two (a : Word) : a.toInt % 2 = (a.getLsbD 0).toNat := by
  have hbit : (a.getLsbD 0).toNat = a.toNat % 2 := by
    rw [BitVec.getLsbD, Nat.toNat_testBit, pow_zero, Nat.div_one]
  rw [hbit, BitVec.toInt_eq_toNat_cond]
  split <;> omega

/-- All that the pixel `(x, y)` of the rectangle needs lies inside the plane: its samples in the reference, and the pixel in
the destination (R254, R62). -/
def copySound (cfg : Config) (p : Plane) (r : Rect) (mv : MV) (x y : Nat) : Prop :=
  0 ≤ r.x + x + mv.x.toInt / 2 ∧ r.x + x + mv.x.toInt / 2 + mv.x.toInt % 2 < planeWidth cfg p
    ∧ 0 ≤ r.y + y + mv.y.toInt / 2 ∧ r.y + y + mv.y.toInt / 2 + mv.y.toInt % 2 < planeHeight cfg p
    ∧ r.x + x < planeWidth cfg p ∧ r.y + y < planeHeight cfg p

/-- What the copy writes to the pixel `(x, y)` of the rectangle, its samples read from `s` (R254). -/
def State.copiedByte (s : State) (k : Fin 6) (p : Plane) (r : Rect) (mv : MV) (x y : Nat) : Byte :=
  BitVec.ofNat 8 (halfPelValue (mv.x.toInt % 2) (mv.y.toInt % 2) fun i j =>
    (s.byteAt k (pixAddr s.cfg p (r.x + x + mv.x.toInt / 2 + i).toNat (r.y + y + mv.y.toInt / 2 + j).toNat)).toNat)

/-- The byte of the pixel `(x, y)` of the rectangle as the copy computes it. -/
def copyPixel (k : Fin 6) (p : Plane) (r : Rect) (mv : MV) (t : State) (x y : Nat) : Option Byte :=
  t.halfPel k p (mv.x.getLsbD 0) (mv.y.getLsbD 0) ((r.x + x : Nat) + (sar mv.x 1).toInt)
    ((r.y + y : Nat) + (sar mv.y 1).toInt)

theorem exec_copyBlock (k : Fin 6) (p : Plane) (r : Rect) (mv : MV) (s : State) : exec (.copyBlock k p r mv) s =
    (State.paint p r.x r.y (copyPixel k p r mv) (coords r.w r.h) s).step := rfl

section
variable {s t : State} {k : Fin 6} {p : Plane} {r : Rect} {mv : MV} {x y : Nat}

/-- A pixel inside the destination has a value when all it needs is there. -/
theorem copyPixel_eq_some_iff {v : Byte} (hx : r.x + x < planeWidth s.cfg p) (hy : r.y + y < planeHeight s.cfg p) :
    copyPixel k p r mv s x y = some v ↔ copySound s.cfg p r mv x y ∧ s.copiedByte k p r mv x y = v := by
  rw [copyPixel, State.halfPel_eq_some_iff, ← toInt_emod_two, ← toInt_emod_two, toInt_sar, toInt_sar, pow_one,
    Nat.cast_add, Nat.cast_add]
  exact and_congr_left' ⟨fun ⟨hx0, hx1, hy0, hy1⟩ => ⟨hx0, hx1, hy0, hy1, hx, hy⟩,
    fun ⟨hx0, hx1, hy0, hy1, _, _⟩ => ⟨hx0, hx1, hy0, hy1⟩⟩

/-- The copied byte is the same whatever the run has written to slot 0. -/
theorem State.samePixelsAside.copiedByte (h : s.samePixelsAside t) (hk : k ≠ 0) :
    t.copiedByte k p r mv x y = s.copiedByte k p r mv x y := by
  simp only [State.copiedByte, h.byteAt hk, h.cfg_eq]

/-! ### A run of copied pixels -/

/-- A run that is done needed nothing outside the plane. -/
theorem copySound_of_done {cs : List (Nat × Nat)} (h : State.paint p r.x r.y (copyPixel k p r mv) cs s = .done t) :
    ∀ c ∈ cs, copySound s.cfg p r mv c.1 c.2 := by
  intro c hc
  obtain ⟨⟨u, v, hu, hv⟩, hx, hy⟩ := State.paint_done_defined _ _ _ _ cs s t h c hc
  rw [← hu.cfg_eq] at hx hy ⊢
  exact ((copyPixel_eq_some_iff hx hy).mp hv).1

/-- A run that is done leaves each of its pixels holding the copied byte. -/
theorem byteAt_of_copied {cs : List (Nat × Nat)} (hk : k ≠ 0) (hnodup : cs.Nodup)
    (h : State.paint p r.x r.y (copyPixel k p r mv) cs s = .done t) :
    ∀ c ∈ cs, t.byteAt 0 (pixAddr s.cfg p (r.x + c.1) (r.y + c.2)) = s.copiedByte k p r mv c.1 c.2 := by
  have hsound := copySound_of_done h
  refine State.paint_const_value p r.x r.y _ cs s t ?_
  rw [← h, eq_comm]
  refine State.paint_eq_const p r.x r.y _ _ cs s hnodup (fun c hc => ?_) fun u hu c hc _ => ?_
  · obtain ⟨-, -, -, -, hx, hy⟩ := hsound c hc
    exact ⟨hx, hy⟩
  · have hs := hsound c hc
    rw [← hu.cfg_eq] at hs
    have ⟨_, _, _, _, hx, hy⟩ := hs
    exact (copyPixel_eq_some_iff hx hy).mpr ⟨hs, hu.copiedByte hk⟩

/-- A run that stops has done the pixels before the first that needs something outside the plane. -/
theorem copy_bad {cs : List (Nat × Nat)} (h : State.paint p r.x r.y (copyPixel k p r mv) cs s = .bad t) :
    ∃ before c after, cs = before ++ c :: after
      ∧ State.paint p r.x r.y (copyPixel k p r mv) before s = .done t ∧ ¬ copySound s.cfg p r mv c.1 c.2 := by
  obtain ⟨before, c, after, hsplit, hdone, hc⟩ := State.paint_bad _ _ _ _ cs s t h
  refine ⟨before, c, after, hsplit, hdone, fun hs => ?_⟩
  have hcfg : t.cfg = s.cfg := State.samePixelsAside.cfg_eq (State.paint_frame _ _ _ _ _ s t (.inl hdone))
  rw [← hcfg] at hs
  have ⟨_, _, _, _, hx, hy⟩ := hs
  rcases hc with hnone | hout
  · have hsome := (copyPixel_eq_some_iff (k := k) hx hy).mpr ⟨hs, rfl⟩
    rw [hnone] at hsome
    cases hsome
  · exact hout ⟨hx, hy⟩

end

/-! ### The rectangle inside the plane, and not (R254, R62, R318) -/

/-- Settles O40: no pixel stops the run (`copy_bad`), so every one is copied (`byteAt_of_copied`). -/
theorem copyBlockHalfPel : Obligations.CopyBlockHalfPel := by
  intro s k p r mv hk ix iy fx fy hx0 hx1 hy0 hy1 hw hh
  have hsound : ∀ c ∈ coords r.w r.h, copySound s.cfg p r mv c.1 c.2 := fun c hc => by
    obtain ⟨hcx, hcy⟩ := mem_coords.mp (show (c.1, c.2) ∈ _ from hc)
    exact ⟨by omega, by omega, by omega, by omega, by omega, by omega⟩
  rw [exec_copyBlock]
  cases hrun : State.paint p r.x r.y (copyPixel k p r mv) (coords r.w r.h) s with
  | bad t =>
    obtain ⟨before, c, after, hsplit, -, hc⟩ := copy_bad hrun
    exact absurd (hsound c (hsplit ▸ List.mem_append_right before List.mem_cons_self)) hc
  | done t =>
    refine ⟨t, rfl, State.paint_frame _ _ _ _ _ s t (.inl hrun), fun x y hx hy => ?_, fun a ha => ?_⟩
    · exact byteAt_of_copied hk (coords_nodup _ _) hrun (x, y) (mem_coords.mpr ⟨hx, hy⟩)
    · refine State.paint_outside _ _ _ _ a _ s t (fun c hc => ?_) (.inl hrun)
      obtain ⟨hcx, hcy⟩ := mem_coords.mp (show (c.1, c.2) ∈ _ from hc)
      exact ha c.1 c.2 hcx hcy

/-- Settles O41: were the run done, its first and its last pixel would be sound; where it stops, the pixels before are the
ones copied (`mem_before_iff`). -/
theorem copyBlockOutsideTraps : Obligations.CopyBlockOutsideTraps := by
  intro s k p r mv hw hh ix iy fx fy sound copied hout
  rw [exec_copyBlock]
  cases hrun : State.paint p r.x r.y (copyPixel k p r mv) (coords r.w r.h) s with
  | done t =>
    have hfirst := copySound_of_done hrun (0, 0) (mem_coords.mpr ⟨hw, hh⟩)
    have hlast := copySound_of_done hrun (r.w - 1, r.h - 1) (mem_coords.mpr ⟨by omega, by omega⟩)
    simp only [copySound] at hfirst hlast
    omega
  | bad t =>
    obtain ⟨before, c, after, hsplit, hdone, hc⟩ := copy_bad hrun
    have hcopied : ∀ {x y}, x < r.w → y < r.h → ((x, y) ∈ before ↔ copied x y) :=
      mem_before_iff hsplit (copySound_of_done hdone) hc
    have hnodup : before.Nodup := (List.nodup_append.mp (hsplit ▸ coords_nodup r.w r.h)).1
    refine ⟨t, State.paint_frame _ _ _ _ _ s t (.inl hdone), rfl, fun a ha => ?_, fun hk x y hx hy hxy => ?_⟩
    · refine State.paint_outside _ _ _ _ a before s t (fun d hd => ?_) (.inl hdone)
      obtain ⟨hdx, hdy⟩ := mem_coords.mp (hsplit ▸ List.mem_append_left _ hd : (d.1, d.2) ∈ coords r.w r.h)
      exact ha d.1 d.2 hdx hdy ((hcopied hdx hdy).mp hd)
    · exact byteAt_of_copied hk hnodup hdone (x, y) ((hcopied hx hy).mpr hxy)

end Sys2Proof.Machine
end

section
/-! ## The co-located macroblock (R258) -/

namespace Sys2Proof.Machine

/-! ### The planes of a frame do not overlap (R61) -/

theorem pixAddr_bounds {cfg : Config} {p : Plane} {x y : Nat} (hx : x < planeWidth cfg p) (hy : y < planeHeight cfg p) :
    planeBase cfg p ≤ pixAddr cfg p x y
      ∧ pixAddr cfg p x y < planeBase cfg p + planeWidth cfg p * planeHeight cfg p := by
  have hrows : (y + 1) * planeWidth cfg p ≤ planeHeight cfg p * planeWidth cfg p := Nat.mul_le_mul_right _ hy
  rw [Nat.add_mul, Nat.one_mul, Nat.mul_comm (planeHeight cfg p)] at hrows
  simp only [pixAddr]
  omega

/-- Of two planes one ends before the other begins. -/
theorem planes_disjoint (cfg : Config) {p q : Plane} (hpq : p ≠ q) :
    planeBase cfg p + planeWidth cfg p * planeHeight cfg p ≤ planeBase cfg q
      ∨ planeBase cfg q + planeWidth cfg q * planeHeight cfg q ≤ planeBase cfg p := by
  cases p <;> cases q <;> simp only [planeBase, planeWidth, planeHeight, ne_eq, not_true_eq_false] at hpq ⊢ <;> omega

/-- Pixels of two planes have two addresses. -/
theorem pixAddr_ne_of_plane_ne {cfg : Config} {p q : Plane} {x y x' y' : Nat} (hpq : p ≠ q) (hx : x < planeWidth cfg p)
    (hy : y < planeHeight cfg p) (hx' : x' < planeWidth cfg q) (hy' : y' < planeHeight cfg q) :
    pixAddr cfg p x y ≠ pixAddr cfg q x' y' := by
  obtain ⟨hp, hp'⟩ := pixAddr_bounds hx hy
  obtain ⟨hq, hq'⟩ := pixAddr_bounds hx' hy'
  rcases planes_disjoint cfg hpq with h | h <;> omega

/-! ### Copies with the vector (0,0) -/

/-- The rectangle lies inside the plane. -/
def insidePlane (cfg : Config) (p : Plane) (r : Rect) : Prop :=
  r.x + r.w ≤ planeWidth cfg p ∧ r.y + r.h ≤ planeHeight cfg p

/-- The copy of the plane's rectangle from slot 1 with the vector (0,0). -/
def zeroCopy (rect : Plane → Rect) (p : Plane) : Sys2Proof.Task := .op (.copyBlock 1 p (rect p) { x := 0, y := 0 })

/-- `t` is `s` with the rectangles of the planes `ps` in slot 0 holding the bytes of slot 1 at the same addresses, and
nothing else changed. -/
structure CoLocated (rect : Plane → Rect) (ps : List Plane) (s t : State) : Prop where
  frame : s.samePixelsAside t
  pixels : ∀ p ∈ ps, ∀ x y, x < (rect p).w → y < (rect p).h →
    t.byteAt 0 (pixAddr s.cfg p ((rect p).x + x) ((rect p).y + y))
      = s.byteAt 1 (pixAddr s.cfg p ((rect p).x + x) ((rect p).y + y))
  others : ∀ a, (∀ p ∈ ps, ∀ x y, x < (rect p).w → y < (rect p).h →
    a ≠ pixAddr s.cfg p ((rect p).x + x) ((rect p).y + y)) → t.byteAt 0 a = s.byteAt 0 a

section
variable {rect : Plane → Rect} {s t u : State} {p : Plane} {ps : List Plane} {rest : List Sys2Proof.Task}

/-- The vector (0,0) names the pixel's own address. -/
theorem State.copiedByte_zero (s : State) (k : Fin 6) (p : Plane) (r : Rect) (x y : Nat) :
    s.copiedByte k p r { x := 0, y := 0 } x y = s.byteAt k (pixAddr s.cfg p (r.x + x) (r.y + y)) := by
  have hzero : (0 : Word).toInt = 0 := rfl
  simp only [State.copiedByte, halfPelValue, hzero, Int.zero_ediv, Int.zero_emod, add_zero, if_true, ← Nat.cast_add,
    Int.toNat_natCast, BitVec.ofNat_toNat, BitVec.setWidth_eq]

theorem State.painted.setAgenda {x0 y0 w h : Nat} {v : Nat → Nat → Byte} (hp : s.painted t p x0 y0 w h v)
    (ag : List Sys2Proof.Task) : State.painted { s with agenda := ag } { t with agenda := ag } p x0 y0 w h v := by
  obtain ⟨hframe, hpixels, hothers⟩ := hp
  obtain ⟨m, rfl⟩ := State.samePixelsAside_iff.mp hframe
  exact ⟨rfl, hpixels, hothers⟩

/-- Inside the plane the copy paints its rectangle with the bytes at the same addresses of slot 1. -/
theorem step_zeroCopy (ha : s.agenda = zeroCopy rect p :: rest) (hin : insidePlane s.cfg p (rect p)) :
    ∃ u, step s = .next u ∧ State.painted { s with agenda := rest } u p (rect p).x (rect p).y (rect p).w (rect p).h
      fun x y => s.byteAt 1 (pixAddr s.cfg p ((rect p).x + x) ((rect p).y + y)) := by
  obtain ⟨hw, hh⟩ := hin
  obtain ⟨u, hexec, hframe, hpixels, hothers⟩ := copyBlockHalfPel { s with agenda := rest } 1 p (rect p)
    { x := 0, y := 0 } (by decide) (by simp) (by simp; omega) (by simp) (by simp; omega) hw hh
  exact ⟨u, (step_run ha rfl).trans hexec, hframe,
    fun x y hx hy => (hpixels x y hx hy).trans (State.copiedByte_zero s 1 p (rect p) x y), hothers⟩

/-- One plane more: the rectangles of the other planes have other addresses. -/
theorem CoLocated.cons (hp : p ∉ ps) (hin : ∀ q ∈ p :: ps, insidePlane s.cfg q (rect q))
    (hu : s.painted u p (rect p).x (rect p).y (rect p).w (rect p).h
      fun x y => s.byteAt 1 (pixAddr s.cfg p ((rect p).x + x) ((rect p).y + y)))
    (ht : CoLocated rect ps u t) : CoLocated rect (p :: ps) s t := by
  obtain ⟨huframe, hupixels, huothers⟩ := hu
  obtain ⟨htframe, htpixels, htothers⟩ := ht
  rw [huframe.cfg_eq] at htpixels htothers
  refine ⟨huframe.trans htframe, fun q hq x y hx hy => ?_, fun a ha => ?_⟩
  · rcases List.mem_cons.mp hq with rfl | hq
    · rw [htothers, hupixels x y hx hy]
      intro q' hq' x' y' hx' hy'
      obtain ⟨hw, hh⟩ := hin q List.mem_cons_self
      obtain ⟨hw', hh'⟩ := hin q' (List.mem_cons_of_mem _ hq')
      exact pixAddr_ne_of_plane_ne (fun h => hp (h ▸ hq')) (by omega) (by omega) (by omega) (by omega)
    · rw [htpixels q hq x y hx hy, huframe.byteAt (by decide)]
  · rw [htothers a fun q hq => ha q (List.mem_cons_of_mem _ hq), huothers a (ha p List.mem_cons_self)]

theorem steps_succ_of_step (k : Nat) (h : step s = .next u) : steps (k + 1) s = steps k u := by rw [steps, h]

end

/-- The copies of several planes, a step each. -/
theorem steps_zeroCopies {rect : Plane → Rect} {rest : List Sys2Proof.Task} : ∀ {ps : List Plane} {s : State},
    ps.Nodup → (∀ p ∈ ps, insidePlane s.cfg p (rect p)) → s.agenda = ps.map (zeroCopy rect) ++ rest →
    ∃ t, steps ps.length s = .next t ∧ CoLocated rect ps { s with agenda := rest } t
  | [], s, _, _, ha => by
    cases ha
    exact ⟨s, rfl, rfl, fun _ h => absurd h List.not_mem_nil, fun _ _ => rfl⟩
  | p :: ps, s, hnodup, hin, ha => by
    obtain ⟨hp, hnodup⟩ := List.nodup_cons.mp hnodup
    obtain ⟨u, hstep, hu⟩ := step_zeroCopy ha (hin p List.mem_cons_self)
    have ⟨hframe, _, _⟩ := hu
    have hcfg : u.cfg = s.cfg := hframe.cfg_eq
    have hagenda : u.agenda = ps.map (zeroCopy rect) ++ rest := by rw [hframe]; rfl
    obtain ⟨t, hsteps, ht⟩ := steps_zeroCopies hnodup (fun q hq => hcfg ▸ hin q (List.mem_cons_of_mem _ hq)) hagenda
    exact ⟨t, (steps_succ_of_step _ hstep).trans hsteps, .cons hp hin (hu.setAgenda rest) ht⟩

/-! ### The macroblock (R230, R258) -/

/-- The rectangle of the macroblock in each plane. -/
def State.mbPlaneRect (s : State) : Plane → Rect
  | .luma => s.mbRect
  | .chromaU => { x := 8 * s.mbx, y := 8 * s.mby, w := 8, h := 8 }
  | .chromaV => { x := 8 * s.mbx, y := 8 * s.mby, w := 8, h := 8 }

theorem State.chromaRect_mbRect (s : State) : chromaRect s.mbRect = { x := 8 * s.mbx, y := 8 * s.mby, w := 8, h := 8 } := by
  have hx : 16 * s.mbx / 2 = 8 * s.mbx := by omega
  have hy : 16 * s.mby / 2 = 8 * s.mby := by omega
  simp only [chromaRect, State.mbRect, hx, hy, Nat.reduceDiv]

/-- Every macroblock of a frame lies inside it (R6, R23). -/
theorem insidePlane_mbPlaneRect {s : State} (hcfg : s.cfg.wellFormed = true) (hmbi : s.mbi < s.mbTotal) (p : Plane) :
    insidePlane s.cfg p (s.mbPlaneRect p) := by
  have hx : s.mbx < s.cfg.w / 16 := Nat.mod_lt _ (mbw_pos hcfg)
  have hy : s.mby < s.cfg.h / 16 := Nat.div_lt_of_lt_mul hmbi
  cases p <;> simp only [insidePlane, State.mbPlaneRect, State.mbRect, planeWidth, planeHeight] <;> omega

/-- Motion mode 0 of the macroblock with `PMV` = (0,0) records the vector and schedules a copy of each plane. -/
theorem step_mvPred_zero {s : State} {rest : List Sys2Proof.Task} (hpmv : s.pmv = { x := 0, y := 0 })
    (ha : s.agenda = .mvValue s.mbRect 0 :: rest) : step s = .next { s with
      mvc := s.mvc.set (s.mbx + 1) { x := 0, y := 0 }
      agenda := [Plane.luma, .chromaU, .chromaV].map (zeroCopy s.mbPlaneRect) ++ rest } := by
  have hexec : exec (.mvPred s.mbRect) { s with agenda := rest } = leaf s.mbRect s.pmv 1 { s with agenda := rest } := rfl
  rw [step_run ha rfl, hexec, leaf_eq, hpmv, State.chromaRect_mbRect]
  rfl

/-- Settles O44: the mode schedules a copy of each plane (`step_mvPred_zero`), and the three are run (`steps_zeroCopies`). -/
theorem zeroVectorCopiesTheCoLocatedMacroblock : Obligations.ZeroVectorCopiesTheCoLocatedMacroblock := by
  intro s rest hcfg hmbi hpmv ha luma chroma
  obtain ⟨t, hsteps, hframe, hpixels, hothers⟩ := steps_zeroCopies (s := { s with
      mvc := s.mvc.set (s.mbx + 1) { x := 0, y := 0 }
      agenda := [Plane.luma, .chromaU, .chromaV].map (zeroCopy s.mbPlaneRect) ++ rest })
    (by decide) (fun p _ => insidePlane_mbPlaneRect hcfg hmbi p) rfl
  refine ⟨t, (steps_succ_of_step 3 (step_mvPred_zero hpmv ha)).trans hsteps, hframe, hpixels .luma (by decide),
    fun p hp => ?_, fun a hluma hchroma => hothers a fun p _ => ?_⟩
  · cases p with
    | luma => exact absurd rfl hp
    | chromaU => exact hpixels .chromaU (by decide)
    | chromaV => exact hpixels .chromaV (by decide)
  · cases p with
    | luma => exact hluma
    | chromaU => exact hchroma .chromaU (by decide)
    | chromaV => exact hchroma .chromaV (by decide)

end Sys2Proof.Machine
end

section
/-! ## Motion modes: what each schedules, and the escapes to intra (R96, R252, R256, R257, R280, R281) -/

namespace Sys2Proof

/-- A macroblock is a rectangle of 16×16 (R256). -/
theorem Rect.isMacroblock_iff {r : Rect} : r.isMacroblock = true ↔ r.w = 16 ∧ r.h = 16 := by
  simp only [Rect.isMacroblock, Bool.and_eq_true, beq_iff_eq]

/-- The values of the motion modes end at 9 (R96). -/
theorem decodeMvValue_of_gt (c : Cursor) (r : Rect) {v : Nat} (hv : 9 < v) :
    decodeMvValue c r v = .trap .unsupportedMode c := by
  obtain ⟨k, rfl⟩ : ∃ k, v = k + 10 := Nat.exists_eq_add_of_le' hv
  rfl

namespace Machine

variable {s : State} {r : Rect}

/-! ### What follows a motion mode (R252, R256, R280) -/

/-- Modes 1 to 5 have deltas, and a macroblock that is not intra has a residual. -/
theorem mvTasks_eq (r : Rect) (v : Nat) : mvTasks r v =
    (if v = 0 ∨ 5 < v then [.mvValue r v] else [.mvdx, .mvdy, .mvValue r v])
      ++ if (r.w, r.h) = (16, 16) ∧ v ≠ 6 ∧ v ≠ 7 then [.op .decodeResidualMB] else [] := by
  have hnone : (v = 0 ∨ 5 < v) ↔ ¬ (1 ≤ v ∧ v ≤ 5) := by omega
  simp only [mvTasks, Rect.isMacroblock_iff, Prod.mk.injEq, hnone, ite_not]
  by_cases hdelta : 1 ≤ v ∧ v ≤ 5
  · rw [if_pos hdelta, if_pos hdelta]
    rfl
  · rw [if_neg hdelta, if_neg hdelta]
    rfl

/-- The tree of the rectangle's size is walked, and the tasks of the value follow. -/
theorem exec_mvmode {t : HuffRom} (hr : s.ctx.rom (.mv s.cfg.stereo r.w r.h) = some t) (v : Nat) :
    exec (.mvmode r v) s = s.reading (fun c => c.huff s.cfg t) fun u => .next (u.push (mvTasks r v)) := by
  simp only [exec, execMvmode, hr]

/-- Settles O38: the codeword is a code of the tree of the rectangle's size, and a value above 9 decodes to a trap
(`decodeMvValue_of_gt`). -/
theorem motionModeSchedules : Obligations.MotionModeSchedules := by
  refine fun s r v => ⟨fun hreads => ?_, fun rest ha hv => step_trap ha (decodeMvValue_of_gt s.cursor r hv)⟩
  obtain ⟨hcfg, -, hwf, -⟩ := (s.reads_iff _).mp hreads
  obtain ⟨-, hleaf⟩ := Bool.and_eq_true_iff.mp hwf
  obtain ⟨t, ht, hcode⟩ := DecodeCtx.codeword_reads (x := s.ctx) hcfg hleaf
  obtain ⟨c, hpast, hgo⟩ := State.reading_code hreads hcode
  have hexec : exec (.mvmode r v) s = .next (State.push { s with cursor := c } (mvTasks r v)) :=
    (exec_mvmode ht v).trans (hgo _)
  exact ⟨c, hpast, by rw [hexec, mvTasks_eq]; rfl⟩

/-! ### The escapes to intra (R257, R281) -/

/-- At macroblock level the policy decides the cache entry of the column, and an intra macroblock follows. -/
theorem intraEscape_of_macroblock (h : r.w = 16 ∧ r.h = 16) (f : Bool) : intraEscape r f s = .next { s with
    mvc := if s.cfg.mvcIntra = .zero then s.mvc.set (s.mbx + 1) { x := 0, y := 0 } else s.mvc
    agenda := .op (.decodeIntraMB f) :: s.agenda } := by
  rw [intraEscape, if_pos (Rect.isMacroblock_iff.mpr h)]
  cases s.cfg.mvcIntra with
  | keep => rfl
  | zero => rfl

/-- Below macroblock level there is no escape. -/
theorem intraEscape_of_smaller (h : ¬ (r.w = 16 ∧ r.h = 16)) (f : Bool) :
    intraEscape r f s = .next (s.raise .unsupportedMode) := by
  rw [intraEscape, if_neg (mt Rect.isMacroblock_iff.mp h), State.trap_eq]

/-- Settles O43: modes 6 and 7 are `intraEscape` with their flag, which asks for the size of a macroblock. -/
theorem intraEscapes : Obligations.IntraEscapes := by
  intro s r f i
  have hexec : exec i s = intraEscape r f s := by cases f <;> rfl
  exact ⟨fun h => hexec.trans (intraEscape_of_macroblock h f), fun h => hexec.trans (intraEscape_of_smaller h f)⟩

end Machine

end Sys2Proof
end

section
/-! ## Where a zig-zag cursor below 0 leads (42_residual.md, log 15) -/

namespace Sys2Proof.Machine

/-- Below 0 the zig-zag cursor names what the free value says. -/
theorem zigzagAt_below (cfg : Config) (n : TSize) {pos : Word} (h : pos.toInt < 0) :
    zigzagAt cfg n pos = Config.zigzagBelow n pos := if_pos h

/-- Settles O16: the write and advance is that of any cursor before the end of the block (`exec_put_of_lt`), with the index
the free value names. -/
theorem negativeZigzagCursorGoesOn : Obligations.NegativeZigzagCursorGoesOn := by
  intro s n hneg
  refine ⟨_, exec_put_of_lt (by omega), fun hnone => ?_, fun i hsome => ?_⟩
  · rw [zigzagAt_below _ _ hneg, hnone, storeCoefficient]
  · rw [zigzagAt_below _ _ hneg, hsome, storeCoefficient]
    exact ⟨by rw [matAt_set, if_pos rfl], fun j hj => by rw [matAt_set, if_neg hj]⟩

end Sys2Proof.Machine
end

section
/-! ## The frame level: the call, the rotation, the frame headers, and exceptions (R23, R290 to R298, R310 to R319) -/

namespace Sys2Proof.Machine

/-! ### The call and the rotation (R290, R292, R295, R297, R298) -/

section
variable {s : State}

/-- Between calls `DecodeFrame` begins one (R290, R291). -/
theorem exec_start (bytes : List Byte) (h : s.phase = .awaitFrame) :
    exec (.decodeFrame (.start bytes)) s = .next { s with
      err := none, phase := .readFrameTypeBit, cursor := Cursor.start bytes, mbi := 0, handed := false
      agenda := [.ftype] } := if_pos h

/-- Before the last macroblock of an I-frame the loop goes on with the next (R295). -/
theorem exec_macroblocks_intra (h : s.mbi < s.mbTotal) : exec (.decodeFrame (.macroblocks .intra)) s
    = .next (s.push [.subflag, .op (.decodeFrame (.macroblockDone .intra))]) := if_pos h

/-- Before the last macroblock of a P-frame the loop goes on with the next (R297). -/
theorem exec_macroblocks_inter (h : s.mbi < s.mbTotal) : exec (.decodeFrame (.macroblocks .inter)) s
    = .next (s.push [.op .decodeInterMB, .op (.decodeFrame (.macroblockDone .inter))]) := if_pos h

/-- After the last macroblock the loop ends (R298). -/
theorem exec_macroblocks_end (k : FrameKind) (h : s.mbTotal ≤ s.mbi) :
    exec (.decodeFrame (.macroblocks k)) s = .next (s.push [.op (.decodeFrame .finish)]) := if_neg h.not_gt

end

/-- Settles O45: the two sides of the phase and of the macroblock count; the other stages are one write each. -/
theorem callBeginsAndEnds : Obligations.CallBeginsAndEnds := fun _ =>
  ⟨exec_start, exec_start_refused, fun h => ⟨exec_macroblocks_intra h, exec_macroblocks_inter h⟩,
    fun _ => rfl, exec_macroblocks_end, rfl, rfl⟩

/-- Settles O46: the rotation moves each slot as it is, and the cleared slot 0 reads 0 everywhere
(`FrameBuf.read_clear`). -/
theorem rotationAndClear : Obligations.RotationAndClear := fun s =>
  ⟨{ s with ring := s.ring.rotate.clearCurrent }, rfl, rfl, rfl, rfl, rfl, rfl, rfl, rfl, rfl,
    FrameBuf.read_clear s.cfg.ringInit s.ring.f5⟩

/-- Settles O50: taking an exception is `State.raise`, with the code of its kind. -/
theorem exceptionEntry : Obligations.ExceptionEntry := fun s e =>
  ⟨errorCode e, s.trap_eq e, by rintro rfl; rfl, by rintro rfl; rfl, by rintro rfl; rfl, by rintro rfl; rfl⟩

/-! ### The elements of one bit (R293 to R295) -/

/-- An instruction that is the read of one bit, its code, and an effect. -/
theorem takes_bit {s : State} {i : Instr} {b : Bool} {f : State → State} (hreads : s.reads i = true)
    (hcode : encode s.ctx i = [b])
    (hexec : exec i s = s.reading (fun c => c.readBool s.cfg) fun t => .next (f t)) :
    ∃ c, s.past i c = true ∧ exec i s = .next (f { s with cursor := c }) := by
  obtain ⟨c, hpast, hgo⟩ := State.reading_code hreads (hcode ▸ Cursor.readBool_reads s.cfg b)
  exact ⟨c, hpast, hexec.trans (hgo _)⟩

/-- Settles O47: each of the three elements is one bit. -/
theorem frameTypeSelects : Obligations.FrameTypeSelects := fun _ =>
  ⟨fun hreads => takes_bit (f := fun t =>
      State.push { t with phase := .decodeIFrame } [.op .rotateAndClear, .csbit, .vlcbit, .qp6]) hreads rfl rfl,
    fun hreads => takes_bit (f := fun t =>
      State.push { t with phase := .decodePFrame } [.op .rotateAndClear, .qpdelta]) hreads rfl rfl,
    fun f hreads => takes_bit (f := fun t => t.push [.op (.decodeIntraMB f)]) hreads rfl rfl⟩

/-! ### The headers (R294, R296, R314) -/

theorem qpInRange_iff {cfg : Config} {q : Int} : qpInRange cfg q = true ↔ cfg.qpMin ≤ q ∧ q ≤ cfg.qpMax := by
  simp only [qpInRange, Bool.and_eq_true, decide_eq_true_eq]

theorem not_qpInRange_iff {cfg : Config} {q : Int} : ¬ qpInRange cfg q = true ↔ q < cfg.qpMin ∨ cfg.qpMax < q := by
  rw [qpInRange_iff]
  omega

/-- The index of an I-frame is checked, and the three carried registers are written together or not at all (R294, R314). -/
theorem qp6_past {s : State} {q : BitVec 6} (hreads : s.reads (.qp6 q) = true) :
    ∃ c, s.past (.qp6 q) c = true ∧ exec (.qp6 q) s = if qpInRange s.cfg q.toNat then .next { s with
          cursor := c, cs := s.hdrCs, vlcidx := s.hdrVlc, qp := BitVec.ofNat 32 q.toNat, hdrvalid := true
          agenda := [.op (.setQuantizer (BitVec.ofNat 32 q.toNat)), .op (.decodeFrame (.macroblocks .intra))] ++ s.agenda }
        else .next (State.raise { s with cursor := c } .formatError) := by
  obtain ⟨c, hpast, hgo⟩ := State.reading_code hreads (Cursor.read_reads_bitsOf s.cfg (n := 6) (by decide) q.toNat)
  exact ⟨c, hpast, by simp only [exec, execQp6, hgo, BitVec.ofNat_toNat, State.trap_eq]; rfl⟩

/-- Settles O48: two held bits (`takes_bit`), and the two sides of the range check (`qp6_past`). -/
theorem iFrameHeader : Obligations.IFrameHeader := by
  refine fun s => ⟨fun f hreads => ?_, fun f hreads => ?_, fun q hreads => ?_⟩
  · exact takes_bit (f := fun t => { t with hdrCs := colourOf f }) hreads rfl rfl
  · exact takes_bit (f := fun t => { t with hdrVlc := f }) hreads rfl rfl
  · obtain ⟨c, hpast, hexec⟩ := qp6_past hreads
    exact ⟨c, hpast, fun hmin hmax => hexec.trans (if_pos (qpInRange_iff.mpr ⟨hmin, hmax⟩)),
      fun hout => hexec.trans (if_neg (not_qpInRange_iff.mpr hout))⟩

/-- The sum of an index in range and a signed element does not wrap (R8, R296). -/
theorem toInt_add_delta {cfg : Config} (hcfg : cfg.wellFormed = true) {q : Word} {d : Int}
    (hq : qpInRange cfg q.toInt = true) (hd : seValue d = true) : (q + BitVec.ofInt 32 d).toInt = q.toInt + d := by
  obtain ⟨hlow, hhigh⟩ := qp_bounds hcfg hq
  simp only [seValue, Bool.and_eq_true, decide_eq_true_eq] at hd
  rw [BitVec.toInt_add, BitVec.toInt_ofInt, Int.add_bmod_bmod, Int.bmod_eq_of_le (by omega) (by omega)]

/-- What follows the delta of a P-frame: the key-frame check, the range check, and the index carried on (R296, R314). -/
theorem qpdelta_past {s : State} {d : Int} (hreads : s.reads (.qpdelta d) = true) :
    ∃ c, s.past (.qpdelta d) c = true ∧ exec (.qpdelta d) s = if s.hdrvalid = true ∧
          qpInRange s.cfg (s.qp + BitVec.ofInt 32 d).toInt = true then .next { s with
            cursor := c
            qp := if s.cfg.qpAccumulates then s.qp + BitVec.ofInt 32 d else s.qp
            mvc := List.replicate (s.cfg.mbw + 2) { x := 0, y := 0 }
            agenda := [.op (.setQuantizer (s.qp + BitVec.ofInt 32 d)), .op (.decodeFrame (.macroblocks .inter))]
              ++ s.agenda }
        else .next (State.raise { s with cursor := c } .formatError) := by
  obtain ⟨-, -, hwf, -⟩ := (s.reads_iff _).mp hreads
  obtain ⟨c, hpast, hgo⟩ := State.reading_code hreads (Cursor.readSE_reads s.cfg hwf)
  refine ⟨c, hpast, ?_⟩
  simp only [exec, execQpdelta, hgo, State.trap_eq]
  cases hv : s.hdrvalid with
  | false => simp only [if_true, Bool.false_eq_true, false_and, if_false]
  | true => simp only [Bool.true_eq_false, if_false, true_and]; rfl

/-- Settles O49: `qpdelta_past`, with the sum taken in the integers (`toInt_add_delta`). -/
theorem pFrameHeader : Obligations.PFrameHeader := by
  intro s d hreads
  obtain ⟨hcfg, -, hwf, -⟩ := (s.reads_iff _).mp hreads
  obtain ⟨c, hpast, hexec⟩ := qpdelta_past hreads
  refine ⟨c, hpast, fun hv => hexec.trans (if_neg fun h => by simp [hv] at h), fun hv hmin hmax => ?_⟩
  have hsum : (s.qp + BitVec.ofInt 32 d).toInt = s.qp.toInt + d :=
    toInt_add_delta hcfg (qpInRange_iff.mpr ⟨hmin, hmax⟩) hwf
  have hword : BitVec.ofInt 32 (s.qp.toInt + d) = s.qp + BitVec.ofInt 32 d := by rw [← hsum, BitVec.ofInt_toInt]
  rw [hsum] at hexec
  rw [hword]
  exact ⟨fun hlow hhigh => hexec.trans (if_pos ⟨hv, qpInRange_iff.mpr ⟨hlow, hhigh⟩⟩),
    fun hout => hexec.trans (if_neg fun h => not_qpInRange_iff.mpr hout h.2)⟩

end Sys2Proof.Machine
end

section
/-! SUPPORT. What stands at a position (10_state.md rule R22): position by position, the instructions that decoding gives
there. -/

namespace Sys2Proof.Machine

/-- The instruction `i` can stand at the position `t` of the decode procedure: what the bits or the code value there are
(R92, R93), or the operation whose position it is. The read primitives stand at no position the sequencer schedules. -/
inductive StandsAt : Task → Instr → Prop where
  | ftypeI : StandsAt .ftype .ftypeI
  | ftypeP : StandsAt .ftype .ftypeP
  | csbit (f : Bool) : StandsAt .csbit (.csbit f)
  | vlcbit (f : Bool) : StandsAt .vlcbit (.vlcbit f)
  | qp6 (q : BitVec 6) : StandsAt .qp6 (.qp6 q)
  | qpdelta (d : Int) : StandsAt .qpdelta (.qpdelta d)
  | subflag (f : Bool) : StandsAt .subflag (.subflag f)
  | cbpidx (i : Nat) : StandsAt .cbpidx (.cbpidx i)
  | mode3 (m : BitVec 3) : StandsAt .mode3 (.mode3 m)
  | cmode3 (m : BitVec 3) : StandsAt .cmode3 (.cmode3 m)
  | partflag8x8 (p : Plane) (x y : Nat) (m : BlockMode) : StandsAt (.partflag p x y m) (.partflag8x8 p x y m)
  | partflag4x4 (p : Plane) (x y : Nat) (m : BlockMode) (f : Nat) :
    StandsAt (.partflag p x y m) (.partflag4x4 p x y m (f + 1))
  | mpmTaken (b : Block) : StandsAt (.mpm b) (.mpmTaken b)
  | mpmRem (b : Block) (r : BitVec 3) : StandsAt (.mpm b) (.mpmRem b r)
  | dpdelta (d : Int) : StandsAt .dpdelta (.dpdelta d)
  | pred (b : Block) (code : Nat) (m : IntraMode) : StandsAt (.predCode b code) (predInstr b m)
  | hsym (n : BitVec 12) : StandsAt .hsym (.hsym n)
  | hsymT0x000 : StandsAt .hsym .hsymT0x000
  | hsymT0x802 : StandsAt .hsym .hsymT0x802
  | rsymDirect (n : TSize) : StandsAt (.form n) (.rsymDirect n)
  | rsymAmpEsc (n : TSize) : StandsAt (.form n) (.rsymAmpEsc .select n)
  | rsymRunEsc (n : TSize) : StandsAt (.form n) (.rsymRunEsc .select n)
  | rsymRaw (n : TSize) : StandsAt (.form n) (.rsymRaw n)
  | sign (f : Bool) : StandsAt .sign (.sign f)
  | rawend (f : Bool) : StandsAt .rawend (.rawend f)
  | rawrun (r : BitVec 6) : StandsAt .rawrun (.rawrun r)
  | rawamp (a : BitVec 12) : StandsAt .rawamp (.rawamp a)
  | mvmode (r : Rect) (v : Nat) : StandsAt (.mvmode r) (.mvmode r v)
  | mvPred (r : Rect) : StandsAt (.mvValue r 0) (.mvPred r)
  | mvDelta1 (r : Rect) : StandsAt (.mvValue r 1) (.mvDelta1 r)
  | mvDelta2 (r : Rect) : StandsAt (.mvValue r 2) (.mvDelta2 r)
  | mvDelta3 (r : Rect) : StandsAt (.mvValue r 3) (.mvDelta3 r)
  | mvDelta4 (r : Rect) : StandsAt (.mvValue r 4) (.mvDelta4 r)
  | mvDelta5 (r : Rect) : StandsAt (.mvValue r 5) (.mvDelta5 r)
  | mbIntra (r : Rect) : StandsAt (.mvValue r 6) (.mbIntra r)
  | mbIntraSub (r : Rect) : StandsAt (.mvValue r 7) (.mbIntraSub r)
  | mvSplitH (r : Rect) : StandsAt (.mvValue r 8) (.mvSplitH r)
  | mvSplitW (r : Rect) : StandsAt (.mvValue r 9) (.mvSplitW r)
  | mvdx (d : Int) : StandsAt .mvdx (.mvdx d)
  | mvdy (d : Int) : StandsAt .mvdy (.mvdy d)
  | block8 (p : Plane) (x y : Nat) (m : BlockMode) (bit : Fin 6) (f : Bool) :
    StandsAt (.block8 p x y m bit) (.decodeBlock8 p x y m f)
  | op (i : Instr) : StandsAt (.op i) i

/-- What decoding gives is in order at the position `t`: an instruction that stands there or an error, no rejection. -/
def InOrder (t : Task) : Decoded → Prop
  | .instr i => StandsAt t i
  | .trap _ _ => True
  | .rejected _ => False

section
variable {x : DecodeCtx} {c : Cursor} {t : Task}

theorem inOrder_read {α : Type} {r : ReadOut α} {f : α → Instr} (hf : ∀ v, StandsAt t (f v)) : InOrder t (r.decoded f) := by
  cases r with
  | ok v c => exact hf v
  | err e c => trivial

theorem inOrder_mpm (b : Block) : InOrder (.mpm b) (decodeMpm x c b) := by
  unfold decodeMpm
  split
  · trivial
  · exact .mpmTaken b
  · exact inOrder_read fun r => .mpmRem b _

theorem inOrder_predCode (b : Block) (code : Nat) : InOrder (.predCode b code) (decodePredCode x c b code) := by
  unfold decodePredCode
  split
  · exact .pred b code _
  · trivial

theorem inOrder_hsym : InOrder .hsym (decodeHsym x c) := by
  unfold decodeHsym
  split
  · exact .hsymT0x000
  · split
    · exact .hsymT0x802
    · exact inOrder_read fun v => .hsym _

theorem inOrder_form (n : TSize) : InOrder (.form n) (decodeForm x c n) := by
  unfold decodeForm
  split
  · exact .rsymDirect n
  · split
    · trivial
    · exact .rsymAmpEsc n
    · refine inOrder_read fun b => ?_
      cases b with
      | true => exact .rsymRunEsc n
      | false => exact .rsymRaw n

theorem inOrder_mvValue (r : Rect) : ∀ v, InOrder (.mvValue r v) (decodeMvValue c r v)
  | 0 => .mvPred r
  | 1 => .mvDelta1 r
  | 2 => .mvDelta2 r
  | 3 => .mvDelta3 r
  | 4 => .mvDelta4 r
  | 5 => .mvDelta5 r
  | 6 => .mbIntra r
  | 7 => .mbIntraSub r
  | 8 => .mvSplitH r
  | 9 => .mvSplitW r
  | _ + 10 => trivial

/-- The tree of a motion mode is there where its size has one (R144, R257). -/
theorem rom_mv_isSome {x : DecodeCtx} {w h : Nat} (hs : (x.cfg.mvTree? w h).isSome = true) (stereo : Bool) :
    (x.rom (.mv stereo w h)).isSome = true := by
  rw [DecodeCtx.rom, Option.isSome_map, hs]

theorem inOrder_mvmode {r : Rect} (hs : (x.cfg.mvTree? r.w r.h).isSome = true) :
    InOrder (.mvmode r) (decodeMvmode x c r) := by
  obtain ⟨tree, htree⟩ := Option.isSome_iff_exists.mp (rom_mv_isSome hs x.cfg.stereo)
  simp only [decodeMvmode, htree]
  exact inOrder_read fun v => .mvmode r v

/-- At a legal position decoding gives an instruction that stands there or an error of the bits: every legal position has
an instruction for whatever follows in the stream (R22, R92). -/
theorem inOrder_decode (hl : legalTask x.cfg t = true) : InOrder t (decode x c t) := by
  cases t with
  | read f => cases hl
  | ftype =>
    refine inOrder_read fun b => ?_
    split
    · exact .ftypeI
    · exact .ftypeP
  | partflag p px py m =>
    refine inOrder_read fun f => ?_
    cases f with
    | zero => exact .partflag8x8 p px py m
    | succ f => exact .partflag4x4 p px py m f
  | mpm b => exact inOrder_mpm b
  | predCode b code => exact inOrder_predCode b code
  | hsym => exact inOrder_hsym
  | form n => exact inOrder_form n
  | mvmode r => exact inOrder_mvmode hl
  | mvValue r v => exact inOrder_mvValue r v
  | block8 p px py m bit => exact .block8 p px py m bit _
  | op i => exact .op i
  | _ => exact inOrder_read fun v => by constructor

end

/-- The rule of a reconstruction mode predicts its block, or stops for a neighbour that is not there (R204 to R215). -/
theorem predInstr_cases (b : Block) (m : IntraMode) (s : State) :
    (∃ f, exec (predInstr b m) s = s.predict b f) ∨ exec (predInstr b m) s = s.trap .invalidGeometry := by
  cases m <;> dsimp only [predInstr, exec]
  case vertical =>
    unfold execPredV
    split
    · exact .inr rfl
    · exact .inl ⟨_, rfl⟩
  case horizontal =>
    unfold execPredH
    split
    · exact .inr rfl
    · exact .inl ⟨_, rfl⟩
  case deltaPlane =>
    unfold execPredPlane
    split
    · exact .inl ⟨_, rfl⟩
    · exact .inr rfl
    · exact .inr rfl
  case dc =>
    unfold execPredDC
    split
    · exact .inl ⟨_, rfl⟩
    · exact .inr rfl
    · exact .inr rfl
  case horizontalUp =>
    unfold execPredHU
    split
    · exact .inr rfl
    · exact .inl ⟨_, rfl⟩
  case horizontalDown =>
    unfold execPredHD
    split
    · exact .inl ⟨_, rfl⟩
    · exact .inr rfl
  case verticalRight =>
    unfold execPredVR
    split
    · exact .inl ⟨_, rfl⟩
    · exact .inr rfl
  case diagonalDownRight =>
    unfold execPredDDR
    split
    · exact .inl ⟨_, rfl⟩
    · exact .inr rfl
  case verticalLeft =>
    unfold execPredVL
    split
    · exact .inr rfl
    · exact .inl ⟨_, rfl⟩

end Sys2Proof.Machine
end

section
/-! ## An I-frame and the reference slots (R294, R295, R298, R300)

What is left of an I-frame after its rotation neither copies nor rotates, and schedules nothing that does: so every step of
it does the same whatever slots 1 to 5 hold (`exec_sameButRefs`). -/

namespace Sys2Proof.Machine

/-- The state is at a position within an I-frame, with no further call submitted. -/
def State.WithinIFrame (cfg : Config) (s : State) : Prop :=
  s.cfg = cfg ∧ s.calls = [] ∧ s.agenda.all (intraTask cfg) = true

section
variable {cfg : Config} {s : State}

/-- A state that differs in other fields only. -/
theorem within_of_eq {u : State} (h : s.WithinIFrame cfg) (hu : (u.cfg, u.calls, u.agenda) = (s.cfg, s.calls, s.agenda)) :
    u.WithinIFrame cfg := by
  simp only [Prod.mk.injEq] at hu
  obtain ⟨hcfg, hcalls, hagenda⟩ := hu
  rwa [State.WithinIFrame, hcfg, hcalls, hagenda]

/-- Scheduling positions of an I-frame. -/
theorem within_push {ts : List Task} (h : s.WithinIFrame cfg) (hts : ts.all (intraTask cfg) = true) :
    Ensures (State.WithinIFrame cfg) (.next (s.push ts)) := by
  obtain ⟨hcfg, hcalls, hagenda⟩ := h
  exact .next ⟨hcfg, hcalls, by rw [State.push_agenda, List.all_append, hts, hagenda]; rfl⟩

theorem within_trap {e : ErrorKind} (h : s.WithinIFrame cfg) : Ensures (State.WithinIFrame cfg) (s.trap e) :=
  .next ⟨h.1, h.2.1, rfl⟩

theorem within_reading {α : Type} {r : Cursor → ReadOut α} {go : State → Step} (h : s.WithinIFrame cfg)
    (hgo : ∀ c, State.WithinIFrame cfg { s with cursor := c } →
      Ensures (State.WithinIFrame cfg) (go { s with cursor := c })) :
    Ensures (State.WithinIFrame cfg) (s.reading r go) := by
  rcases s.reading_cases r go with ⟨v, c, -, heq⟩ | ⟨e, c, -, heq⟩ <;> rw [heq]
  · exact hgo c (within_of_eq h rfl)
  · exact within_trap (within_of_eq h rfl)

theorem within_paint (h : s.WithinIFrame cfg) (p : Plane) (x0 y0 : Nat) (f : State → Nat → Nat → Option Byte)
    (cs : List (Nat × Nat)) : Ensures (State.WithinIFrame cfg) (State.paint p x0 y0 f cs s).step := by
  cases hp : State.paint p x0 y0 f cs s with
  | done t =>
    have hframe := State.paint_frame p x0 y0 f cs s t (.inl hp)
    exact .next (within_of_eq h (by rw [hframe]))
  | bad t =>
    have hframe := State.paint_frame p x0 y0 f cs s t (.inr hp)
    exact within_trap (within_of_eq h (by rw [hframe]))

theorem within_recordMode (h : s.WithinIFrame cfg) (b : Block) (a : Nat) : (s.recordMode b a).WithinIFrame cfg := by
  exact within_of_eq h (by simp)

/-! ### Positions an I-frame schedules -/

theorem intra_predTasks (cfg' : Config) (b : Block) (a : Nat) : (predTasks cfg' b a).all (intraTask cfg) = true := by
  unfold predTasks
  split <;> rfl

theorem intra_subBlockTasks (p : Plane) (m : BlockMode) (mask : BitVec 4) (views : List (Nat × Nat × Nat)) :
    (views.flatMap (subBlockTasks p m mask)).all (intraTask cfg) = true := by
  rw [List.all_flatMap, List.all_eq_true]
  intro v _
  unfold subBlockTasks
  dsimp only
  split <;> rfl

/-- A quantizer index that has passed its check (R314). -/
theorem intra_setQuantizer {q : BitVec 6} (hq : qpInRange cfg q.toNat = true) :
    intraTask cfg (.op (.setQuantizer (q.setWidth 32))) = true := by
  rw [← toInt_setWidth_six] at hq
  exact (Bool.and_true _).trans hq

/-! ### Every instruction of an I-frame stays within it -/

theorem within_qp6 (h : s.WithinIFrame cfg) (q : BitVec 6) : Ensures (State.WithinIFrame cfg) (execQp6 q s) := by
  refine within_reading h fun c hc => ?_
  dsimp only
  split
  · rename_i hq
    rw [hc.1] at hq
    refine within_push (within_of_eq hc rfl) ?_
    rw [List.all_cons, intra_setQuantizer hq]
    rfl
  · exact within_trap hc

theorem within_mode3 (h : s.WithinIFrame cfg) (m : BitVec 3) : Ensures (State.WithinIFrame cfg) (execMode3 m s) := by
  refine within_reading h fun c hc => ?_
  split
  · exact within_trap hc
  · split
    · exact within_push hc rfl
    · exact within_push hc rfl

theorem within_cmode3 (h : s.WithinIFrame cfg) (m : BitVec 3) : Ensures (State.WithinIFrame cfg) (execCmode3 m s) := by
  refine within_reading h fun c hc => ?_
  split
  · exact within_trap hc
  · exact within_push hc rfl

theorem within_partflag4x4 (h : s.WithinIFrame cfg) (p : Plane) (x y : Nat) (m : BlockMode) (f : Nat) :
    Ensures (State.WithinIFrame cfg) (execPartflag4x4 p x y m f s) := by
  unfold execPartflag4x4
  split
  · exact .refused _
  · refine within_reading h fun c hc => ?_
    dsimp only
    split
    · rw [State.partitioned_eight]
      exact within_push hc (intra_subBlockTasks p m _ _)
    · exact within_trap hc

/-- A recorded mode, and the positions of its rule. -/
theorem within_mode (h : s.WithinIFrame cfg) (b : Block) (a : Nat) :
    Ensures (State.WithinIFrame cfg) (.next ((s.recordMode b a).push (predTasks s.cfg b a))) :=
  within_push (within_recordMode h b a) (intra_predTasks s.cfg b a)

theorem within_putCoefficient (h : s.WithinIFrame cfg) (n : TSize) :
    Ensures (State.WithinIFrame cfg) (putCoefficient n s) := by
  unfold putCoefficient
  dsimp only
  split
  · exact within_trap (within_of_eq h rfl)
  · split
    · exact .next (within_of_eq h rfl)
    · exact within_push (within_of_eq h rfl) rfl

theorem within_predInstr (h : s.WithinIFrame cfg) (b : Block) (m : IntraMode) :
    Ensures (State.WithinIFrame cfg) (exec (predInstr b m) s) := by
  rcases predInstr_cases b m s with ⟨f, heq⟩ | heq <;> rw [heq]
  · exact within_paint h _ _ _ _ _
  · exact within_trap h

/-- The stages of `DecodeFrame` in an I-frame. -/
theorem within_decodeFrame (h : s.WithinIFrame cfg) {st : FrameStage}
    (hst : intraTask cfg (.op (.decodeFrame st)) = true) : Ensures (State.WithinIFrame cfg) (execDecodeFrame st s) := by
  cases st with
  | start bytes => cases hst
  | macroblocks k =>
    cases k with
    | inter => cases hst
    | intra =>
      dsimp only [execDecodeFrame, nextMacroblock]
      split
      · exact within_push h rfl
      · exact within_push h rfl
  | macroblockDone k =>
    cases k with
    | inter => cases hst
    | intra => exact within_push (within_of_eq h rfl) rfl
  | finish => exact within_push (within_of_eq h rfl) rfl
  | handOver => exact .next (within_of_eq h rfl)

/-- The operations of an I-frame. -/
theorem within_op (h : s.WithinIFrame cfg) {i : Instr} (hi : intraTask cfg (.op i) = true) :
    Ensures (State.WithinIFrame cfg) (exec i s) := by
  cases i <;> dsimp only [exec]
  case predNone b => exact .next (within_of_eq h rfl)
  case predPredicted b => exact within_push h rfl
  case rsymAmpEsc st n =>
    cases st with
    | select => cases hi
    | lookup => exact within_push (within_of_eq h rfl) rfl
  case rsymRunEsc st n =>
    cases st with
    | select => cases hi
    | lookup => exact within_push (within_of_eq h rfl) rfl
  case decodeFrame st => exact within_decodeFrame h hi
  case setQuantizer q => exact .next (within_of_eq h rfl)
  case decodeIntraMB f => cases f <;> exact within_push (within_of_eq h rfl) rfl
  case decodeBlock8 p x y m f => cases f <;> exact within_push h rfl
  case decodeResidualMB => exact within_push h rfl
  case residualDecode st n =>
    cases st with
    | start => exact within_push (within_of_eq h rfl) rfl
    | put => exact within_putCoefficient h n
  case dequantize n => exact .next (within_of_eq h rfl)
  case inverseTransform n => exact .next (within_of_eq h rfl)
  case applyResidual st p x y n =>
    cases st with
    | start => exact within_push h rfl
    | add => exact within_paint h _ _ _ _ _
  case predictBlock b m =>
    cases m with
    | explicit m => exact within_push h (intra_predTasks s.cfg b _)
    | nothing => exact within_push h rfl
    | predicted => exact within_push h rfl
  all_goals cases hi

/-- Whatever stands at a position of an I-frame stays within it. -/
theorem within_exec (h : s.WithinIFrame cfg) {t : Task} {i : Instr} (ht : intraTask cfg t = true) (hi : StandsAt t i) :
    Ensures (State.WithinIFrame cfg) (exec i s) := by
  cases hi
  case op => exact within_op h ht
  case pred b code m => exact within_predInstr h b m
  all_goals dsimp only [exec]
  case csbit | vlcbit | dpdelta | hsym | hsymT0x000 | hsymT0x802 | sign | rawend | rawrun | rawamp =>
    exact within_reading h fun _ hc => .next (within_of_eq hc rfl)
  case qp6 q => exact within_qp6 h q
  case subflag f => exact within_reading h fun _ hc => within_push hc rfl
  case cbpidx i =>
    refine within_reading h fun c hc => ?_
    split
    · exact .next (within_of_eq hc rfl)
    · exact within_trap hc
  case mode3 m => exact within_mode3 h m
  case cmode3 m => exact within_cmode3 h m
  case partflag8x8 p x y m => exact within_reading h fun _ hc => within_push hc rfl
  case partflag4x4 p x y m f => exact within_partflag4x4 h p x y m (f + 1)
  case mpmTaken b => exact within_reading h fun _ hc => within_mode hc b _
  case mpmRem b r => exact within_reading h fun _ hc => within_reading hc fun _ hc => within_mode hc b _
  case rsymDirect n => exact within_push h rfl
  case rsymAmpEsc | rsymRunEsc =>
    dsimp only [execRsymAmpEsc, execRsymRunEsc]
    exact within_reading h fun _ hc => within_push hc rfl
  case rsymRaw n => exact within_reading h fun _ hc => within_push hc rfl
  case block8 p x y m bit f => cases f <;> exact within_push h rfl
  case mvmode r v => simp only [intraTask, Bool.and_false, Bool.false_eq_true] at ht
  all_goals cases ht

/-- Nothing that stands at a position of an I-frame rotates or copies. -/
theorem noReference_of_standsAt {t : Task} {i : Instr} (ht : intraTask cfg t = true) (hi : StandsAt t i) :
    i ≠ .rotateAndClear ∧ ∀ k p c v, i ≠ .copyBlock k p c v := by
  cases hi with
  | op => exact ⟨fun e => (by subst e; cases ht), fun k p c v e => (by subst e; cases ht)⟩
  | pred b code m => cases m <;> exact ⟨nofun, nofun⟩
  | _ => exact ⟨nofun, nofun⟩

/-! ### Every step of an I-frame -/

theorem legalTask_of_intraTask {t : Task} (h : intraTask cfg t = true) : legalTask cfg t = true :=
  (Bool.and_eq_true_iff.mp h).1

/-- The head of the agenda of an I-frame is a position of it, and so is what is left. -/
theorem within_cons (h : s.WithinIFrame cfg) {x : Task} {rest : List Task} (ha : s.agenda = x :: rest) :
    intraTask cfg x = true ∧ State.WithinIFrame cfg { s with agenda := rest } ∧ InOrder x (decode s.ctx s.cursor x) := by
  obtain ⟨rfl, hcalls, hagenda⟩ := h
  rw [ha, List.all_cons, Bool.and_eq_true] at hagenda
  obtain ⟨hx, hrest⟩ := hagenda
  exact ⟨hx, ⟨rfl, hcalls, hrest⟩, inOrder_decode (x := s.ctx) (legalTask_of_intraTask hx)⟩

/-- A step within an I-frame stays within it. -/
theorem step_within (h : s.WithinIFrame cfg) : Ensures (State.WithinIFrame cfg) (step s) := by
  intro t hstep
  rcases step_next_cases hstep with ⟨x, rest, i, ha, hd, he⟩ | ⟨x, rest, e, c, ha, hd, rfl⟩ | ⟨bytes, rest, -, -, hc, -⟩
    | ⟨-, rfl⟩
  · obtain ⟨hx, hrest, hin⟩ := within_cons h ha
    rw [hd] at hin
    exact within_exec hrest hx hin t he
  · exact ⟨h.1, h.2.1, rfl⟩
  · cases h.2.1.symm.trans hc
  · exact h

/-- A step of a block that has nothing to do. -/
theorem step_of_nil (ha : s.agenda = []) (hc : s.calls = []) :
    step s = if s.phase = .awaitFrame then .next s else .fault .lostSequence := by
  by_cases hp : s.phase = .awaitFrame
  · rw [if_pos hp, step_eq, fetch_idle ha hp hc]
  · simp only [step_eq, State.fetch, ha, if_neg hp]

/-- A step within an I-frame does the same whatever slots 1 to 5 hold. -/
theorem step_sameButRefs (h : s.WithinIFrame cfg) (r : Ring) : SameButRefs r (step s) (step (s.withRefs r)) := by
  cases ha : s.agenda with
  | nil =>
    rw [step_of_nil ha h.2.1, step_of_nil (s := s.withRefs r) ha h.2.1]
    exact same_ite rfl rfl
  | cons x rest =>
    obtain ⟨hx, -, hin⟩ := within_cons h ha
    cases hd : decode s.ctx s.cursor x with
    | instr i =>
      rw [hd] at hin
      obtain ⟨hrotate, hcopy⟩ := noReference_of_standsAt hx hin
      rw [step_run ha hd, step_run (s := s.withRefs r) ha hd]
      exact exec_sameButRefs i _ r hrotate hcopy
    | trap e c =>
      obtain ⟨-, trapped, -⟩ := stepRunsTheDecodedInstruction s
      obtain ⟨-, trapped', -⟩ := stepRunsTheDecodedInstruction (s.withRefs r)
      rw [trapped x rest e c ha hd, trapped' x rest e c ha hd]
      rfl
    | rejected j =>
      rw [hd] at hin
      exact hin.elim

/-- Any number of steps within an I-frame does the same whatever slots 1 to 5 hold. -/
theorem steps_sameButRefs (r : Ring) : ∀ (n : Nat) {s : State}, s.WithinIFrame cfg →
    SameButRefs r (steps n s) (steps n (s.withRefs r))
  | 0, _, _ => rfl
  | n + 1, s, h => by
    have hsame : step (s.withRefs r) = mapNext (fun t => t.withRefs r) (step s) := step_sameButRefs h r
    rw [steps, steps, hsame]
    cases hstep : step s with
    | next t => exact steps_sameButRefs r n (step_within h t hstep)
    | fault e => rfl
    | refused e => rfl

end

/-- Settles O60: the agenda given is one of an I-frame, and `steps_sameButRefs` is the simulation. -/
theorem iFrameDependsOnNoReference : Obligations.IFrameDependsOnNoReference :=
  fun _ r n hcalls hagenda => steps_sameButRefs r n ⟨rfl, hcalls, hagenda⟩

end Sys2Proof.Machine
end

section
/-! ## Every step goes on (R318, R320, R351)

Every instruction but a few answers a next state in every state; the invariant keeps those few from standing on the agenda
(R122, R235, R340, R347), and the agenda from running empty during a call (log 28). -/

namespace Sys2Proof.Machine

/-- The outcome is a next state. -/
def GoesOn (o : Step) : Prop := ∃ t, o = .next t

section
variable {s : State}

theorem goesOn_next (t : State) : GoesOn (.next t) := ⟨t, rfl⟩

/-- A read goes on when what follows it does: its error is taken. -/
theorem goesOn_reading {α : Type} {r : Cursor → ReadOut α} {go : State → Step}
    (hgo : ∀ c, GoesOn (go { s with cursor := c })) : GoesOn (s.reading r go) := by
  rcases s.reading_cases r go with ⟨v, c, -, heq⟩ | ⟨e, c, -, heq⟩ <;> rw [heq]
  · exact hgo c
  · exact goesOn_next _

theorem goesOn_ite {P : Prop} [Decidable P] {a b : Step} (ha : GoesOn a) (hb : GoesOn b) : GoesOn (if P then a else b) := by
  split
  · exact ha
  · exact hb

/-! ### Instructions that go on in every state -/

/-- An instruction that is refused in some state: a read primitive of an illegal width or tree (R122, R144), a partition
flag of the other row (R235), a motion mode of a size without a tree (R257), and the entry of a call (R347). -/
def mayBeRefused : Instr → Bool
  | .readF _ _ => true
  | .readS _ _ => true
  | .readH _ _ => true
  | .partflag4x4 _ _ _ _ f => f == 0
  | .mvmode _ _ => true
  | .decodeFrame (.start _) => true
  | _ => false

theorem predInstr_goesOn (b : Block) (m : IntraMode) (s : State) : GoesOn (exec (predInstr b m) s) := by
  rcases predInstr_cases b m s with ⟨f, heq⟩ | heq <;> rw [heq]
  · exact s.predict_next b f
  · exact goesOn_next _

theorem split_goesOn (a b : Rect) (s : State) : GoesOn (split a b s) := goesOn_ite (goesOn_next _) (goesOn_next _)

theorem intraEscape_goesOn (r : Rect) (f : Bool) (s : State) : GoesOn (intraEscape r f s) :=
  goesOn_ite (goesOn_next _) (goesOn_next _)

theorem partflag4x4_goesOn {f : Nat} (hf : f ≠ 0) (p : Plane) (x y : Nat) (m : BlockMode) (s : State) :
    GoesOn (execPartflag4x4 p x y m f s) := by
  unfold execPartflag4x4
  rw [if_neg hf]
  refine goesOn_reading fun c => ?_
  dsimp only
  split
  · rw [State.partitioned_eight]
    exact goesOn_next _
  · exact goesOn_next _

theorem decodeFrame_goesOn {st : FrameStage} (h : mayBeRefused (.decodeFrame st) = false) (s : State) :
    GoesOn (execDecodeFrame st s) := by
  cases st with
  | start bytes => cases h
  | macroblocks k => cases k <;> exact goesOn_ite (goesOn_next _) (goesOn_next _)
  | macroblockDone | finish | handOver => exact goesOn_next _

/-- Every other instruction goes on, from whatever state and whatever the bits are. -/
theorem exec_goesOn {i : Instr} (h : mayBeRefused i = false) (s : State) : GoesOn (exec i s) := by
  cases i <;> dsimp only [exec]
  case readF | readS | readH | mvmode => cases h
  case readB | readG | readUE | readSE => exact goesOn_reading fun _ => goesOn_next _
  case ftypeI | ftypeP | csbit | vlcbit | subflag => exact goesOn_reading fun _ => goesOn_next _
  case qp6 q => exact goesOn_reading fun _ => goesOn_ite (goesOn_next _) (goesOn_next _)
  case qpdelta d =>
    exact goesOn_reading fun _ => goesOn_ite (goesOn_next _) (goesOn_ite (goesOn_next _) (goesOn_next _))
  case cbpidx i =>
    refine goesOn_reading fun c => ?_
    split <;> exact goesOn_next _
  case mode3 m =>
    refine goesOn_reading fun c => ?_
    split
    · exact goesOn_next _
    · exact goesOn_ite (goesOn_next _) (goesOn_next _)
  case cmode3 m =>
    refine goesOn_reading fun c => ?_
    split <;> exact goesOn_next _
  case partflag8x8 => exact goesOn_reading fun _ => goesOn_next _
  case partflag4x4 p x y m f => exact partflag4x4_goesOn (beq_eq_false_iff_ne.mp h) p x y m s
  case mpmTaken b => exact goesOn_reading fun _ => goesOn_next _
  case mpmRem b r => exact goesOn_reading fun _ => goesOn_reading fun _ => goesOn_next _
  case dpdelta | mvdx | mvdy => exact goesOn_reading fun _ => goesOn_next _
  case predV b => exact predInstr_goesOn b .vertical s
  case predH b => exact predInstr_goesOn b .horizontal s
  case predPlane b => exact predInstr_goesOn b .deltaPlane s
  case predDC b => exact predInstr_goesOn b .dc s
  case predHU b => exact predInstr_goesOn b .horizontalUp s
  case predHD b => exact predInstr_goesOn b .horizontalDown s
  case predVR b => exact predInstr_goesOn b .verticalRight s
  case predDDR b => exact predInstr_goesOn b .diagonalDownRight s
  case predVL b => exact predInstr_goesOn b .verticalLeft s
  case hsym | hsymT0x000 | hsymT0x802 => exact goesOn_reading fun _ => goesOn_next _
  case rsymAmpEsc st n =>
    cases st <;> dsimp only [execRsymAmpEsc]
    case select => exact goesOn_reading fun _ => goesOn_next _
    case lookup => exact goesOn_next _
  case rsymRunEsc st n =>
    cases st <;> dsimp only [execRsymRunEsc]
    case select => exact goesOn_reading fun _ => goesOn_next _
    case lookup => exact goesOn_next _
  case rsymRaw | sign | rawend | rawrun | rawamp => exact goesOn_reading fun _ => goesOn_next _
  case mbIntra r => exact intraEscape_goesOn r false s
  case mbIntraSub r => exact intraEscape_goesOn r true s
  case mvSplitH r => exact split_goesOn _ _ s
  case mvSplitW r => exact split_goesOn _ _ s
  case decodeFrame st => exact decodeFrame_goesOn h s
  case decodeIntraMB f => cases f <;> exact goesOn_next _
  case decodeBlock8 p x y m f => cases f <;> exact goesOn_next _
  case copyBlock k p r mv => exact PixOut.step_next _
  case residualDecode st n =>
    cases st with
    | start => exact goesOn_next _
    | put => exact goesOn_ite (goesOn_next _) (goesOn_ite (goesOn_next _) (goesOn_next _))
  case applyResidual st p x y n =>
    cases st with
    | start => exact goesOn_next _
    | add => exact PixOut.step_next _
  case predictBlock b m => cases m <;> exact goesOn_next _
  all_goals exact goesOn_next _

/-! ### What stands at a legal position goes on -/

/-- A motion mode of a size with a tree (R257). -/
theorem mvmode_goesOn {r : Rect} (h : (s.cfg.mvTree? r.w r.h).isSome = true) (v : Nat) : GoesOn (exec (.mvmode r v) s) := by
  obtain ⟨tree, htree⟩ := Option.isSome_iff_exists.mp (rom_mv_isSome (x := s.ctx) h s.cfg.stereo)
  rw [exec_mvmode htree]
  exact goesOn_reading fun _ => goesOn_next _

/-- No operation the sequencer schedules is refused. -/
theorem not_mayBeRefused_of_scheduled {cfg : Config} {i : Instr} (h : scheduled cfg i = true) :
    mayBeRefused i = false := by
  cases i with
  | readF | readS | readH | mvmode | partflag4x4 => cases h
  | decodeFrame st =>
    cases st with
    | start => cases h
    | _ => rfl
  | _ => rfl

theorem goesOn_of_standsAt {t : Task} {i : Instr} (ht : legalTask s.cfg t = true) (hi : StandsAt t i) :
    GoesOn (exec i s) := by
  cases hi with
  | op => exact exec_goesOn (not_mayBeRefused_of_scheduled ht) s
  | mvmode r v => exact mvmode_goesOn ht v
  | pred b code m => exact predInstr_goesOn b m s
  | _ => exact exec_goesOn rfl s

end

/-- Settles O56: the head of the agenda decodes to an instruction that goes on or to an error, which is taken; with an empty
agenda the block waits, and begins the next call or idles. -/
theorem everyStepGoesOn : Obligations.EveryStepGoesOn := by
  intro s h
  obtain ⟨-, hseq⟩ := s.inv_iff.mp h
  obtain ⟨run, trap, call, idle⟩ := stepRunsTheDecodedInstruction s
  cases ha : s.agenda with
  | nil =>
    obtain ⟨-, hphase⟩ := (sequenced_nil_iff ha).mp hseq
    cases hc : s.calls with
    | nil => exact ⟨s, idle ha hphase hc⟩
    | cons bytes rest => exact ⟨_, (call bytes rest ha hphase hc).trans (exec_start bytes hphase)⟩
  | cons x rest =>
    obtain ⟨-, hlegal, -, -⟩ := sequenced_cons hseq ha
    have hin : InOrder x (decode s.ctx s.cursor x) := inOrder_decode (x := s.ctx) hlegal
    cases hd : decode s.ctx s.cursor x with
    | instr i =>
      rw [hd] at hin
      rw [run x rest i ha hd]
      exact goesOn_of_standsAt (s := { s with agenda := rest }) hlegal hin
    | trap e c => exact ⟨_, trap x rest e c ha hd⟩
    | rejected j =>
      rw [hd] at hin
      exact hin.elim

end Sys2Proof.Machine
end
